-- ==== Sys2Proof/Word.lean ====
section
/-! DEFINITION. The word types of the 64DD controller (00_scope.md R8, R11) and the big-endian view of a
32-bit word as four bytes (20_memory.md R62). -/

namespace Sys2Proof

/-- A register word; every MMIO access moves one (R8). -/
abbrev Word := BitVec 32

/-- A byte of a window or of an image (R37, R38). -/
abbrev Byte := BitVec 8

/-- The upper or lower half of a word: a command opcode is one (R94). -/
abbrev Half := BitVec 16

/-- The byte of `w` that a big-endian word shows at lane 0, 1, 2 or 3: lane 0 is bits 31..24 (R62). -/
def Word.byte (w : Word) (lane : Nat) : Byte := w.extractLsb' (24 - 8 * lane) 8

/-- Four bytes as one big-endian word, the first the most significant (R62). -/
def Word.ofBytes (b0 b1 b2 b3 : Byte) : Word := b0 ++ b1 ++ b2 ++ b3

/-- The mask that lets every bit through, the default of a write (30_encoding.md R107). -/
def Word.fullMask : Word := 0xFFFFFFFF#32

/-- The rule every masked write follows: `(old & ~mask) | word`, with `word` itself not masked
(40_mmio_dispatch.md R130, 93_implementation_defined.md L1). -/
def Word.masked (old word mask : Word) : Word := (old &&& ~~~mask) ||| word

end Sys2Proof
end

