-- ==== Sys2Proof/Config.lean ====
section
/-! DEFINITION. The implementation parameters of 00_scope.md R7, which a controller is constructed with (`Params`): the bus
map, the bit positions, the opcode numbers and the behavioural parameters, each with its default and with what the spec
asks of any configured value; the constants that the source itself fixes; and the values the spec leaves OPEN (opaque
constants: nothing can evaluate them). -/

namespace Sys2Proof

/-- The register names: those of the default `RegMap`, in its order, and any number of further ones that a configured map
may hold, since both the count and the names beyond the seven of the source are parameters (30_encoding.md R90,
93_implementation_defined.md G1). A further register is plain storage (10_state.md R29). -/
inductive Reg where
  | data | miscReg | cmdStatus | curTk | bmStatusCtl | errSector | seqStatusCtl | curSector | hardReset
  | c1S0 | hostSecbyte | c1S2 | secByte | c1S4 | c1S6 | curAddr | idReg | testReg | testPinSel
  | other (n : Nat)
deriving DecidableEq, Repr

/-- The wall clock's record, as a GET command draws it: naturals under no law, `month` zero-based
(41_commands.md R176, R170). What `year` means is OPEN (`CLOCK_YEAR`, D24): no rule reads it but through `bcd`. -/
structure ClockTime where
  year   : Nat
  month  : Nat
  day    : Nat
  hour   : Nat
  minute : Nat
  second : Nat
deriving DecidableEq, Repr, Inhabited

/-! ## The bus map (R61, R90 to R92) -/

/-- The five windows of the bus (20_memory.md R60). -/
inductive Window where
  | c2 | ds | reg | ms | ipl
deriving DecidableEq, Repr

/-- Where the block stands on the bus: the windows, the register enumeration and the read-only set. -/
structure BusMap where
  /-- `C2_BASE`. -/
  c2Base       : Nat
  /-- `C2_SIZE`. -/
  c2Size       : Nat
  /-- `DS_BASE`. -/
  dsBase       : Nat
  /-- `DS_SIZE`. -/
  dsSize       : Nat
  /-- `REG_BASE`. -/
  regBase      : Nat
  /-- `NUM_REGS`. -/
  numRegs      : Nat
  /-- `MS_BASE`. -/
  msBase       : Nat
  /-- `MS_SIZE`. -/
  msSize       : Nat
  /-- `IPL_BASE`. -/
  iplBase      : Nat
  /-- `IPL_SIZE`. -/
  iplSize      : Nat
  /-- `RegMap`: register index to name (R90). -/
  regMap       : List Reg
  /-- `ReadOnlyRegs`: a host write to one of these is ignored (R92). -/
  readOnlyRegs : List Reg
deriving DecidableEq, Repr

/-- The defaults of D1, D8 and D9, from general knowledge: PRESUMED, log entry 1. -/
def BusMap.default : BusMap where
  c2Base := 0x05000000
  c2Size := 0x400
  dsBase := 0x05000400
  dsSize := 0x100
  regBase := 0x05000500
  numRegs := 19
  msBase := 0x05000580
  msSize := 0x40
  iplBase := 0x06000000
  iplSize := 0x400000
  regMap :=
    [.data, .miscReg, .cmdStatus, .curTk, .bmStatusCtl, .errSector, .seqStatusCtl, .curSector, .hardReset,
     .c1S0, .hostSecbyte, .c1S2, .secByte, .c1S4, .c1S6, .curAddr, .idReg, .testReg, .testPinSel]
  readOnlyRegs := [.curTk, .errSector, .curSector, .c1S0, .c1S2, .c1S4, .c1S6, .curAddr, .idReg]

/-- The window map: the window, its base and its size (R61). -/
def BusMap.windows (b : BusMap) : List (Window × Nat × Nat) :=
  [(.c2, b.c2Base, b.c2Size), (.ds, b.dsBase, b.dsSize), (.reg, b.regBase, 4 * b.numRegs),
   (.ms, b.msBase, b.msSize), (.ipl, b.iplBase, b.iplSize)]

/-- The registers the source itself names (R90). -/
def BusMap.sourceRegs : List Reg := [.data, .cmdStatus, .curTk, .bmStatusCtl, .curSector, .hardReset, .idReg]

/-- What the spec asks of any configured bus map: windows disjoint (D9) in a 32-bit space (20_memory.md R60), a host buffer
that holds the largest sector (D9), an enumeration of `NUM_REGS` names without repeats with every register the source
names among them (R90), and a read-only set that leaves out the three registers with write behaviour of their own
(R92). -/
abbrev BusMap.wf (b : BusMap) : Prop :=
  b.windows.Pairwise (fun v w => v.2.1 + v.2.2 ≤ w.2.1 ∨ w.2.1 + w.2.2 ≤ v.2.1) ∧
  (∀ w ∈ b.windows, w.2.1 + w.2.2 ≤ 2 ^ 32) ∧ 232 ≤ b.dsSize ∧
  b.regMap.length = b.numRegs ∧ b.regMap.Nodup ∧ (∀ r ∈ BusMap.sourceRegs, r ∈ b.regMap) ∧
  .cmdStatus ∉ b.readOnlyRegs ∧ .bmStatusCtl ∉ b.readOnlyRegs ∧ .hardReset ∉ b.readOnlyRegs

/-! ## The bit positions (R93, R96, R98) -/

/-- `StatusBits`: the bit of each flag of CMD_STATUS (R93). -/
structure StatusBits where
  dataRq    : Fin 32
  c2Xfer    : Fin 32
  bmErr     : Fin 32
  bmInt     : Fin 32
  mechaInt  : Fin 32
  diskPres  : Fin 32
  busyState : Fin 32
  rstState  : Fin 32
  mtrNSpin  : Fin 32
  headRtrct : Fin 32
  wrPrErr   : Fin 32
  mechaErr  : Fin 32
  diskChng  : Fin 32
deriving DecidableEq, Repr

/-- The default of D2, from general knowledge: PRESUMED, log entry 1. -/
def StatusBits.default : StatusBits where
  dataRq := 30
  c2Xfer := 28
  bmErr := 27
  bmInt := 26
  mechaInt := 25
  diskPres := 24
  busyState := 23
  rstState := 22
  mtrNSpin := 20
  headRtrct := 19
  wrPrErr := 18
  mechaErr := 17
  diskChng := 16

/-- The ten flags the rules use have distinct bits (R93). -/
abbrev StatusBits.wf (b : StatusBits) : Prop :=
  [b.dataRq, b.c2Xfer, b.bmErr, b.bmInt, b.mechaInt, b.diskPres, b.rstState, b.mtrNSpin, b.headRtrct,
    b.diskChng].Nodup

/-- `BmCtlBits`: the bit of each named bit of a BM-control word (R96). -/
structure BmCtlBits where
  start    : Fin 32
  mngrmode : Fin 32
  intmask  : Fin 32
  reset    : Fin 32
  disOrChk : Fin 32
  disC1Crr : Fin 32
  blkTrans : Fin 32
  mechaRst : Fin 32
deriving DecidableEq, Repr

/-- The default of D3, from general knowledge: PRESUMED, log entry 1. -/
def BmCtlBits.default : BmCtlBits where
  start := 31
  mngrmode := 30
  intmask := 29
  reset := 28
  disOrChk := 27
  disC1Crr := 26
  blkTrans := 25
  mechaRst := 24

/-- The four bits the rules use are distinct and stand outside the sector field, bits 23..16 (R96, D3). -/
abbrev BmCtlBits.wf (b : BmCtlBits) : Prop :=
  [b.start, b.reset, b.blkTrans, b.mechaRst].Nodup ∧
    ∀ i ∈ [b.start, b.reset, b.blkTrans, b.mechaRst], i.val < 16 ∨ 23 < i.val

/-- `BmStatusBits`: the bit of each BM-status flag (R98). -/
structure BmStatusBits where
  running : Fin 32
  block   : Fin 32
  error   : Fin 32
  micro   : Fin 32
  c1Crr   : Fin 32
  c1Dbl   : Fin 32
  c1Sng   : Fin 32
  c1Err   : Fin 32
deriving DecidableEq, Repr

/-- The default of D4, from general knowledge: PRESUMED, log entry 1. -/
def BmStatusBits.default : BmStatusBits where
  running := 31
  block := 24
  error := 26
  micro := 25
  c1Crr := 23
  c1Dbl := 22
  c1Sng := 21
  c1Err := 16

/-- The two flags the rules use have distinct bits (R98). -/
abbrev BmStatusBits.wf (b : BmStatusBits) : Prop := b.running ≠ b.block

/-! ## The command opcodes (R101) -/

/-- `Opcodes`: the number of each command but FEATURE_INQ, whose number the source fixes (R101). -/
structure Opcodes where
  noop          : Half
  seekRead      : Half
  seekWrite     : Half
  recalibrate   : Half
  sleep         : Half
  start         : Half
  setStandby    : Half
  setSleep      : Half
  clrDskChng    : Half
  clrReset      : Half
  readVersion   : Half
  setDiskType   : Half
  requestStatus : Half
  standby       : Half
  idxLockRetry  : Half
  setYearMonth  : Half
  setDayHour    : Half
  setMinSec     : Half
  getYearMonth  : Half
  getDayHour    : Half
  getMinSec     : Half
deriving DecidableEq, Repr

/-- The default of D5, from general knowledge: PRESUMED, log entry 1. -/
def Opcodes.default : Opcodes where
  noop := 0x0000#16
  seekRead := 0x0001#16
  seekWrite := 0x0002#16
  recalibrate := 0x0003#16
  sleep := 0x0004#16
  start := 0x0005#16
  setStandby := 0x0006#16
  setSleep := 0x0007#16
  clrDskChng := 0x0008#16
  clrReset := 0x0009#16
  readVersion := 0x000A#16
  setDiskType := 0x000B#16
  requestStatus := 0x000C#16
  standby := 0x000D#16
  idxLockRetry := 0x000E#16
  setYearMonth := 0x000F#16
  setDayHour := 0x0010#16
  setMinSec := 0x0011#16
  getYearMonth := 0x0012#16
  getDayHour := 0x0013#16
  getMinSec := 0x0014#16

/-- FEATURE_INQ, the one number the source fixes (R101, D5). -/
def Config.opFeatureInq : Half := 0x001B#16

/-- Every number of the opcode map; any other is an unrecognized command (R102). -/
def Opcodes.numbers (o : Opcodes) : List Half :=
  [o.noop, o.seekRead, o.seekWrite, o.recalibrate, o.sleep, o.start, o.setStandby, o.setSleep, o.clrDskChng,
   o.clrReset, o.readVersion] ++
  [o.setDiskType, o.requestStatus, o.standby, o.idxLockRetry, o.setYearMonth, o.setDayHour, o.setMinSec,
   o.getYearMonth, o.getDayHour, o.getMinSec, Config.opFeatureInq]

/-- The opcode map is injective (R102, D5, D21). -/
abbrev Opcodes.wf (o : Opcodes) : Prop := o.numbers.Nodup

namespace Config

/-- What a register beyond the names of R90 reads as where nothing is listed for it: the test default of `INIT_REGS` (R44,
D27). DESIGN CHOICE, log entry 2: unsafe. -/
def unlistedWord : Word := 0x00000000#32

/-- What a byte of a buffer or of an image reads as where nothing is listed for it: the test default of
`INIT_BUFS` (R44, D27). DESIGN CHOICE, log entry 4: unsafe. -/
def unlistedByte : Byte := 0x00#8

/-! ## Constants the source fixes (R7) -/

/-- `SEEK_OR`: the bits a seek sets in CUR_TK. -/
def seekOr : Word := 0x60000000#32
/-- `FEATURE_WORD`: DATA after FEATURE_INQ. -/
def featureWord : Word := 0x00010000#32
/-- `SECTORS_PER_BLOCK`. -/
def sectorsPerBlock : Nat := 85
/-- `BLOCKS_PER_TRACK`. -/
def blocksPerTrack : Nat := 2
/-- `BLOCK1_BASE`: the sector-register value that starts block 1. -/
def block1Base : Nat := 90
/-- `IPL_TRACK`: the track whose block 0 is special-cased when an IPL image is present. -/
def iplTrack : Nat := 6

/-! ## What the spec leaves OPEN -/

/-- `ID_WITH_IPL` (D7): no value is given. -/
opaque idWithIpl : Word

/-- What tells the two OPEN ID words apart; any natural, so that `idWithoutIpl` is any other word. -/
opaque idGap : Nat

/-- `ID_WITHOUT_IPL` (D7): no value is given, but that it is a word distinct from `ID_WITH_IPL`. -/
def idWithoutIpl : Word := idWithIpl ^^^ BitVec.ofNat 32 (idGap % (2 ^ 32 - 1) + 1)

/-- The `n`th free draw of the wall clock (R176): a fresh record under no law. -/
opaque clockDraw : Nat → ClockTime

end Config

/-- The parameters of R7 that the source does not fix. They are settled when a controller is constructed; State carries
them because `exec` takes nothing but a state, and no operation writes them (log entry 6). The power-on contents and the
clock, which R7 lists too, are arguments of construction and a free input of State. -/
structure Params where
  /-- The windows, `NUM_REGS`, `RegMap` and `ReadOnlyRegs`. -/
  bus                : BusMap
  /-- `StatusBits` (D2). -/
  statusBits         : StatusBits
  /-- `BmCtlBits` (D3). -/
  bmCtlBits          : BmCtlBits
  /-- `BmStatusBits` (D4). -/
  bmStatusBits       : BmStatusBits
  /-- `Opcodes` (D5). -/
  opcodes            : Opcodes
  /-- `WRITE_PERSIST`: write-branch commits change the disk image (D14). -/
  writePersist       : Bool
  /-- `RESET_CLEARS_SESSION`: the BM reset also zeroes the rest of the session (D26). -/
  resetClearsSession : Bool
  /-- `IDX_LOCK_BITS`: what IDX_LOCK_RETRY sets in CUR_TK (D22). -/
  idxLockBits        : Word
  /-- `HARD_RESET_MAGIC`: the only word the hard-reset register accepts (D6). -/
  hardResetMagic     : Word
  /-- `ID_WITH_IPL` (D7). -/
  idWithIpl          : Word
  /-- `ID_WITHOUT_IPL` (D7). -/
  idWithoutIpl       : Word
deriving DecidableEq, Repr

/-- The defaults of R7; the two ID words stay OPEN. -/
def Params.default : Params where
  bus                := BusMap.default
  statusBits         := StatusBits.default
  bmCtlBits          := BmCtlBits.default
  bmStatusBits       := BmStatusBits.default
  opcodes            := Opcodes.default
  writePersist       := false
  resetClearsSession := false
  idxLockBits        := 0x60000000#32
  hardResetMagic     := 0xAAAA0000#32
  idWithIpl          := Config.idWithIpl
  idWithoutIpl       := Config.idWithoutIpl

/-- What the spec asks of any configured parameters: well-formed tables, two ID words that differ (D7), and `IDX_LOCK_BITS`
clear of the head and track fields, bits 28..16 (41_commands.md R166). -/
abbrev Params.wf (p : Params) : Prop :=
  p.bus.wf ∧ p.statusBits.wf ∧ p.bmCtlBits.wf ∧ p.bmStatusBits.wf ∧ p.opcodes.wf ∧
    p.idWithIpl ≠ p.idWithoutIpl ∧ p.idxLockBits &&& 0x1FFF0000#32 = 0#32

end Sys2Proof
end

