-- ==== Sys2Proof/Syntax.lean ====
section
/-! DEFINITION. The operations of the 64DD controller: one constructor of `Instr` per row of spec/opcode_table.json, the
host access that carries an operation (30_encoding.md R106), and the reasons an access has no step (20_memory.md R64). -/

namespace Sys2Proof

/-- One MMIO access of the host, the only operation format: `(kind, addr, word, mask)`, where the word and the mask are
present for writes only (R106). The tuple is the operation's encoding (R107). -/
inductive Access where
  | read (addr : Word)
  | write (addr word mask : Word)
deriving DecidableEq, Repr

/-- Why an operation has no transition (`NoStep`, R64). -/
inductive NoStep where
  /-- The offset in the window is not a multiple of 4. -/
  | misaligned
  /-- The word does not lie whole inside its window. -/
  | beyondWindow
  /-- The address is in no window (the offsets `4*NUM_REGS .. 0x7F` of the register file among them). -/
  | unmapped
  /-- An IPL-window read at or past the end of a present image (R134). -/
  | beyondIpl
  /-- The term of `Instr` is the encoding of no access: it is not well formed. -/
  | notAnOperation
deriving DecidableEq, Repr

/-- The operations. A command row carries no operand, since bits 15..0 of its word and the write mask have no effect
(R94); a write row carries the written word, and the mask where the mask takes part. An offset is in bytes from its
window's base. -/
inductive Instr where
  | noop
  | seekRead
  | seekWrite
  | recalibrate
  | sleep
  | start
  | setStandby
  | setSleep
  | clrDskChng
  | clrReset
  | readVersion
  | setDiskType
  | requestStatus
  | standby
  | idxLockRetry
  | setYearMonth
  | setDayHour
  | setMinSec
  | getYearMonth
  | getDayHour
  | getMinSec
  | featureInq
  | cmdUnrecognized (op : Half)
  | regRead (r : Reg)
  | statusRead
  | regWrite (r : Reg) (word mask : Word)
  | regWriteRo (r : Reg) (word mask : Word)
  | bmctlWrite (word : Word)
  | hardResetWrite (word : Word)
  | c2Read (off : Nat)
  | c2Write (off : Nat) (word mask : Word)
  | dsRead (off : Nat)
  | dsWrite (off : Nat) (word mask : Word)
  | msRead (off : Nat)
  | msWrite (off : Nat) (word mask : Word)
  | iplRead (off : Nat)
  | iplWrite (off : Nat) (word mask : Word)
deriving DecidableEq, Repr

end Sys2Proof
end

