-- ==== Sys2Proof/WellFormed.lean ====
section
/-! DEFINITION. Which terms of `Instr` are operations of the controller: the register of each register row is one the row
names and the configured map holds, an offset is a whole aligned word of its window (20_memory.md R63, R64), and an
unrecognized opcode is none of the opcode map (30_encoding.md R102). -/

namespace Sys2Proof

/-- The registers a host write stores to by the generic rule: in the map, not read-only, and none of the three that the
source gives write behaviour of their own (40_mmio_dispatch.md R125, R130). -/
def BusMap.isGeneric (b : BusMap) (r : Reg) : Bool :=
  b.regMap.contains r && !b.readOnlyRegs.contains r && r != .cmdStatus && r != .bmStatusCtl && r != .hardReset

/-- The registers whose host writes are ignored: read-only and in the map (R126). -/
def BusMap.isReadOnly (b : BusMap) (r : Reg) : Bool := b.regMap.contains r && b.readOnlyRegs.contains r

/-- `off` is the offset of a whole aligned word of a window of `size` bytes. -/
def offsetOk (size off : Nat) : Bool := off % 4 == 0 && off + 4 ≤ size

/-- The operation is one the host of a controller with these parameters can encode. -/
def Instr.wellFormed (p : Params) : Instr → Bool
  | .noop => true
  | .seekRead => true
  | .seekWrite => true
  | .recalibrate => true
  | .sleep => true
  | .start => true
  | .setStandby => true
  | .setSleep => true
  | .clrDskChng => true
  | .clrReset => true
  | .readVersion => true
  | .setDiskType => true
  | .requestStatus => true
  | .standby => true
  | .idxLockRetry => true
  | .setYearMonth => true
  | .setDayHour => true
  | .setMinSec => true
  | .getYearMonth => true
  | .getDayHour => true
  | .getMinSec => true
  | .featureInq => true
  | .cmdUnrecognized op => !p.opcodes.numbers.contains op
  | .regRead r => p.bus.regMap.contains r && r != .cmdStatus
  | .statusRead => true
  | .regWrite r _ _ => p.bus.isGeneric r
  | .regWriteRo r _ _ => p.bus.isReadOnly r
  | .bmctlWrite _ => true
  | .hardResetWrite _ => true
  | .c2Read off => offsetOk p.bus.c2Size off
  | .c2Write off _ _ => offsetOk p.bus.c2Size off
  | .dsRead off => offsetOk p.bus.dsSize off
  | .dsWrite off _ _ => offsetOk p.bus.dsSize off
  | .msRead off => offsetOk p.bus.msSize off
  | .msWrite off _ _ => offsetOk p.bus.msSize off
  | .iplRead off => offsetOk p.bus.iplSize off
  | .iplWrite off _ _ => offsetOk p.bus.iplSize off

end Sys2Proof
end

