-- ==== Sys2Proof/Decode.lean ====
section
/-! DEFINITION. The decoder: from a host access `(kind, addr, word, mask)` to the operation it performs or the reason
it has none (20_memory.md R61, R64; 30_encoding.md R90 to R109; 40_mmio_dispatch.md R120, R125), under the configured
parameters (00_scope.md R7), and the encoder. -/

namespace Sys2Proof

/-! ## Windows -/

/-- The bounds of a word access at byte offset `off` of a window of `size` bytes, checked in the spec's order
(R64, R120). -/
def checkOffset (size off : Nat) : Except NoStep Unit :=
  if off % 4 ≠ 0 then .error .misaligned
  else if off + 4 > size then .error .beyondWindow
  else .ok ()

/-- `Window(addr)` of R120: the window that holds the address, and the offset in it. -/
def locate (b : BusMap) (addr : Word) : Except NoStep (Window × Nat) :=
  match b.windows.find? (fun e => e.2.1 ≤ addr.toNat && addr.toNat < e.2.1 + e.2.2) with
  | none => .error .unmapped
  | some (win, base, size) =>
    match checkOffset size (addr.toNat - base) with
    | .error why => .error why
    | .ok () => .ok (win, addr.toNat - base)

/-- The register at byte offset `off` of the register window: `RegMap[off >> 2]` (R91). -/
def regAt (b : BusMap) (off : Nat) : Except NoStep Reg :=
  match b.regMap[off / 4]? with
  | none => .error .unmapped
  | some r => .ok r

/-! ## Commands -/

/-- The 16-bit opcode of a word written to CMD_STATUS: bits 31..16 (R94). -/
def commandOp (word : Word) : Half := word.extractLsb' 16 16

/-- The command table: opcode to command (R101). -/
def commandTable (o : Opcodes) : List (Half × Instr) :=
  [(o.noop, .noop), (o.seekRead, .seekRead), (o.seekWrite, .seekWrite),
   (o.recalibrate, .recalibrate), (o.sleep, .sleep), (o.start, .start),
   (o.setStandby, .setStandby), (o.setSleep, .setSleep), (o.clrDskChng, .clrDskChng),
   (o.clrReset, .clrReset), (o.readVersion, .readVersion)] ++
  [(o.setDiskType, .setDiskType), (o.requestStatus, .requestStatus), (o.standby, .standby),
   (o.idxLockRetry, .idxLockRetry), (o.setYearMonth, .setYearMonth),
   (o.setDayHour, .setDayHour), (o.setMinSec, .setMinSec), (o.getYearMonth, .getYearMonth),
   (o.getDayHour, .getDayHour), (o.getMinSec, .getMinSec), (Config.opFeatureInq, .featureInq)]

/-- Every opcode decodes: to its row of the table by an exact match, otherwise to "unrecognized" (R102). -/
def decodeCommand (o : Opcodes) (op : Half) : Instr :=
  match (commandTable o).lookup op with
  | some i => i
  | none => .cmdUnrecognized op

/-! ## The decoder -/

/-- The register arm of a read: the status register's read is an operation of its own (R121, R122). -/
def decodeRegRead (r : Reg) : Instr :=
  if r = .cmdStatus then .statusRead else .regRead r

/-- The register arm of a write: the source's four cases in its order, read-only first (R125). The mask takes part in
the generic write only (D20). -/
def decodeRegWrite (p : Params) (r : Reg) (word mask : Word) : Instr :=
  if p.bus.readOnlyRegs.contains r then .regWriteRo r word mask
  else if r = .cmdStatus then decodeCommand p.opcodes (commandOp word)
  else if r = .bmStatusCtl then .bmctlWrite word
  else if r = .hardReset then .hardResetWrite word
  else .regWrite r word mask

/-- The operation a host access performs, or why it has no step (R120, R125, R64). -/
def decode (p : Params) : Access → Except NoStep Instr
  | .read addr =>
    match locate p.bus addr with
    | .error why => .error why
    | .ok (.reg, off) =>
      match regAt p.bus off with
      | .error why => .error why
      | .ok r => .ok (decodeRegRead r)
    | .ok (.c2, off) => .ok (.c2Read off)
    | .ok (.ds, off) => .ok (.dsRead off)
    | .ok (.ms, off) => .ok (.msRead off)
    | .ok (.ipl, off) => .ok (.iplRead off)
  | .write addr word mask =>
    match locate p.bus addr with
    | .error why => .error why
    | .ok (.reg, off) =>
      match regAt p.bus off with
      | .error why => .error why
      | .ok r => .ok (decodeRegWrite p r word mask)
    | .ok (.c2, off) => .ok (.c2Write off word mask)
    | .ok (.ds, off) => .ok (.dsWrite off word mask)
    | .ok (.ms, off) => .ok (.msWrite off word mask)
    | .ok (.ipl, off) => .ok (.iplWrite off word mask)

/-! ## The encoder -/

/-- The index of a register in `RegMap` (R90). -/
def BusMap.regIndex (b : BusMap) (r : Reg) : Nat := b.regMap.idxOf r

/-- The bus address of a register (R90, R91). -/
def BusMap.regAddr (b : BusMap) (r : Reg) : Word := BitVec.ofNat 32 (b.regBase + 4 * b.regIndex r)

/-- The access that writes a command opcode: `WR CMD_STATUS, op << 16` (R108). -/
def commandAccess (b : BusMap) (op : Half) : Access := .write (b.regAddr .cmdStatus) (op ++ 0x0000#16) Word.fullMask

/-- The access that encodes a well-formed operation; the bits no rule reads are zero in a command word, and the mask
is full where it does not take part (R107, R108). -/
def encode (p : Params) : Instr → Access
  | .noop => commandAccess p.bus p.opcodes.noop
  | .seekRead => commandAccess p.bus p.opcodes.seekRead
  | .seekWrite => commandAccess p.bus p.opcodes.seekWrite
  | .recalibrate => commandAccess p.bus p.opcodes.recalibrate
  | .sleep => commandAccess p.bus p.opcodes.sleep
  | .start => commandAccess p.bus p.opcodes.start
  | .setStandby => commandAccess p.bus p.opcodes.setStandby
  | .setSleep => commandAccess p.bus p.opcodes.setSleep
  | .clrDskChng => commandAccess p.bus p.opcodes.clrDskChng
  | .clrReset => commandAccess p.bus p.opcodes.clrReset
  | .readVersion => commandAccess p.bus p.opcodes.readVersion
  | .setDiskType => commandAccess p.bus p.opcodes.setDiskType
  | .requestStatus => commandAccess p.bus p.opcodes.requestStatus
  | .standby => commandAccess p.bus p.opcodes.standby
  | .idxLockRetry => commandAccess p.bus p.opcodes.idxLockRetry
  | .setYearMonth => commandAccess p.bus p.opcodes.setYearMonth
  | .setDayHour => commandAccess p.bus p.opcodes.setDayHour
  | .setMinSec => commandAccess p.bus p.opcodes.setMinSec
  | .getYearMonth => commandAccess p.bus p.opcodes.getYearMonth
  | .getDayHour => commandAccess p.bus p.opcodes.getDayHour
  | .getMinSec => commandAccess p.bus p.opcodes.getMinSec
  | .featureInq => commandAccess p.bus Config.opFeatureInq
  | .cmdUnrecognized op => commandAccess p.bus op
  | .regRead r => .read (p.bus.regAddr r)
  | .statusRead => .read (p.bus.regAddr .cmdStatus)
  | .regWrite r word mask => .write (p.bus.regAddr r) word mask
  | .regWriteRo r word mask => .write (p.bus.regAddr r) word mask
  | .bmctlWrite word => .write (p.bus.regAddr .bmStatusCtl) word Word.fullMask
  | .hardResetWrite word => .write (p.bus.regAddr .hardReset) word Word.fullMask
  | .c2Read off => .read (BitVec.ofNat 32 (p.bus.c2Base + off))
  | .c2Write off word mask => .write (BitVec.ofNat 32 (p.bus.c2Base + off)) word mask
  | .dsRead off => .read (BitVec.ofNat 32 (p.bus.dsBase + off))
  | .dsWrite off word mask => .write (BitVec.ofNat 32 (p.bus.dsBase + off)) word mask
  | .msRead off => .read (BitVec.ofNat 32 (p.bus.msBase + off))
  | .msWrite off word mask => .write (BitVec.ofNat 32 (p.bus.msBase + off)) word mask
  | .iplRead off => .read (BitVec.ofNat 32 (p.bus.iplBase + off))
  | .iplWrite off word mask => .write (BitVec.ofNat 32 (p.bus.iplBase + off)) word mask

/-- An access with the bits that no rule reads at the encoder's values: the low half of a command word, and the mask of
a write to CMD_STATUS, BM_STATUS_CTL or HARD_RESET (R94, R97, D20). -/
def Access.canonical (b : BusMap) : Access → Access
  | .read addr => .read addr
  | .write addr word mask =>
    if addr = b.regAddr .cmdStatus then commandAccess b (commandOp word)
    else if addr = b.regAddr .bmStatusCtl ∨ addr = b.regAddr .hardReset then .write addr word Word.fullMask
    else .write addr word mask

/-! ## Words of the opcode table

A row of spec/opcode_table.json is ONE 32-bit number: for a command row the word written to CMD_STATUS, for an MMIO row
the bus address. The table gives neither the kind of an access nor a written word any bits. -/

/-- The access a table number stands for: an address in a window, or among the 0x80 bytes that the register rows' mask
spans, is an access there, a write of a zero word where the row that fixes that whole address is a write row
(BM_STATUS_CTL, HARD_RESET) and a read otherwise; any other number is a command word. DESIGN CHOICE, log entry 12. -/
def tableAccess (b : BusMap) (nbits w : Nat) : Access :=
  let word : Word := BitVec.ofNat 32 (w % 2 ^ nbits)
  if word = b.regAddr .bmStatusCtl ∨ word = b.regAddr .hardReset then .write word 0#32 0#32
  else if b.windows.any (fun e => e.2.1 ≤ word.toNat && word.toNat < e.2.1 + e.2.2) ||
      (b.regBase ≤ word.toNat && word.toNat < b.regBase + 0x80) then .read word
  else .write (b.regAddr .cmdStatus) word Word.fullMask

/-- What the decoder of a controller with these parameters reads from a number of the opcode table. -/
def decodeNumber (p : Params) (nbits w : Nat) : Option Instr :=
  match decode p (tableAccess p.bus nbits w) with
  | .ok i => some i
  | .error _ => none

/-- What the decoder reads from a row's number in the opcode table, whose numbers are those of the default parameters. -/
def decodeTableWord (nbits w : Nat) : Option Instr := decodeNumber Params.default nbits w

end Sys2Proof
end

