-- ==== Sys2Proof/Machine/Flags.lean ====
section
/-! DEFINITION. The one-bit flags of CMD_STATUS (30_encoding.md R93) and of BM_STATUS_CTL's stored word (R98), each at the
bit the parameters give it (00_scope.md R7), and setting, clearing and testing one of them in a word (00_scope.md R13). -/

namespace Sys2Proof.Machine

/-- The named flags of the status register (10_state.md R23, 30_encoding.md R93). -/
inductive StatusFlag where
  | dataRq | c2Xfer | bmErr | bmInt | mechaInt | diskPres | busyState | rstState | mtrNSpin | headRtrct
  | wrPrErr | mechaErr | diskChng
deriving DecidableEq, Repr

/-- The named flags of the BM status (R25, R98). -/
inductive BmFlag where
  | running | block | error | micro | c1Crr | c1Dbl | c1Sng | c1Err
deriving DecidableEq, Repr

/-- The bit of a status flag, as `StatusBits` configures it (R93). -/
def StatusFlag.bit (f : StatusFlag) (b : StatusBits) : Fin 32 :=
  match f with
  | .dataRq => b.dataRq
  | .c2Xfer => b.c2Xfer
  | .bmErr => b.bmErr
  | .bmInt => b.bmInt
  | .mechaInt => b.mechaInt
  | .diskPres => b.diskPres
  | .busyState => b.busyState
  | .rstState => b.rstState
  | .mtrNSpin => b.mtrNSpin
  | .headRtrct => b.headRtrct
  | .wrPrErr => b.wrPrErr
  | .mechaErr => b.mechaErr
  | .diskChng => b.diskChng

/-- The bit of a BM-status flag, as `BmStatusBits` configures it (R98). -/
def BmFlag.bit (f : BmFlag) (b : BmStatusBits) : Fin 32 :=
  match f with
  | .running => b.running
  | .block => b.block
  | .error => b.error
  | .micro => b.micro
  | .c1Crr => b.c1Crr
  | .c1Dbl => b.c1Dbl
  | .c1Sng => b.c1Sng
  | .c1Err => b.c1Err

/-- The mask of a list of bits: the word with those bits one and every other bit zero (R93, R96, R98). -/
def bitMask : List (Fin 32) → Word
  | [] => 0#32
  | i :: is => BitVec.twoPow 32 i ||| bitMask is

/-- `w` with bit `i` one: `set R[NAME].F` (R13). -/
def setBit (w : Word) (i : Nat) : Word := w ||| BitVec.twoPow 32 i

/-- `w` with bit `i` zero: `clear R[NAME].F` (R13). -/
def clearBit (w : Word) (i : Nat) : Word := w &&& ~~~BitVec.twoPow 32 i

/-- Bit `i` of `w` (R11). -/
def testBit (w : Word) (i : Nat) : Bool := w.getLsbD i

/-- The status word right after construction: motor stopped, head retracted, and "disk present" exactly if the image is
not empty; every other bit zero (R44, 70_reset_and_hazards.md R300). -/
def initialStatus (b : StatusBits) (diskPresent : Bool) : Word :=
  let stopped := setBit (setBit 0#32 (StatusFlag.mtrNSpin.bit b)) (StatusFlag.headRtrct.bit b)
  if diskPresent then setBit stopped (StatusFlag.diskPres.bit b) else stopped

end Sys2Proof.Machine
end

