-- ==== Sys2Proof/Machine/State.lean ====
section
/-! DEFINITION. The state of one controller (10_state.md R20 to R44), the two faults it can raise (60_exceptions.md R271),
the refusals of the model, construction (70_reset_and_hazards.md R300) and the state after reset. -/

namespace Sys2Proof.Machine

/-- The faults of the block (R271). A fault is recorded in the state by the operation that raises it, which ends there;
from then on no operation has a step (R270), and `exec` and `step` answer with the recorded fault. -/
inductive Fault where
  /-- A write to HARD_RESET of a word that is not `HARD_RESET_MAGIC` (R129). Raised by `execHardResetWrite`; safe: the
  source's own fatal error. -/
  | hardResetWord (word : Word)
  /-- A pump's copy, or its persistent commit, reaches past the disk image (R224, R218, R272): the image offset and the
  length. Raised by `copySector` and `commitSector`; safe: the spec's own fault, which errs toward unprovable. -/
  | diskRange (off len : Nat)
deriving DecidableEq, Repr

/-- Why an operation is refused. -/
inductive Refusal where
  /-- The instruction has no meaning yet; no arm of `exec` answers so any more. Safe: nothing is claimed of it. -/
  | notModelled (mnemonic : String)
  /-- The access has no transition: the spec's `NoStep` (20_memory.md R64). Raised by `step` where the decoder rejects
  the access and by the window operations on an offset out of bounds; safe: the host is stuck there. -/
  | noStep (why : NoStep)
deriving DecidableEq, Repr

/-- Bytes by offset: offsets strictly rising, and no entry equal to what an unlisted offset reads as. -/
abbrev Memory := List Host.Cell

/-- The canonical form of a memory. -/
abbrev Memory.wf (m : Memory) : Prop :=
  m.Pairwise (fun c d => c.1 < d.1) ∧ ∀ c ∈ m, c.2 ≠ Config.unlistedByte

/-- Every listed offset lies below `size`. -/
abbrev Memory.within (m : Memory) (size : Nat) : Prop := ∀ c ∈ m, c.1 < size

/-- A byte sequence of a given length: the disk image or the IPL image (R38, 00_scope.md R10). -/
structure Image where
  size  : Nat
  bytes : Memory
deriving DecidableEq, Repr

/-- The absent medium: no byte (R10). -/
def Image.empty : Image := { size := 0, bytes := [] }

/-- Words by number: no last entry equal to what an unlisted number reads as. -/
abbrev Words := List Word

/-- The canonical form of a list of words. -/
abbrev Words.wf (ws : Words) : Prop := ws.getLast? ≠ some Config.unlistedWord

/-- The register file: one word for each register name (R20), the further ones of a configured map by their number. -/
structure Regs where
  data         : Word
  miscReg      : Word
  cmdStatus    : Word
  curTk        : Word
  bmStatusCtl  : Word
  errSector    : Word
  seqStatusCtl : Word
  curSector    : Word
  hardReset    : Word
  c1S0         : Word
  hostSecbyte  : Word
  c1S2         : Word
  secByte      : Word
  c1S4         : Word
  c1S6         : Word
  curAddr      : Word
  idReg        : Word
  testReg      : Word
  testPinSel   : Word
  others       : Words
deriving DecidableEq, Repr

/-- Every register zero: the test default of `INIT_REGS` (D27). -/
def Regs.zero : Regs where
  data := 0#32
  miscReg := 0#32
  cmdStatus := 0#32
  curTk := 0#32
  bmStatusCtl := 0#32
  errSector := 0#32
  seqStatusCtl := 0#32
  curSector := 0#32
  hardReset := 0#32
  c1S0 := 0#32
  hostSecbyte := 0#32
  c1S2 := 0#32
  secByte := 0#32
  c1S4 := 0#32
  c1S6 := 0#32
  curAddr := 0#32
  idReg := 0#32
  testReg := 0#32
  testPinSel := 0#32
  others := []

/-- The session: hidden state no register shows (R30 to R35). -/
structure Session where
  /-- The last BM-control write had its RESET bit set (R30). -/
  resetHold       : Bool
  /-- The pump's branch: true is read, false is write (R31). -/
  modeRead        : Bool
  /-- The block of the track being transferred, 0 or 1 (R32). -/
  currentBlock    : Fin 2
  /-- The zone the last seek resolved, 0 to 15 (R33). -/
  zone            : Fin 16
  /-- The byte offset in the disk image of the current track's first block (R34). -/
  trackByteOffset : Word
  /-- The read pump has done its one-time step-back in this transfer (R35). -/
  skip89          : Bool
deriving DecidableEq, Repr

/-- The session at power-on (R44). -/
def Session.initial : Session where
  resetHold := false
  modeRead := false
  currentBlock := 0
  zone := 0
  trackByteOffset := 0#32
  skip89 := false

/-- Which pair of clock fields a GET command reads (R40, 41_commands.md R176). -/
inductive ClockKind where
  /-- YM: year and month. -/
  | yearMonth
  /-- DH: day and hour. -/
  | dayHour
  /-- MS: minute and second. -/
  | minSec
deriving DecidableEq, Repr

/-- The externally visible events (R40). -/
inductive Event where
  | signal
  | clear
  | commit (off : Word) (bytes : List Byte)
  | clockRead (kind : ClockKind)
deriving DecidableEq, Repr

/-- The MODEL's own fields, not the spec's: the host side of the bus and of the clock. -/
structure Port where
  /-- The accesses the host has still to make, the next one first. -/
  pending    : List Access
  /-- The word the last operation returned to the host; none after a write (00_scope.md R14). -/
  result     : Option Word
  /-- Clock records injected by whoever runs the machine, the next one first (41_commands.md R176). -/
  clockFeed  : List ClockTime
  /-- How many free draws of the clock have been taken: the free value's counter. -/
  clockDraws : Nat
deriving DecidableEq, Repr

/-- Nothing pending, nothing returned, nothing drawn. -/
def Port.initial : Port where
  pending := []
  result := none
  clockFeed := []
  clockDraws := 0

/-- The state of one controller instance: the tuple of 10_state.md, the parameters it was constructed with
(00_scope.md R7) and the model's own port. -/
structure State where
  /-- The register file (R20 to R29). -/
  regs    : Regs
  /-- The session (R30 to R35). -/
  session : Session
  /-- The ECC buffer (R37), by window offset. -/
  c2      : Memory
  /-- The host data buffer (R37), by window offset. -/
  ds      : Memory
  /-- The microsequencer RAM (R37), by window offset. -/
  ms      : Memory
  /-- The disk image (R38); length 0 means no media. -/
  img     : Image
  /-- The IPL image, if one was supplied (R38). -/
  ipl     : Option Image
  /-- The level of the interrupt output (R39). -/
  irq     : Bool
  /-- The events produced so far, the oldest first (R40). -/
  trace   : List Event
  /-- The sticky fatal state (R41, R270). -/
  fault   : Option Fault
  /-- The construction parameters; no operation writes them (R7, R43). -/
  params  : Params
  /-- The model's own: the host's side of the bus and of the clock. -/
  port    : Port
deriving DecidableEq, Repr

/-- What a controller is constructed from: the parameters, the power-on contents the spec leaves unspecified
(`INIT_REGS`, `INIT_BUFS`, D27) and the two images (R10). -/
structure Construction where
  params   : Params
  initRegs : Regs
  initC2   : Memory
  initDs   : Memory
  initMs   : Memory
  ipl      : Option Image
  img      : Image
deriving DecidableEq, Repr

/-- `init`: the state immediately after construction (R300, R44). -/
def State.construct (c : Construction) : State where
  regs :=
    { c.initRegs with
      idReg := if c.ipl.isSome then c.params.idWithIpl else c.params.idWithoutIpl
      cmdStatus := initialStatus c.params.statusBits (decide (0 < c.img.size)) }
  session := Session.initial
  c2 := c.initC2
  ds := c.initDs
  ms := c.initMs
  img := c.img
  ipl := c.ipl
  irq := false
  trace := []
  fault := none
  params := c.params
  port := Port.initial

/-- The default parameters, the test defaults of D27 (zero), no IPL image and no disk. -/
def Construction.bare : Construction where
  params := Params.default
  initRegs := Regs.zero
  initC2 := []
  initDs := []
  initMs := []
  ipl := none
  img := Image.empty

/-- The machine right after reset: a controller constructed with nothing attached. -/
def State.reset : State := State.construct Construction.bare

end Sys2Proof.Machine
end

