-- ==== Sys2Proof/Machine/Ops.lean ====
section
/-! DEFINITION. The named operations every meaning is made of: bytes and big-endian words of a memory (20_memory.md R62),
registers and flags (00_scope.md R13), events and the interrupt line (60_exceptions.md R275), raising a fault (R270), the
clock draw (41_commands.md R176), and how an operation begins and ends. -/

namespace Sys2Proof.Machine

/-! ## Memory -/

/-- The byte at an offset. -/
def Memory.read : Memory → Nat → Byte
  | [], _ => Config.unlistedByte
  | (k, b) :: m, a => if a = k then b else Memory.read m a

/-- The memory with one byte written, in canonical form. -/
def Memory.write : Memory → Nat → Byte → Memory
  | [], a, v => if v = Config.unlistedByte then [] else [(a, v)]
  | (k, b) :: m, a, v =>
    if a < k then if v = Config.unlistedByte then (k, b) :: m else (a, v) :: (k, b) :: m
    else if a = k then if v = Config.unlistedByte then m else (a, v) :: m
    else (k, b) :: Memory.write m a v

/-- The bytes from `off` on, `n` of them, in order. -/
def Memory.slice (m : Memory) (off n : Nat) : List Byte := (List.range n).map fun i => m.read (off + i)

/-- The memory with a run of bytes written from `off` on, in order. -/
def Memory.store : Memory → Nat → List Byte → Memory
  | m, _, [] => m
  | m, off, b :: bs => Memory.store (m.write off b) (off + 1) bs

/-- `WordAt(A, o)`: the big-endian word at offset `o` (R62). -/
def Memory.wordAt (m : Memory) (o : Nat) : Word :=
  Word.ofBytes (m.read o) (m.read (o + 1)) (m.read (o + 2)) (m.read (o + 3))

/-- `PutWord(A, o, w)` (R62). -/
def Memory.putWord (m : Memory) (o : Nat) (w : Word) : Memory :=
  m.store o [w.byte 0, w.byte 1, w.byte 2, w.byte 3]

/-! ## Words by number -/

/-- The word at a number. -/
def Words.read (ws : Words) (n : Nat) : Word := ws.getD n Config.unlistedWord

/-- A word put before the others, in canonical form where they are. -/
def Words.cons (w : Word) (ws : Words) : Words := if w = Config.unlistedWord ∧ ws = [] then [] else w :: ws

/-- The same words in canonical form. -/
def Words.trim : Words → Words
  | [] => []
  | w :: ws => Words.cons w (Words.trim ws)

/-- The words with one written, in canonical form. -/
def Words.write : Words → Nat → Word → Words
  | ws, 0, v => Words.cons v (Words.trim ws.tail)
  | ws, n + 1, v => Words.cons (ws.headD Config.unlistedWord) (Words.write ws.tail n v)

/-! ## Registers -/

/-- `R[NAME]` (R13). -/
def Regs.get (rs : Regs) : Reg → Word
  | .data => rs.data
  | .miscReg => rs.miscReg
  | .cmdStatus => rs.cmdStatus
  | .curTk => rs.curTk
  | .bmStatusCtl => rs.bmStatusCtl
  | .errSector => rs.errSector
  | .seqStatusCtl => rs.seqStatusCtl
  | .curSector => rs.curSector
  | .hardReset => rs.hardReset
  | .c1S0 => rs.c1S0
  | .hostSecbyte => rs.hostSecbyte
  | .c1S2 => rs.c1S2
  | .secByte => rs.secByte
  | .c1S4 => rs.c1S4
  | .c1S6 => rs.c1S6
  | .curAddr => rs.curAddr
  | .idReg => rs.idReg
  | .testReg => rs.testReg
  | .testPinSel => rs.testPinSel
  | .other n => rs.others.read n

/-- `R[NAME] <- v` (R13). -/
def Regs.set (rs : Regs) (r : Reg) (v : Word) : Regs :=
  match r with
  | .data => { rs with data := v }
  | .miscReg => { rs with miscReg := v }
  | .cmdStatus => { rs with cmdStatus := v }
  | .curTk => { rs with curTk := v }
  | .bmStatusCtl => { rs with bmStatusCtl := v }
  | .errSector => { rs with errSector := v }
  | .seqStatusCtl => { rs with seqStatusCtl := v }
  | .curSector => { rs with curSector := v }
  | .hardReset => { rs with hardReset := v }
  | .c1S0 => { rs with c1S0 := v }
  | .hostSecbyte => { rs with hostSecbyte := v }
  | .c1S2 => { rs with c1S2 := v }
  | .secByte => { rs with secByte := v }
  | .c1S4 => { rs with c1S4 := v }
  | .c1S6 => { rs with c1S6 := v }
  | .curAddr => { rs with curAddr := v }
  | .idReg => { rs with idReg := v }
  | .testReg => { rs with testReg := v }
  | .testPinSel => { rs with testPinSel := v }
  | .other n => { rs with others := rs.others.write n v }

/-- The stored word of a register. -/
def State.reg (s : State) (r : Reg) : Word := s.regs.get r

/-- The block's internal write of a register; `ReadOnlyRegs` does not restrict it (10_state.md R21). -/
def State.setReg (s : State) (r : Reg) (v : Word) : State := { s with regs := s.regs.set r v }

/-- A status flag: `R[CMD_STATUS].F`. -/
def State.status (s : State) (f : StatusFlag) : Bool := testBit (s.reg .cmdStatus) (f.bit s.params.statusBits)

/-- `set R[CMD_STATUS].F`. -/
def State.setStatus (s : State) (f : StatusFlag) : State :=
  s.setReg .cmdStatus (setBit (s.reg .cmdStatus) (f.bit s.params.statusBits))

/-- `clear R[CMD_STATUS].F`. -/
def State.clearStatus (s : State) (f : StatusFlag) : State :=
  s.setReg .cmdStatus (clearBit (s.reg .cmdStatus) (f.bit s.params.statusBits))

/-- A BM-status flag: `R[BM_STATUS_CTL].F`. -/
def State.bm (s : State) (f : BmFlag) : Bool := testBit (s.reg .bmStatusCtl) (f.bit s.params.bmStatusBits)

/-- `set R[BM_STATUS_CTL].F`. -/
def State.setBm (s : State) (f : BmFlag) : State :=
  s.setReg .bmStatusCtl (setBit (s.reg .bmStatusCtl) (f.bit s.params.bmStatusBits))

/-- `clear R[BM_STATUS_CTL].F`. -/
def State.clearBm (s : State) (f : BmFlag) : State :=
  s.setReg .bmStatusCtl (clearBit (s.reg .bmStatusCtl) (f.bit s.params.bmStatusBits))

/-! ## Session -/

/-- `S.reset_hold <- b`. -/
def State.setResetHold (s : State) (b : Bool) : State := { s with session := { s.session with resetHold := b } }

/-- `S.mode_read <- b`. -/
def State.setModeRead (s : State) (b : Bool) : State := { s with session := { s.session with modeRead := b } }

/-- `S.current_block <- b`. -/
def State.setBlock (s : State) (b : Fin 2) : State := { s with session := { s.session with currentBlock := b } }

/-- `S.zone <- z; S.track_byte_offset <- off`, the two outputs of the resolver. -/
def State.setGeometry (s : State) (z : Fin 16) (off : Word) : State :=
  { s with session := { s.session with zone := z, trackByteOffset := off } }

/-- `S.skip89 <- b`. -/
def State.setSkip89 (s : State) (b : Bool) : State := { s with session := { s.session with skip89 := b } }

/-! ## Events, the interrupt line, faults -/

/-- `Emit(e)` (R13). -/
def State.emit (s : State) (e : Event) : State := { s with trace := s.trace ++ [e] }

/-- `Signal()`: the event, and the line asserted (R275). -/
def State.signalIrq (s : State) : State := { s.emit .signal with irq := true }

/-- `Clear()`: the event, and the line released (R275). -/
def State.clearIrq (s : State) : State := { s.emit .clear with irq := false }

/-- `raise Fatal(f)`: the fault is recorded and the changes made so far stand (R270). -/
def State.raise (s : State) (f : Fault) : State := { s with fault := some f }

/-- The next line of an operation's pseudocode, which runs only if no fault was raised before it: a fault ends the
operation at once (R270). -/
def State.andThen (s : State) (next : State → State) : State :=
  match s.fault with
  | none => next s
  | some _ => s

/-! ## The buffers -/

/-- `n` bytes from `off` on zeroed: zero is what an unlisted byte reads as, so their entries go. -/
def Memory.zeroFill (m : Memory) (off n : Nat) : Memory := m.filter fun c => !(off ≤ c.1 && c.1 < off + n)

/-- The whole ECC buffer zeroed (43_bm_pump.md R226, D17). -/
def State.zeroC2 (s : State) : State := { s with c2 := s.c2.zeroFill 0 s.params.bus.c2Size }

/-! ## The port: the model's own -/

/-- The operation's answer to the host: a word for a read, nothing for a write (R14). -/
def State.reply (s : State) (v : Option Word) : State := { s with port := { s.port with result := v } }

/-- The accesses still pending. -/
def State.setPending (s : State) (as : List Access) : State := { s with port := { s.port with pending := as } }

/-- The host's next access, and the state with it taken off the queue. -/
def State.takeAccess (s : State) : Option (Access × State) :=
  match s.port.pending with
  | [] => none
  | a :: as => some (a, s.setPending as)

/-- The clock record a GET command draws: the next injected one, or a free value where none is injected (R176). -/
def State.clockNow (s : State) : ClockTime :=
  match s.port.clockFeed with
  | c :: _ => c
  | [] => Config.clockDraw s.port.clockDraws

/-- The state after one draw of the clock. -/
def State.clockDrawn (s : State) : State :=
  match s.port.clockFeed with
  | _ :: cs => { s with port := { s.port with clockFeed := cs } }
  | [] => { s with port := { s.port with clockDraws := s.port.clockDraws + 1 } }

/-! ## How an operation begins and ends -/

/-- The outcomes of a step of this machine. -/
abbrev Result := Host.Outcome State Fault Refusal

/-- An operation: no step from a faulted state (R270); otherwise what `body` says. -/
def State.operate (s : State) (body : State → Result) : Result :=
  match s.fault with
  | some f => .fault f
  | none => body s

/-- A write operation that does `body` and returns nothing. -/
def State.writeOp (s : State) (body : State → State) : Result :=
  s.operate fun s => .next ((body s).reply none)

/-- A read operation that returns `v` and changes no state of the controller (20_memory.md R65). -/
def State.readOp (s : State) (v : Word) : Result :=
  s.operate fun s => .next (s.reply (some v))

/-- An operation on the word at `off` of a window of `size` bytes: no step where the offset is misaligned or out of the
window (20_memory.md R64). -/
def State.atOffset (s : State) (size off : Nat) (body : State → Result) : Result :=
  s.operate fun s =>
    match checkOffset size off with
    | .error why => .refused (.noStep why)
    | .ok () => body s

/-- An operation that a well-formed operand is needed for. -/
def State.ifWellFormed (s : State) (ok : Bool) (body : State → Result) : Result :=
  s.operate fun s => if ok then body s else .refused (.noStep .notAnOperation)

end Sys2Proof.Machine
end

