-- ==== Sys2Proof/Machine/Operands.lean ====
section
/-! DEFINITION. The operand forms of 30_encoding.md: the fields of CUR_TK, CUR_SECTOR and the BM-control word (R95, R96,
R97, R99, R109), and the words commands write into DATA (R100, 41_commands.md R175). -/

namespace Sys2Proof.Machine

/-! ## CUR_TK (R95) -/

/-- `head(w) = w[28]`. -/
def headOf (w : Word) : Bool := w.getLsbD 28

/-- `track(w) = w[27:16]`, 0 to 4095. -/
def trackOf (w : Word) : Nat := (w.extractLsb' 16 12).toNat

/-! ## CUR_SECTOR (R99, 40_mmio_dispatch.md R123) -/

/-- The sector number, `w[31:16]`. -/
def sectorNumber (w : Word) : Nat := (w.extractLsb' 16 16).toNat

/-- The block a sector number denotes: 1 from 90 on (R99). -/
def blockOfSector (sec : Nat) : Fin 2 := if sec ≥ Config.block1Base then 1 else 0

/-- The sector within the block: 90 is subtracted once where the number is 90 or more (R99). -/
def inBlockOf (sec : Nat) : Nat := if sec ≥ Config.block1Base then sec - Config.block1Base else sec

/-- `InBlock(w)` (R123). -/
def inBlock (w : Word) : Nat := inBlockOf (sectorNumber w)

/-- `(sector + 90*current_block) << 16`, modulo 2^32 (43_bm_pump.md R230). -/
def sectorWord (sec : Nat) (block : Fin 2) : Word :=
  BitVec.ofNat 32 ((sec + Config.block1Base * block.val) * 2 ^ 16)

/-! ## The BM-control word (R96, R97) -/

/-- The bits of a BM-control word that a rule names. -/
inductive BmCtlBit where
  | start | mngrmode | intmask | reset | disOrChk | disC1Crr | blkTrans | mechaRst
deriving DecidableEq, Repr

/-- The bit of a named bit, as `BmCtlBits` configures it (R96). -/
def BmCtlBit.bit (c : BmCtlBit) (b : BmCtlBits) : Fin 32 :=
  match c with
  | .start => b.start
  | .mngrmode => b.mngrmode
  | .intmask => b.intmask
  | .reset => b.reset
  | .disOrChk => b.disOrChk
  | .disC1Crr => b.disC1Crr
  | .blkTrans => b.blkTrans
  | .mechaRst => b.mechaRst

/-- A named bit of a BM-control word is set (R97). -/
def State.ctlBit (s : State) (word : Word) (c : BmCtlBit) : Bool := testBit word (c.bit s.params.bmCtlBits)

/-- `sector_field(w) = w[23:16]`, 0 to 255. -/
def sectorField (word : Word) : Nat := (word.extractLsb' 16 8).toNat

/-! ## Words commands write into DATA -/

/-- `bcd(v) = (((v / 10) << 4) | (v % 10)) mod 256` (R175). -/
def bcd (v : Nat) : Byte := BitVec.ofNat 8 (((v / 10) <<< 4) ||| (v % 10))

/-- Two BCD bytes in bits 31..24 and 23..16; bits 15..0 are 0 (R100, D23). -/
def bcdPair (hi lo : Nat) : Word := bcd hi ++ bcd lo ++ 0x0000#16

/-- The word a GET command writes into DATA: the month is zero-based, so 1 is added (R170 to R172). -/
def clockWord (kind : ClockKind) (c : ClockTime) : Word :=
  match kind with
  | .yearMonth => bcdPair c.year (c.month + 1)
  | .dayHour => bcdPair c.day c.hour
  | .minSec => bcdPair c.minute c.second

end Sys2Proof.Machine
end

