-- ==== Sys2Proof/Machine/Geometry.lean ====
section
/-! DEFINITION. The disk geometry resolver (42_geometry.md R190 to R202): from the head and track of CUR_TK to a zone and a
byte offset in the disk image. -/

namespace Sys2Proof.Machine

/-- The zone bands, from the highest threshold down: the first track of the band and its base zone (R191). -/
def bands : List (Nat × Fin 8) :=
  [(0x425, 7), (0x390, 6), (0x2FB, 5), (0x266, 4), (0x1D1, 3), (0x13C, 2), (0x9E, 1)]

/-- `Band(track)`: base zone and threshold (R191). -/
def band (track : Nat) : Fin 8 × Nat :=
  match bands.find? (fun b => b.1 ≤ track) with
  | some (threshold, base) => (base, threshold)
  | none => (0, 0)

/-- Sector size in bytes, by zone (R192). -/
def sectorSizes : Vector Nat 16 :=
  #v[232, 216, 208, 192, 176, 160, 144, 128, 216, 208, 192, 176, 160, 144, 128, 112]

/-- Tracks per zone (R193); no rule reads it. -/
def tracksPerZone : Vector Nat 16 :=
  #v[158, 158, 149, 149, 149, 149, 149, 114, 158, 158, 149, 149, 149, 149, 149, 114]

/-- Start offset in the image, by zone (R194). -/
def zoneStarts : Vector Nat 16 :=
  #v[0x0000000, 0x05F15E0, 0x0B79D00, 0x10801A0, 0x1523720, 0x1963D80, 0x1D414C0, 0x20BBCE0,
     0x23196E0, 0x28A1E00, 0x2DF5DC0, 0x3299340, 0x36D99A0, 0x3AB70E0, 0x3E31900, 0x4149200]

/-- `sector_size[z]`. -/
def sectorSize (z : Fin 16) : Nat := sectorSizes[z]

/-- `zone_start[z]`. -/
def zoneStart (z : Fin 16) : Nat := zoneStarts[z]

/-- `zone = base + 8*head` (R195). -/
def zoneOf (base : Fin 8) (head : Bool) : Fin 16 := ⟨base.val + 8 * head.toNat, by cases head <;> simp <;> omega⟩

/-- The zone of a head and a track (R191, R195). -/
def resolveZone (head : Bool) (track : Nat) : Fin 16 := zoneOf (band track).1 head

/-- The bytes of one track of a zone: both blocks of 85 sectors (R197). -/
def trackSize (z : Fin 16) : Nat := sectorSize z * Config.sectorsPerBlock * Config.blocksPerTrack

/-- The byte offset of a track in the image, before it is stored modulo 2^32 (R196, R197). -/
def resolveOffset (head : Bool) (track : Nat) : Nat :=
  let z := resolveZone head track
  zoneStart z + (track - (band track).2) * trackSize z

/-- `ResolveGeometry()`: zone and track byte offset from CUR_TK; no register, flag or event (R198). -/
def resolveGeometry (s : State) : State :=
  let head := headOf (s.reg .curTk)
  let track := trackOf (s.reg .curTk)
  s.setGeometry (resolveZone head track) (BitVec.ofNat 32 (resolveOffset head track))

end Sys2Proof.Machine
end

