-- ==== Sys2Proof/Machine/Pump.lean ====
section
/-! DEFINITION. The buffer-manager pump (43_bm_pump.md R210 to R234): one invocation moves the transfer by one arm. An arm
answers the in-block sector after it and the state; a fault it raises stands in that state, and the epilogue then does
not run (60_exceptions.md R270, R278). -/

namespace Sys2Proof.Machine

/-- `ss`: the sector size of the zone of the last seek. -/
def State.sectorBytes (s : State) : Nat := sectorSize s.session.zone

/-- The image offset of sector slot `k` of the current block: `track_byte_offset + current_block*85*ss + k*ss`, on
unbounded naturals (R202, R218, R224, 00_scope.md R12). -/
def State.slotOffset (s : State) (k : Nat) : Nat :=
  s.session.trackByteOffset.toNat + s.session.currentBlock.val * Config.sectorsPerBlock * s.sectorBytes
    + k * s.sectorBytes

/-- The prologue: the in-block sector, and block 1 forced where the sector number is 90 or more (R212). -/
def pumpPrologue (s : State) : Nat × State :=
  let sec := sectorNumber (s.reg .curSector)
  if sec ≥ Config.block1Base then (sec - Config.block1Base, s.setBlock 1) else (sec, s)

/-! ## Write branch -/

/-- The effect of a commit on the image: none by default; under `WRITE_PERSIST` the payload is stored, or the fault
raised where it reaches past the image (R218, D14, D16). -/
def persistCommit (off : Nat) (payload : List Byte) (s : State) : State :=
  if s.params.writePersist then
    if off + payload.length > s.img.size then s.raise (.diskRange off payload.length)
    else { s with img := { s.img with bytes := s.img.bytes.store off payload } }
  else s

/-- `Commit(k)`, `k` from 1 to 85: the event, then what persists of it (R218). -/
def commitSector (k : Nat) (s : State) : State :=
  let off := s.slotOffset (k - 1)
  let payload := s.ds.slice 0 s.sectorBytes
  persistCommit off payload (s.emit (.commit (BitVec.ofNat 32 off) payload))

/-- Sector 85 with BLOCK set: the other block from its sector 1 (R216). -/
def writeNextBlock (s : State) : State :=
  ((s.setBlock (1 - s.session.currentBlock)).clearBm .block).setStatus .dataRq

/-- The write branch (R214 to R219). -/
def pumpWrite (k : Nat) (s : State) : Nat × State :=
  if k = 0 then (1, s.setStatus .dataRq)
  else if k < Config.sectorsPerBlock then (k + 1, (commitSector k s).andThen (·.setStatus .dataRq))
  else if k = Config.sectorsPerBlock then
    if s.bm .block then (1, (commitSector k s).andThen writeNextBlock)
    else (k + 1, (commitSector k s).andThen (·.clearBm .running))
  else (k, s)

/-! ## Read branch -/

/-- `Copy(k)`, `k` from 0 to 84: image bytes to `DS[0 .. ss-1]`, or the fault (R224, D15, D16). -/
def copySector (k : Nat) (s : State) : State :=
  let off := s.slotOffset k
  if off + s.sectorBytes > s.img.size then s.raise (.diskRange off s.sectorBytes)
  else { s with ds := s.ds.store 0 (s.img.bytes.slice off s.sectorBytes) }

/-- The IPL special case: track 6, block 0, an IPL image present; the head is not tested (R222, D18). -/
def iplSpecial (s : State) : Bool :=
  trackOf (s.reg .curTk) == Config.iplTrack && s.session.currentBlock == 0 && s.ipl.isSome

/-- The one-time step-back from sector 89 to 88 (R221). -/
def stepBack (k : Nat) (s : State) : Nat × State :=
  if !s.session.skip89 && k == 89 then (88, s.setSkip89 true) else (k, s)

/-- Sectors 85 to 88: advance, and on reaching 89 zero the ECC buffer and assert C2_XFER (R225, R226). -/
def readEcc (k : Nat) (s : State) : Nat × State :=
  if k + 1 = 89 then (k + 1, s.zeroC2.setStatus .c2Xfer) else (k + 1, s)

/-- The gap: the other block from its sector 0 where BLOCK is set, otherwise the end of the transfer (R227, R228). -/
def readGap (k : Nat) (s : State) : Nat × State :=
  if s.bm .block then (0, (s.setBlock (1 - s.session.currentBlock)).clearBm .block)
  else (k, s.clearBm .running)

/-- The arms of the read branch, after its entry and the step-back (R222 to R229). -/
def readArms (k : Nat) (s : State) : Nat × State :=
  if iplSpecial s then (k, s)
  else if k < Config.sectorsPerBlock then (k + 1, (copySector k s).andThen (·.setStatus .dataRq))
  else if k < 89 then readEcc k s
  else if k = 89 then readGap k s
  else (k, s)

/-- The read branch (R220 to R229). -/
def pumpRead (k : Nat) (s : State) : Nat × State :=
  let (k, s) := stepBack k ((s.clearStatus .dataRq).clearStatus .c2Xfer)
  readArms k s

/-! ## Epilogue and whole pump -/

/-- The epilogue: the sector register written back, BM_INT, the interrupt (R230). -/
def pumpEpilogue (k : Nat) (s : State) : State :=
  ((s.setReg .curSector (sectorWord k s.session.currentBlock)).setStatus .bmInt).signalIrq

/-- The branch the session's mode selects (R213). -/
def pumpBranch (k : Nat) (s : State) : Nat × State :=
  if s.session.modeRead then pumpRead k s else pumpWrite k s

/-- `Pump()` (R231); it does not test RUNNING (R211). -/
def pump (s : State) : State :=
  let (k, s) := pumpPrologue s
  let (k, s) := pumpBranch k s
  s.andThen (pumpEpilogue k)

end Sys2Proof.Machine
end

