-- ==== Sys2Proof/Machine/BmControl.lean ====
section
/-! DEFINITION. The buffer-manager control register (44_bm_control.md R250 to R259): the seven steps of a write to
BM_STATUS_CTL, and its meaning. The written word is tested bit by bit and never stored (R250). -/

namespace Sys2Proof.Machine

/-- What the trailing edge of RESET resets of the rest of the session: nothing by default, all of it under
`RESET_CLEARS_SESSION` (R252, D26). -/
def resetSession (s : State) : State :=
  if s.params.resetClearsSession then ((s.setModeRead false).setGeometry 0 0#32).setSkip89 false else s

/-- The trailing edge of RESET (R252). -/
def bmTrailingEdge (s : State) : State :=
  let s := (s.setReg .bmStatusCtl 0#32).setReg .curSector 0#32
  let s := (((s.clearStatus .bmInt).clearStatus .bmErr).clearStatus .dataRq).clearStatus .c2Xfer
  resetSession ((s.setBlock 0).setResetHold false)

/-- Steps 1 and 2: record a RESET, or act on its trailing edge (R251, R252). -/
def bmReset (word : Word) (s : State) : State :=
  if s.ctlBit word .reset then s.setResetHold true
  else if s.session.resetHold then bmTrailingEdge s
  else s

/-- Step 3: MECHA_RST (R253). -/
def bmMechaRst (word : Word) (s : State) : State :=
  if s.ctlBit word .mechaRst then s.clearStatus .mechaInt else s

/-- Step 4: BLK_TRANS is written to BLOCK (R254). -/
def bmBlkTrans (word : Word) (s : State) : State :=
  if s.ctlBit word .blkTrans then s.setBm .block else s.clearBm .block

/-- Step 5: the sector field overwrites the sector register, and the block follows from it (R255). -/
def bmSector (word : Word) (s : State) : State :=
  (s.setReg .curSector (BitVec.ofNat 32 (sectorField word * 2 ^ 16))).setBlock (blockOfSector (sectorField word))

/-- Step 6: the defensive line clear, where neither interrupt flag is set (R256). -/
def bmLineClear (s : State) : State :=
  if !s.status .bmInt && !s.status .mechaInt then s.clearIrq else s

/-- Step 7: START (R257). -/
def bmStart (word : Word) (s : State) : State :=
  if s.ctlBit word .start then pump ((s.setBm .running).setSkip89 false) else s

/-- Steps 1 to 6. -/
def bmPrepare (word : Word) (s : State) : State :=
  bmLineClear (bmSector word (bmBlkTrans word (bmMechaRst word (bmReset word s))))

/-- `BmControl(word)` (R259). -/
def bmControl (word : Word) (s : State) : State := bmStart word (bmPrepare word s)

/-- BMCTL_WRITE (R259, 40_mmio_dispatch.md R128). -/
def execBmctlWrite (word : Word) (s : State) : Result := s.writeOp (bmControl word)

end Sys2Proof.Machine
end

