-- ==== Sys2Proof/Machine/Commands.lean ====
section
/-! DEFINITION. The command processor (41_commands.md R150 to R178): the arm of each opcode, and the epilogue every command
ends with. The written word is never stored (R178). -/

namespace Sys2Proof.Machine

/-- The command epilogue: MECHA_INT and exactly one interrupt signal (R151). -/
def commandEpilogue (s : State) : State := (s.setStatus .mechaInt).signalIrq

/-- A command: the opcode's arm, then the epilogue (R150). -/
def State.command (s : State) (arm : State → State) : Result := s.writeOp fun s => commandEpilogue (arm s)

/-- A seek: CUR_TK from DATA, motor and head flags cleared, the mode, the geometry (R153, R154). -/
def seekArm (modeRead : Bool) (s : State) : State :=
  let s := s.setReg .curTk (s.reg .data ||| Config.seekOr)
  resolveGeometry (((s.clearStatus .mtrNSpin).clearStatus .headRtrct).setModeRead modeRead)

/-- A GET command: a clock draw, its event, the two BCD bytes in DATA (R170 to R172, R176). -/
def getTimeArm (kind : ClockKind) (s : State) : State :=
  (s.clockDrawn.emit (.clockRead kind)).setReg .data (clockWord kind s.clockNow)

/-- NOOP (R152). -/
def execNoop (s : State) : Result := s.command id

/-- SEEK_READ (R153). -/
def execSeekRead (s : State) : Result := s.command (seekArm true)

/-- SEEK_WRITE (R154). -/
def execSeekWrite (s : State) : Result := s.command (seekArm false)

/-- RECALIBRATE: DATA is zeroed (R155). -/
def execRecalibrate (s : State) : Result := s.command fun s => s.setReg .data 0#32

/-- SLEEP: motor stopped, head retracted (R156). -/
def execSleep (s : State) : Result := s.command fun s => (s.setStatus .mtrNSpin).setStatus .headRtrct

/-- START: motor running, head loaded (R157). -/
def execStart (s : State) : Result := s.command fun s => (s.clearStatus .mtrNSpin).clearStatus .headRtrct

/-- SET_STANDBY: recognized but unimplemented (R158). -/
def execSetStandby (s : State) : Result := s.command id

/-- SET_SLEEP: recognized but unimplemented (R159). -/
def execSetSleep (s : State) : Result := s.command id

/-- CLR_DSK_CHNG (R160). -/
def execClrDskChng (s : State) : Result := s.command fun s => s.clearStatus .diskChng

/-- CLR_RESET (R161). -/
def execClrReset (s : State) : Result := s.command fun s => s.clearStatus .rstState

/-- READ_VERSION: recognized but unimplemented (R162). -/
def execReadVersion (s : State) : Result := s.command id

/-- SET_DISK_TYPE: recognized but unimplemented (R163). -/
def execSetDiskType (s : State) : Result := s.command id

/-- REQUEST_STATUS: recognized but unimplemented (R164). -/
def execRequestStatus (s : State) : Result := s.command id

/-- STANDBY: head retracted, motor running (R165). -/
def execStandby (s : State) : Result := s.command fun s => (s.setStatus .headRtrct).clearStatus .mtrNSpin

/-- IDX_LOCK_RETRY: a bit group of CUR_TK set (R166). -/
def execIdxLockRetry (s : State) : Result :=
  s.command fun s => s.setReg .curTk (s.reg .curTk ||| s.params.idxLockBits)

/-- SET_YEAR_MONTH: recognized but unimplemented (R167). -/
def execSetYearMonth (s : State) : Result := s.command id

/-- SET_DAY_HOUR: recognized but unimplemented (R168). -/
def execSetDayHour (s : State) : Result := s.command id

/-- SET_MIN_SEC: recognized but unimplemented (R169). -/
def execSetMinSec (s : State) : Result := s.command id

/-- GET_YEAR_MONTH (R170). -/
def execGetYearMonth (s : State) : Result := s.command (getTimeArm .yearMonth)

/-- GET_DAY_HOUR (R171). -/
def execGetDayHour (s : State) : Result := s.command (getTimeArm .dayHour)

/-- GET_MIN_SEC (R172). -/
def execGetMinSec (s : State) : Result := s.command (getTimeArm .minSec)

/-- FEATURE_INQ (R173). -/
def execFeatureInq (s : State) : Result := s.command fun s => s.setReg .data Config.featureWord

/-- An opcode of no row: not an error, the epilogue only (R174). The opcode itself has no effect. -/
def execCmdUnrecognized (op : Half) (s : State) : Result :=
  s.ifWellFormed ((Instr.cmdUnrecognized op).wellFormed s.params) fun s => s.command id

end Sys2Proof.Machine
end

