-- ==== Sys2Proof/Machine/Registers.lean ====
section
/-! DEFINITION. The register window (40_mmio_dispatch.md R121 to R130): register reads, the status read and its side
effect, generic and ignored writes, and the hard-reset register. The optional access tracer has no effect and is left
out (R131). -/

namespace Sys2Proof.Machine

/-- REG_READ: the stored word, no side effect (R121). -/
def execRegRead (r : Reg) (s : State) : Result :=
  s.ifWellFormed (Instr.regRead r |>.wellFormed s.params) fun s => s.readOp (s.reg r)

/-- `StatusReadSideEffect()`: with BM_INT set and an in-block sector above 85, clear the flag and the line and pump
(R122). -/
def statusReadSideEffect (s : State) : State :=
  if s.status .bmInt && decide (inBlock (s.reg .curSector) > Config.sectorsPerBlock) then
    pump (s.clearStatus .bmInt).clearIrq
  else s

/-- STATUS_READ: the word as it stood before the side effect (R122, R124). -/
def execStatusRead (s : State) : Result :=
  s.operate fun s => .next ((statusReadSideEffect s).reply (some (s.reg .cmdStatus)))

/-- REG_WRITE: the generic masked write (R130). -/
def execRegWrite (r : Reg) (word mask : Word) (s : State) : Result :=
  s.ifWellFormed (Instr.regWrite r word mask |>.wellFormed s.params) fun s =>
    s.writeOp fun s => s.setReg r ((s.reg r).masked word mask)

/-- REG_WRITE_RO: a read-only register ignores the write (R126). -/
def execRegWriteRo (r : Reg) (word mask : Word) (s : State) : Result :=
  s.ifWellFormed (Instr.regWriteRo r word mask |>.wellFormed s.params) fun s => s.writeOp id

/-- HARD_RESET_WRITE: the magic word is accepted without effect, any other word is fatal (R129, D25). -/
def execHardResetWrite (word : Word) (s : State) : Result :=
  s.writeOp fun s => if word = s.params.hardResetMagic then s else s.raise (.hardResetWord word)

end Sys2Proof.Machine
end

