-- ==== Sys2Proof/Machine/Windows.lean ====
section
/-! DEFINITION. The byte windows and the IPL-ROM window (40_mmio_dispatch.md R132 to R135). -/

namespace Sys2Proof.Machine

/-- `BufWrite` on one buffer: the masked-write rule on its big-endian word (R133). -/
def Memory.putMasked (m : Memory) (off : Nat) (word mask : Word) : Memory :=
  m.putWord off ((m.wordAt off).masked word mask)

/-- C2_READ (R132). -/
def execC2Read (off : Nat) (s : State) : Result :=
  s.atOffset s.params.bus.c2Size off fun s => s.readOp (s.c2.wordAt off)

/-- C2_WRITE (R133). -/
def execC2Write (off : Nat) (word mask : Word) (s : State) : Result :=
  s.atOffset s.params.bus.c2Size off fun s => s.writeOp fun s => { s with c2 := s.c2.putMasked off word mask }

/-- DS_READ (R132). -/
def execDsRead (off : Nat) (s : State) : Result :=
  s.atOffset s.params.bus.dsSize off fun s => s.readOp (s.ds.wordAt off)

/-- DS_WRITE (R133). -/
def execDsWrite (off : Nat) (word mask : Word) (s : State) : Result :=
  s.atOffset s.params.bus.dsSize off fun s => s.writeOp fun s => { s with ds := s.ds.putMasked off word mask }

/-- MS_READ (R132). -/
def execMsRead (off : Nat) (s : State) : Result :=
  s.atOffset s.params.bus.msSize off fun s => s.readOp (s.ms.wordAt off)

/-- MS_WRITE (R133). -/
def execMsWrite (off : Nat) (word mask : Word) (s : State) : Result :=
  s.atOffset s.params.bus.msSize off fun s => s.writeOp fun s => { s with ms := s.ms.putMasked off word mask }

/-- IPL_READ: zero where no image is present; no step at or past the end of a present one (R134). -/
def execIplRead (off : Nat) (s : State) : Result :=
  s.atOffset s.params.bus.iplSize off fun s =>
    match s.ipl with
    | none => s.readOp 0#32
    | some rom =>
      if off + 4 > rom.size then .refused (.noStep .beyondIpl) else s.readOp (rom.bytes.wordAt off)

/-- IPL_WRITE: ignored (R135). -/
def execIplWrite (off : Nat) (_word _mask : Word) (s : State) : Result :=
  s.atOffset s.params.bus.iplSize off fun s => s.writeOp id

end Sys2Proof.Machine
end

