-- ==== Sys2Proof/Machine/Dispatch.lean ====
section
/-! DEFINITION. The dispatch: one arm for each operation, a direct call of its meaning (40_mmio_dispatch.md R120, R125,
41_commands.md R150). -/

namespace Sys2Proof.Machine

/-- What an operation does to a state. -/
def exec (i : Instr) (s : State) : Host.Outcome State Fault Refusal :=
  match i with
  | .noop => Sys2Proof.Machine.execNoop s
  | .seekRead => Sys2Proof.Machine.execSeekRead s
  | .seekWrite => Sys2Proof.Machine.execSeekWrite s
  | .recalibrate => Sys2Proof.Machine.execRecalibrate s
  | .sleep => Sys2Proof.Machine.execSleep s
  | .start => Sys2Proof.Machine.execStart s
  | .setStandby => Sys2Proof.Machine.execSetStandby s
  | .setSleep => Sys2Proof.Machine.execSetSleep s
  | .clrDskChng => Sys2Proof.Machine.execClrDskChng s
  | .clrReset => Sys2Proof.Machine.execClrReset s
  | .readVersion => Sys2Proof.Machine.execReadVersion s
  | .setDiskType => Sys2Proof.Machine.execSetDiskType s
  | .requestStatus => Sys2Proof.Machine.execRequestStatus s
  | .standby => Sys2Proof.Machine.execStandby s
  | .idxLockRetry => Sys2Proof.Machine.execIdxLockRetry s
  | .setYearMonth => Sys2Proof.Machine.execSetYearMonth s
  | .setDayHour => Sys2Proof.Machine.execSetDayHour s
  | .setMinSec => Sys2Proof.Machine.execSetMinSec s
  | .getYearMonth => Sys2Proof.Machine.execGetYearMonth s
  | .getDayHour => Sys2Proof.Machine.execGetDayHour s
  | .getMinSec => Sys2Proof.Machine.execGetMinSec s
  | .featureInq => Sys2Proof.Machine.execFeatureInq s
  | .cmdUnrecognized op => Sys2Proof.Machine.execCmdUnrecognized op s
  | .regRead r => Sys2Proof.Machine.execRegRead r s
  | .statusRead => Sys2Proof.Machine.execStatusRead s
  | .regWrite r word mask => Sys2Proof.Machine.execRegWrite r word mask s
  | .regWriteRo r word mask => Sys2Proof.Machine.execRegWriteRo r word mask s
  | .bmctlWrite word => Sys2Proof.Machine.execBmctlWrite word s
  | .hardResetWrite word => Sys2Proof.Machine.execHardResetWrite word s
  | .c2Read off => Sys2Proof.Machine.execC2Read off s
  | .c2Write off word mask => Sys2Proof.Machine.execC2Write off word mask s
  | .dsRead off => Sys2Proof.Machine.execDsRead off s
  | .dsWrite off word mask => Sys2Proof.Machine.execDsWrite off word mask s
  | .msRead off => Sys2Proof.Machine.execMsRead off s
  | .msWrite off word mask => Sys2Proof.Machine.execMsWrite off word mask s
  | .iplRead off => Sys2Proof.Machine.execIplRead off s
  | .iplWrite off word mask => Sys2Proof.Machine.execIplWrite off word mask s

end Sys2Proof.Machine
end

