-- ==== Sys2Proof/Machine/Step.lean ====
section
/-! DEFINITION. One step of the machine: the host's next access is decoded and its operation performed. The block has no
program counter and fetches nothing (10_state.md R22): the host's accesses, in the order it makes them, are the program
(20_memory.md R70). -/

namespace Sys2Proof.Machine

/-- One step: none from a faulted state (60_exceptions.md R270); with no access pending the block stays as it is, since
nothing runs between two operations (00_scope.md R14; DESIGN CHOICE, log entry 10); otherwise the next access is taken,
decoded and performed, and an access that decodes to no operation has no step (20_memory.md R64). -/
def step (s : State) : Host.Outcome State Fault Refusal :=
  match s.fault with
  | some f => .fault f
  | none =>
    match s.takeAccess with
    | none => .next s
    | some (a, t) =>
      match decode s.params a with
      | .error why => .refused (.noStep why)
      | .ok i => exec i t

/-- `s` with the access of a number of the opcode table as the host's next one. -/
def State.withFetchWord (s : State) (nbits w : Nat) : State :=
  s.setPending (tableAccess s.params.bus nbits w :: s.port.pending)

end Sys2Proof.Machine
end

