-- ==== Sys2Proof/Safety.lean ====
section
/-! DEFINITION. What a safe state and a safe run are, in the terms claims use: the invariant of the controller, the duties
of the host (70_reset_and_hazards.md R306, R307), and a run that ends clean (60_exceptions.md R270). -/

namespace Sys2Proof.Safety

open Sys2Proof.Machine

/-- Every buffer and image is in canonical form and lists no byte outside its size. -/
abbrev MemoriesOk (s : State) : Prop :=
  (s.c2.wf ∧ s.c2.within s.params.bus.c2Size) ∧ (s.ds.wf ∧ s.ds.within s.params.bus.dsSize) ∧
    (s.ms.wf ∧ s.ms.within s.params.bus.msSize) ∧ (s.img.bytes.wf ∧ s.img.bytes.within s.img.size) ∧
    ∀ rom ∈ s.ipl, rom.bytes.wf ∧ rom.bytes.within rom.size

/-- The further registers of a configured map are in canonical form (10_state.md R20). -/
abbrev RegsOk (s : State) : Prop := s.regs.others.wf

/-- `current_block` and the sector register agree (10_state.md R36). -/
abbrev BlockAgrees (s : State) : Prop :=
  s.session.currentBlock = blockOfSector (sectorNumber (s.reg .curSector))

/-- The sector register holds an 8-bit sector number in bits 23..16 and nothing else (30_encoding.md R99,
70_reset_and_hazards.md R310). -/
abbrev SectorWordOk (s : State) : Prop := s.reg .curSector &&& 0xFF00FFFF#32 = 0#32

/-- The flags of the status register that construction or some rule sets (10_state.md R23). -/
def settable (b : StatusBits) : List (Fin 32) :=
  [b.dataRq, b.c2Xfer, b.bmInt, b.mechaInt, b.diskPres, b.mtrNSpin, b.headRtrct]

/-- Every bit of the status register but those flags is clear: the flags no rule sets (RST_STATE, DISK_CHNG and BM_ERR among
them) and the unnamed bits (10_state.md R23, R24). -/
abbrev NeverSetClear (s : State) : Prop :=
  s.reg .cmdStatus &&& ~~~bitMask (settable s.params.statusBits) = 0#32

/-- DISK_PRES says whether the image is non-empty (R23, R44). -/
abbrev DiskPresOk (s : State) : Prop := s.status .diskPres = decide (0 < s.img.size)

/-- The ID register holds the word its construction chose (R29, R44). -/
abbrev IdOk (s : State) : Prop :=
  s.reg .idReg = if s.ipl.isSome then s.params.idWithIpl else s.params.idWithoutIpl

/-- The invariant of the controller, under well-formed parameters. That the block and the sector register agree is asserted
only where the host cannot write CUR_SECTOR (R36), and that the ID register keeps its word only where the host cannot
write it (30_encoding.md R92). -/
abbrev Inv (s : State) : Prop :=
  s.params.wf ∧ MemoriesOk s ∧ RegsOk s ∧ (.curSector ∈ s.params.bus.readOnlyRegs → BlockAgrees s ∧ SectorWordOk s) ∧
    NeverSetClear s ∧ DiskPresOk s ∧ (.idReg ∈ s.params.bus.readOnlyRegs → IdOk s)

/-- A construction with well-formed parameters whose power-on contents, images and further registers are canonical and whose
sector register, unspecified by the source (D27), is in the range the controller itself keeps. -/
abbrev ConstructionOk (c : Construction) : Prop :=
  c.params.wf ∧
  (c.initC2.wf ∧ c.initC2.within c.params.bus.c2Size) ∧ (c.initDs.wf ∧ c.initDs.within c.params.bus.dsSize) ∧
    (c.initMs.wf ∧ c.initMs.within c.params.bus.msSize) ∧ (c.img.bytes.wf ∧ c.img.bytes.within c.img.size) ∧
    (∀ rom ∈ c.ipl, rom.bytes.wf ∧ rom.bytes.within rom.size) ∧ c.initRegs.others.wf ∧
    c.initRegs.curSector &&& 0xFF00FFFF#32 = 0#32 ∧ sectorNumber c.initRegs.curSector < Config.block1Base

/-- The host keeps its duties in a state: the access has a step, and a hard-reset write carries the magic word
(R306, R307). -/
def honours (s : State) (a : Access) : Bool :=
  match decode s.params a with
  | .error _ => false
  | .ok (.hardResetWrite word) => word == s.params.hardResetMagic
  | .ok (.iplRead off) => match s.ipl with
    | none => true
    | some rom => off + 4 ≤ rom.size
  | .ok _ => true

/-- The state is not the sticky fatal state: the run may go on (60_exceptions.md R270). -/
abbrev Clean (s : State) : Prop := s.fault = none

/-- `n` steps from `s` end, and end clean. -/
abbrev RunsClean (n : Nat) (s : State) : Prop := ∃ t, Sys2Proof.core.run n s = .next t ∧ Clean t

end Sys2Proof.Safety
end

