-- ==== Sys2Proof/Certificates/Slice0/Obligations.lean ====
section
/-! DEFINITION. The statements for the provers. They hold of every configuration of the parameters of 00_scope.md R7: a
flag is written as the mask of the bit that the state's own parameters give it, and what a statement asks of the
parameters (well formed, or at their defaults) stands in it as a premise. The defaults themselves are the subject of
`DefaultParametersAreTheSpecs`. A next state is written out whole, as the state before with the fields the rule writes,
so that each such statement is also the frame of its operation. -/

namespace Sys2Proof.Spec

open Sys2Proof.Machine

/-- The state a command leaves: the word `st` in CMD_STATUS with MECHA_INT set, the events `evs` and then exactly one
`Signal`, the line asserted, nothing returned (41_commands.md R151). -/
def commanded (s : State) (st : Word) (evs : List Event) : State :=
  { s with
    regs := s.regs.set .cmdStatus (st ||| bitMask [s.params.statusBits.mechaInt])
    irq := true
    trace := s.trace ++ evs ++ [.signal]
    port := { s.port with result := none } }

/-- A state with only the host's answer changed (00_scope.md R14). -/
def answered (s : State) (v : Option Word) : State := { s with port := { s.port with result := v } }

/-- The pump finds in-block sector `k` of block `b` (43_bm_pump.md R212): 90 is subtracted once from a sector number of
90 or more, which forces block 1. -/
abbrev At (s : State) (k : Nat) (b : Fin 2) : Prop :=
  if 90 ≤ (s.reg .curSector >>> 16).toNat then k = (s.reg .curSector >>> 16).toNat - 90 ∧ b = 1
  else k = (s.reg .curSector >>> 16).toNat ∧ b = s.session.currentBlock

/-- The state a pump leaves: in-block sector `k` of block `b`, the words `st` (with BM_INT set) and `bm` in the two status
registers, the events `evs` and then exactly one `Signal`, the line asserted (43_bm_pump.md R230). -/
def pumped (s : State) (k : Nat) (b : Fin 2) (st bm : Word) (evs : List Event) : State :=
  { s with
    regs := ((s.regs.set .curSector (BitVec.ofNat 32 ((k + 90 * b.val) * 65536))).set .cmdStatus
      (st ||| bitMask [s.params.statusBits.bmInt])).set .bmStatusCtl bm
    session := { s.session with currentBlock := b }
    irq := true
    trace := s.trace ++ evs ++ [.signal] }

/-- The image offset of sector slot `j` of block `b`, with the zone and track offset of the last seek
(42_geometry.md R202). -/
def slot (s : State) (b : Fin 2) (j : Nat) : Nat :=
  s.session.trackByteOffset.toNat + b.val * 85 * sectorSize s.session.zone + j * sectorSize s.session.zone

/-- The first `ss` bytes of the host buffer (43_bm_pump.md R218). -/
def payload (s : State) : List Byte := (List.range (sectorSize s.session.zone)).map fun i => s.ds.read i

/-- The commit event of slot `j` of block `b`. -/
def commitEvent (s : State) (b : Fin 2) (j : Nat) : Event := .commit (BitVec.ofNat 32 (slot s b j)) (payload s)

/-- The state before the read branch's arms in which the IPL special case holds: track 6, block 0, an IPL image
(43_bm_pump.md R222). -/
abbrev IplCase (s : State) (b : Fin 2) : Prop :=
  ((s.reg .curTk >>> 16) &&& 0xFFF#32) = 6#32 ∧ b = 0 ∧ s.ipl.isSome = true

/-- Steps 1 to 6 of a BM-control write in closed form (44_bm_control.md R251 to R256). -/
def bmPrepared (w : Word) (s : State) : State :=
  let b := s.params.statusBits
  let c := s.params.bmCtlBits
  let block := bitMask [s.params.bmStatusBits.block]
  let reset := w.getLsbD c.reset
  let edge := !reset && s.session.resetHold
  let st1 := if edge then s.reg .cmdStatus &&& ~~~bitMask [b.bmInt, b.bmErr, b.dataRq, b.c2Xfer] else s.reg .cmdStatus
  let st := if w.getLsbD c.mechaRst then st1 &&& ~~~bitMask [b.mechaInt] else st1
  let bm1 := if edge then 0#32 else s.reg .bmStatusCtl
  let bm := if w.getLsbD c.blkTrans then bm1 ||| block else bm1 &&& ~~~block
  let quiet := st &&& bitMask [b.bmInt, b.mechaInt] == 0#32
  let wipe := edge && s.params.resetClearsSession
  { s with
    regs := ((s.regs.set .curSector (w &&& 0x00FF0000#32)).set .bmStatusCtl bm).set .cmdStatus st
    session :=
      { resetHold := reset
        modeRead := if wipe then false else s.session.modeRead
        currentBlock := if 90 ≤ ((w >>> 16) &&& 0xFF#32).toNat then 1 else 0
        zone := if wipe then 0 else s.session.zone
        trackByteOffset := if wipe then 0#32 else s.session.trackByteOffset
        skip89 := if wipe then false else s.session.skip89 }
    irq := if quiet then false else s.irq
    trace := if quiet then s.trace ++ [.clear] else s.trace }

/-- Step 7 before the pump: RUNNING set, the skip flag cleared (44_bm_control.md R257). -/
def started (s : State) : State :=
  { s with
    regs := s.regs.set .bmStatusCtl (s.reg .bmStatusCtl ||| bitMask [s.params.bmStatusBits.running])
    session := { s.session with skip89 := false } }

/-- The band table of 42_geometry.md R191: base zone and threshold. -/
def bandOf (track : Nat) : Nat × Nat :=
  if track ≥ 1061 then (7, 1061) else if track ≥ 912 then (6, 912) else if track ≥ 763 then (5, 763)
  else if track ≥ 614 then (4, 614) else if track ≥ 465 then (3, 465) else if track ≥ 316 then (2, 316)
  else if track ≥ 158 then (1, 158) else (0, 0)

/-- The operations that are commands (30_encoding.md R101, R102). -/
def isCommand : Instr → Bool
  | .noop | .seekRead | .seekWrite | .recalibrate | .sleep | .start | .setStandby | .setSleep | .clrDskChng
  | .clrReset | .readVersion | .setDiskType | .requestStatus | .standby | .idxLockRetry | .setYearMonth
  | .setDayHour | .setMinSec | .getYearMonth | .getDayHour | .getMinSec | .featureInq => true
  | .cmdUnrecognized _ => true
  | _ => false

/-- The opcode table of R101: the number of each command, as `Opcodes` configures it. -/
def opcodeRows (o : Opcodes) : List (Half × Instr) :=
  [(o.noop, .noop), (o.seekRead, .seekRead), (o.seekWrite, .seekWrite), (o.recalibrate, .recalibrate), (o.sleep, .sleep),
    (o.start, .start), (o.setStandby, .setStandby), (o.setSleep, .setSleep), (o.clrDskChng, .clrDskChng),
    (o.clrReset, .clrReset), (o.readVersion, .readVersion)] ++
  [(o.setDiskType, .setDiskType), (o.requestStatus, .requestStatus), (o.standby, .standby),
    (o.idxLockRetry, .idxLockRetry), (o.setYearMonth, .setYearMonth), (o.setDayHour, .setDayHour),
    (o.setMinSec, .setMinSec), (o.getYearMonth, .getYearMonth), (o.getDayHour, .getDayHour),
    (o.getMinSec, .getMinSec), (0x001B#16, .featureInq)]

/-- The motor and head flags of a state's parameters. -/
def powerMask (s : State) : Word := bitMask [s.params.statusBits.mtrNSpin, s.params.statusBits.headRtrct]

/-- A state with the motor and head flags cleared. -/
def forgetPower (s : State) : State :=
  { s with regs := s.regs.set .cmdStatus (s.reg .cmdStatus &&& ~~~powerMask s) }

end Sys2Proof.Spec

open Sys2Proof Sys2Proof.Machine Sys2Proof.Safety Sys2Proof.Spec

/-! ## Encoding -/

/-- The default of every parameter the source does not fix, as the tables of R7, R61, R90, R92, R93, R96, R98, R101 and R104
give it (values from general knowledge: log entry 1), and that the defaults meet what the spec asks of any configuration,
whatever the two OPEN ID words are (log entry 5). -/
def Obligations.DefaultParametersAreTheSpecs : Prop :=
  Params.default.bus =
    { c2Base := 0x05000000, c2Size := 0x400, dsBase := 0x05000400, dsSize := 0x100, regBase := 0x05000500, numRegs := 19,
      msBase := 0x05000580, msSize := 0x40, iplBase := 0x06000000, iplSize := 0x400000,
      regMap := [.data, .miscReg, .cmdStatus, .curTk, .bmStatusCtl, .errSector, .seqStatusCtl, .curSector, .hardReset,
        .c1S0, .hostSecbyte, .c1S2, .secByte, .c1S4, .c1S6, .curAddr, .idReg, .testReg, .testPinSel],
      readOnlyRegs := [.curTk, .errSector, .curSector, .c1S0, .c1S2, .c1S4, .c1S6, .curAddr, .idReg] } ∧
  Params.default.statusBits =
    { dataRq := 30, c2Xfer := 28, bmErr := 27, bmInt := 26, mechaInt := 25, diskPres := 24, busyState := 23,
      rstState := 22, mtrNSpin := 20, headRtrct := 19, wrPrErr := 18, mechaErr := 17, diskChng := 16 } ∧
  Params.default.bmCtlBits =
    { start := 31, mngrmode := 30, intmask := 29, reset := 28, disOrChk := 27, disC1Crr := 26, blkTrans := 25,
      mechaRst := 24 } ∧
  Params.default.bmStatusBits =
    { running := 31, block := 24, error := 26, micro := 25, c1Crr := 23, c1Dbl := 22, c1Sng := 21, c1Err := 16 } ∧
  (opcodeRows Params.default.opcodes).map (fun e => e.1.toNat) = List.range 21 ++ [0x1B] ∧
  Params.default.hardResetMagic = 0xAAAA0000#32 ∧ Params.default.idxLockBits = 0x60000000#32 ∧
  Params.default.writePersist = false ∧ Params.default.resetClearsSession = false ∧ Params.default.wf

/-- Words of the spec's tables decode to their operations, under the default map and opcodes (R90, R96, R101). -/
def Obligations.TableWordsDecode : Prop :=
  ∀ p : Params, p.bus = BusMap.default → p.opcodes = Opcodes.default →
    decode p (.write 0x05000508#32 0x001B0000#32 0xFFFFFFFF#32) = .ok .featureInq ∧
    decode p (.write 0x05000508#32 0x00010000#32 0xFFFFFFFF#32) = .ok .seekRead ∧
    decode p (.write 0x05000508#32 0xFFFF0000#32 0xFFFFFFFF#32) = .ok (.cmdUnrecognized 0xFFFF#16) ∧
    decode p (.read 0x05000508#32) = .ok .statusRead ∧
    decode p (.read 0x05000500#32) = .ok (.regRead .data) ∧
    decode p (.write 0x0500050C#32 0xFFFFFFFF#32 0xFFFFFFFF#32) = .ok (.regWriteRo .curTk 0xFFFFFFFF#32 0xFFFFFFFF#32) ∧
    decode p (.write 0x05000510#32 0x80000000#32 0xFFFFFFFF#32) = .ok (.bmctlWrite 0x80000000#32) ∧
    decode p (.write 0x05000520#32 0xAAAA0000#32 0xFFFFFFFF#32) = .ok (.hardResetWrite 0xAAAA0000#32) ∧
    decode p (.read 0x05000404#32) = .ok (.dsRead 4) ∧
    decode p (.read 0x06000100#32) = .ok (.iplRead 0x100)

/-- Under every well-formed bus map and injective opcode map, every well-formed operation is what its encoding decodes
to. -/
def Obligations.DecodeOfEncode : Prop :=
  ∀ (p : Params) (i : Instr), p.bus.wf → p.opcodes.wf → i.wellFormed p = true → decode p (encode p i) = .ok i

/-- Whatever decodes is well formed, and its encoding is the access with the bits no rule reads at their canonical
values: so no other bit of an access is dropped. -/
def Obligations.EncodeOfDecode : Prop :=
  ∀ (p : Params) (a : Access) (i : Instr), p.bus.wf → p.opcodes.wf → decode p a = .ok i →
    i.wellFormed p = true ∧ encode p i = a.canonical p.bus

/-- Every word written to CMD_STATUS decodes, by its bits 31..16 alone: to the row of R101 that they match exactly, otherwise
to the unrecognized command; bits 15..0 and the mask have no effect. Under the default opcodes the rows are the numbers 0
to 0x14 and 0x1B (R94, R101, R102). -/
def Obligations.EveryCommandWordDecodes : Prop :=
  ∀ (p : Params) (n : Nat) (w m w' m' : Word), p.bus.wf → p.opcodes.wf → p.bus.regMap[n]? = some .cmdStatus →
    let cmd := fun (w m : Word) => decode p (.write (BitVec.ofNat 32 (p.bus.regBase + 4 * n)) w m)
    (∀ e ∈ opcodeRows p.opcodes, w.extractLsb' 16 16 = e.1 → cmd w m = .ok e.2) ∧
    ((∀ e ∈ opcodeRows p.opcodes, w.extractLsb' 16 16 ≠ e.1) →
      cmd w m = .ok (.cmdUnrecognized (w.extractLsb' 16 16))) ∧
    (w >>> 16 = w' >>> 16 → cmd w m = cmd w' m') ∧
    (p.opcodes = Opcodes.default →
      (∀ (k : Nat) (i : Instr), ([.noop, .seekRead, .seekWrite, .recalibrate, .sleep, .start, .setStandby, .setSleep,
          .clrDskChng, .clrReset, .readVersion, .setDiskType, .requestStatus, .standby, .idxLockRetry, .setYearMonth,
          .setDayHour, .setMinSec, .getYearMonth, .getDayHour, .getMinSec] : List Instr)[k]? = some i →
        (w >>> 16).toNat = k → cmd w m = .ok i) ∧
      ((w >>> 16).toNat = 0x1B → cmd w m = .ok .featureInq) ∧
      ((0x15 ≤ (w >>> 16).toNat ∧ (w >>> 16).toNat ≤ 0x1A) ∨ 0x1C ≤ (w >>> 16).toNat →
        cmd w m = .ok (.cmdUnrecognized (w.extractLsb' 16 16))))

/-- The default register map, the 19 names of R90 in its order: a register-window address selects the name at `o >> 2`; the
status register's read and the writes of CMD_STATUS, BM_STATUS_CTL, HARD_RESET and the read-only registers are operations
of their own (R91, R92, R125). -/
def Obligations.RegisterAddressSelectsRegister : Prop :=
  ∀ (p : Params) (k : Nat) (r : Reg) (word mask : Word), p.bus = BusMap.default →
    ([.data, .miscReg, .cmdStatus, .curTk, .bmStatusCtl, .errSector, .seqStatusCtl, .curSector, .hardReset, .c1S0,
      .hostSecbyte, .c1S2, .secByte, .c1S4, .c1S6, .curAddr, .idReg, .testReg, .testPinSel] : List Reg)[k]? = some r →
    decode p (.read (BitVec.ofNat 32 (0x05000500 + 4 * k))) = .ok (if k = 2 then .statusRead else .regRead r) ∧
    decode p (.write (BitVec.ofNat 32 (0x05000500 + 4 * k)) word mask) =
      .ok (if k ∈ [3, 5, 7, 9, 11, 13, 14, 15, 16] then .regWriteRo r word mask
        else if k = 2 then decodeCommand p.opcodes (word.extractLsb' 16 16)
        else if k = 4 then .bmctlWrite word
        else if k = 8 then .hardResetWrite word
        else .regWrite r word mask)

/-- Under every well-formed bus map, whatever its count and names, the address `REG_BASE + 4*k` selects `RegMap[k]`, and the
register decides the arm: the
read-only set first, then the three registers with write behaviour of their own (R91, R125). -/
def Obligations.ConfiguredRegisterMapDecodes : Prop :=
  ∀ (p : Params) (k : Nat) (r : Reg) (word mask : Word), p.bus.wf → p.bus.regMap[k]? = some r →
    decode p (.read (BitVec.ofNat 32 (p.bus.regBase + 4 * k))) =
      .ok (if r = .cmdStatus then .statusRead else .regRead r) ∧
    decode p (.write (BitVec.ofNat 32 (p.bus.regBase + 4 * k)) word mask) =
      .ok (if r ∈ p.bus.readOnlyRegs then .regWriteRo r word mask
        else if r = .cmdStatus then decodeCommand p.opcodes (word.extractLsb' 16 16)
        else if r = .bmStatusCtl then .bmctlWrite word
        else if r = .hardReset then .hardResetWrite word
        else .regWrite r word mask)

/-- The four byte windows, wherever they stand and whatever their sizes (R61): an aligned word offset decodes to that
offset. -/
def Obligations.WindowAddressesDecode : Prop :=
  ∀ (p : Params) (o : Nat) (word mask : Word), p.bus.wf → o % 4 = 0 →
    (o + 4 ≤ p.bus.c2Size → decode p (.read (BitVec.ofNat 32 (p.bus.c2Base + o))) = .ok (.c2Read o) ∧
      decode p (.write (BitVec.ofNat 32 (p.bus.c2Base + o)) word mask) = .ok (.c2Write o word mask)) ∧
    (o + 4 ≤ p.bus.dsSize → decode p (.read (BitVec.ofNat 32 (p.bus.dsBase + o))) = .ok (.dsRead o) ∧
      decode p (.write (BitVec.ofNat 32 (p.bus.dsBase + o)) word mask) = .ok (.dsWrite o word mask)) ∧
    (o + 4 ≤ p.bus.msSize → decode p (.read (BitVec.ofNat 32 (p.bus.msBase + o))) = .ok (.msRead o) ∧
      decode p (.write (BitVec.ofNat 32 (p.bus.msBase + o)) word mask) = .ok (.msWrite o word mask)) ∧
    (o + 4 ≤ p.bus.iplSize → decode p (.read (BitVec.ofNat 32 (p.bus.iplBase + o))) = .ok (.iplRead o) ∧
      decode p (.write (BitVec.ofNat 32 (p.bus.iplBase + o)) word mask) = .ok (.iplWrite o word mask))

/-! ## The step -/

/-- A step performs the host's next access: it takes it off the queue and runs the operation it decodes to. The queue is
the model's own (log entry 9). -/
def Obligations.StepRunsDecodedAccess : Prop :=
  ∀ (s : State) (a : Access) (as : List Access) (i : Instr),
    s.fault = none → s.port.pending = a :: as → decode s.params a = .ok i →
      step s = exec i { s with port := { s.port with pending := as } }

/-- With no access pending nothing runs: the state stays as it is (the model's choice, log entry 10; R14 says that nothing
runs between two operations). -/
def Obligations.IdleStepChangesNothing : Prop :=
  ∀ s : State, s.fault = none → s.port.pending = [] → step s = .next s

/-- `fault` is empty at power-on, and from a faulted state no operation has a step (R41). -/
def Obligations.FaultedStateHasNoStep : Prop :=
  (∀ c : Construction, (State.construct c).fault = none) ∧
  ∀ (s : State) (f : Fault) (i : Instr), s.fault = some f → step s = .fault f ∧ exec i s = .fault f

/-- A number of the opcode table, placed where the step takes its next access, runs as the operation the decoder reads from
it, under the state's own parameters and, at the default ones, as `decodeTableWord` says; the table's numbering of an
access is the model's choice (log entry 12). -/
def Obligations.FetchWordRunsItsOperation : Prop :=
  ∀ (s : State) (nbits w : Nat) (i : Instr), s.fault = none →
    (decodeNumber s.params nbits w = some i ∨ (s.params = Params.default ∧ decodeTableWord nbits w = some i)) →
      step (s.withFetchWord nbits w) = exec i s

/-- An access in no window, one at an offset that is not a multiple of 4 or that does not lie whole in its window, and an
IPL read at or past the end of a present image have no step (R64). -/
def Obligations.BadAccessHasNoStep : Prop :=
  ∀ (s : State) (a : Access) (as : List Access) (addr : Word),
    s.fault = none → s.params.bus.wf → s.port.pending = a :: as →
    (a = .read addr ∨ ∃ word mask, a = .write addr word mask) →
      let b := s.params.bus
      let windows := [(b.c2Base, b.c2Size), (b.dsBase, b.dsSize), (b.regBase, 4 * b.numRegs), (b.msBase, b.msSize),
        (b.iplBase, b.iplSize)]
      ((∀ e ∈ windows, ¬ (e.1 ≤ addr.toNat ∧ addr.toNat < e.1 + e.2)) → step s = .refused (.noStep .unmapped)) ∧
      (∀ e ∈ windows, e.1 ≤ addr.toNat → addr.toNat < e.1 + e.2 →
        ((addr.toNat - e.1) % 4 ≠ 0 → step s = .refused (.noStep .misaligned)) ∧
        ((addr.toNat - e.1) % 4 = 0 → addr.toNat - e.1 + 4 > e.2 → step s = .refused (.noStep .beyondWindow))) ∧
      (∀ rom, a = .read addr → s.ipl = some rom → b.iplBase ≤ addr.toNat → (addr.toNat - b.iplBase) % 4 = 0 →
        addr.toNat - b.iplBase + 4 ≤ b.iplSize → addr.toNat - b.iplBase + 4 > rom.size →
          step s = .refused (.noStep .beyondIpl))

/-- Every well-formed operation completes within the host's access from every unfaulted state; only an IPL read past the
end of a present image has no step (R321). -/
def Obligations.EveryOperationCompletes : Prop :=
  ∀ (s : State) (i : Instr), s.fault = none → i.wellFormed s.params = true →
    (∀ off rom, i = .iplRead off → s.ipl = some rom → off + 4 ≤ rom.size) → ∃ t, exec i s = .next t

/-! ## Commands -/

/-- NOOP, the unimplemented commands and every unrecognized opcode: the epilogue and nothing else (R103). -/
def Obligations.EpilogueOnlyCommands : Prop :=
  ∀ (s : State) (i : Instr), s.fault = none →
    (i ∈ [.noop, .setStandby, .setSleep, .readVersion, .setDiskType, .requestStatus, .setYearMonth, .setDayHour,
      .setMinSec] ∨ ∃ op : Half, i = .cmdUnrecognized op ∧ ((∀ e ∈ opcodeRows s.params.opcodes, op ≠ e.1) ∨
        (s.params.opcodes = Opcodes.default ∧ ((0x15 ≤ op.toNat ∧ op.toNat ≤ 0x1A) ∨ 0x1C ≤ op.toNat)))) →
      exec i s = .next (commanded s (s.reg .cmdStatus) [])

/-- SEEK_READ and SEEK_WRITE: CUR_TK from DATA, the motor and head flags cleared, the mode, and the geometry of the new
CUR_TK (R153, R154, R198). -/
def Obligations.SeekResult : Prop :=
  ∀ s : State, s.fault = none →
    let tk := s.reg .data ||| 0x60000000#32
    let track := ((tk >>> 16) &&& 0xFFF#32).toNat
    let seeked := fun (mode : Bool) =>
      { s with
        regs := s.regs.set .curTk tk
        session := { s.session with
          modeRead := mode
          zone := resolveZone (tk.getLsbD 28) track
          trackByteOffset := BitVec.ofNat 32 (resolveOffset (tk.getLsbD 28) track) } }
    exec .seekRead s = .next (commanded (seeked true) (s.reg .cmdStatus &&& ~~~powerMask s) []) ∧
    exec .seekWrite s = .next (commanded (seeked false) (s.reg .cmdStatus &&& ~~~powerMask s) [])

/-- RECALIBRATE zeroes DATA and FEATURE_INQ writes 0x00010000 there (R155, R173). -/
def Obligations.DataCommandResult : Prop :=
  ∀ s : State, s.fault = none →
    exec .recalibrate s = .next (commanded { s with regs := s.regs.set .data 0#32 } (s.reg .cmdStatus) []) ∧
    exec .featureInq s = .next (commanded { s with regs := s.regs.set .data 0x00010000#32 } (s.reg .cmdStatus) [])

/-- SLEEP sets the motor and head flags, START clears them, STANDBY sets the head flag and clears the motor flag (R156,
R157, R165). -/
def Obligations.MotorHeadCommandResult : Prop :=
  ∀ s : State, s.fault = none →
    let b := s.params.statusBits
    exec .sleep s = .next (commanded s (s.reg .cmdStatus ||| bitMask [b.mtrNSpin, b.headRtrct]) []) ∧
    exec .start s = .next (commanded s (s.reg .cmdStatus &&& ~~~bitMask [b.mtrNSpin, b.headRtrct]) []) ∧
    exec .standby s =
      .next (commanded s ((s.reg .cmdStatus ||| bitMask [b.headRtrct]) &&& ~~~bitMask [b.mtrNSpin]) [])

/-- CLR_DSK_CHNG clears DISK_CHNG and CLR_RESET clears RST_STATE (R160, R161). -/
def Obligations.ClearFlagCommandResult : Prop :=
  ∀ s : State, s.fault = none →
    exec .clrDskChng s = .next (commanded s (s.reg .cmdStatus &&& ~~~bitMask [s.params.statusBits.diskChng]) []) ∧
    exec .clrReset s = .next (commanded s (s.reg .cmdStatus &&& ~~~bitMask [s.params.statusBits.rstState]) [])

/-- IDX_LOCK_RETRY sets `IDX_LOCK_BITS` in CUR_TK and recomputes no geometry; with bits that stay clear of the head and
track fields, as the default 0x60000000 does, those fields do not change (R166). -/
def Obligations.IdxLockRetryResult : Prop :=
  (Params.default.idxLockBits = 0x60000000#32 ∧ 0x60000000#32 &&& 0x1FFF0000#32 = 0#32) ∧
  ∀ s : State, s.fault = none →
    exec .idxLockRetry s =
      .next (commanded { s with regs := s.regs.set .curTk (s.reg .curTk ||| s.params.idxLockBits) }
        (s.reg .cmdStatus) []) ∧
    (s.params.wf → (s.reg .curTk ||| s.params.idxLockBits) &&& 0x1FFF0000#32 = s.reg .curTk &&& 0x1FFF0000#32)

/-- The GET commands draw a clock record, record the draw, and write two BCD bytes and sixteen zero bits into DATA (R170,
R171, R172). The record is the next injected one, or a free value where none is injected: the statement holds of every
value of it (log entry 8). -/
def Obligations.GetClockResult : Prop :=
  ∀ (s : State) (c : ClockTime) (p : Port), s.fault = none →
    ((∃ cs, s.port.clockFeed = c :: cs ∧ p = { s.port with clockFeed := cs }) ∨
      (s.port.clockFeed = [] ∧ c = Config.clockDraw s.port.clockDraws ∧
        p = { s.port with clockDraws := s.port.clockDraws + 1 })) →
    let got := fun (v : Word) => { s with regs := s.regs.set .data v, port := p }
    exec .getYearMonth s = .next (commanded (got (bcd c.year ++ bcd (c.month + 1) ++ 0#16)) (s.reg .cmdStatus)
      [.clockRead .yearMonth]) ∧
    exec .getDayHour s = .next (commanded (got (bcd c.day ++ bcd c.hour ++ 0#16)) (s.reg .cmdStatus)
      [.clockRead .dayHour]) ∧
    exec .getMinSec s = .next (commanded (got (bcd c.minute ++ bcd c.second ++ 0#16)) (s.reg .cmdStatus)
      [.clockRead .minSec])

/-- `bcd` is the source's formula modulo 256, and the packed BCD of every value below 100 (R175). -/
def Obligations.BcdByte : Prop :=
  (∀ v : Nat, (bcd v).toNat = (((v / 10) * 16) ||| (v % 10)) % 256) ∧
  ∀ v : Nat, v < 100 → (bcd v).toNat / 16 = v / 10 ∧ (bcd v).toNat % 16 = v % 10

/-- Any word written to CMD_STATUS, whatever its opcode, completes with MECHA_INT set, the line asserted and exactly one
`Signal`, the last event (R151). -/
def Obligations.EveryCommandWriteSignalsOnce : Prop :=
  ∀ (s : State) (k : Nat) (word mask : Word) (as : List Access),
    s.fault = none → s.params.bus.wf → s.params.opcodes.wf → s.params.bus.regMap[k]? = some .cmdStatus →
    s.port.pending = .write (BitVec.ofNat 32 (s.params.bus.regBase + 4 * k)) word mask :: as →
      ∃ t evs, step s = .next t ∧ (t.reg .cmdStatus).getLsbD s.params.statusBits.mechaInt = true ∧ t.irq = true ∧ t.fault = none ∧
        t.trace = s.trace ++ evs ++ [.signal] ∧ .signal ∉ evs

/-- The frame of the commands: CMD_STATUS keeps every bit but MECHA_INT, RST_STATE, MTR_N_SPIN, HEAD_RTRCT and
DISK_CHNG, registers other than CMD_STATUS, DATA and CUR_TK are unchanged, and so is everything of the buffer manager,
the buffers and the images (R177, R178). -/
def Obligations.CommandFrame : Prop :=
  ∀ (s t : State) (i : Instr), isCommand i = true → exec i s = .next t →
    let b := s.params.statusBits
    let written := bitMask [b.mechaInt, b.rstState, b.mtrNSpin, b.headRtrct, b.diskChng]
    (∀ r, r ∉ [Reg.cmdStatus, .data, .curTk] → t.reg r = s.reg r) ∧
    t.reg .cmdStatus &&& ~~~written = s.reg .cmdStatus &&& ~~~written ∧
    t.session.currentBlock = s.session.currentBlock ∧ t.session.skip89 = s.session.skip89 ∧
    t.session.resetHold = s.session.resetHold ∧
    t.c2 = s.c2 ∧ t.ds = s.ds ∧ t.ms = s.ms ∧ t.img = s.img ∧ t.ipl = s.ipl ∧ t.fault = s.fault

/-! ## Geometry -/

/-- Zone and track offset as the band table, the zone start table and the sector size table give them (R191, R192, R194 to
R197); the offset fits in 32 bits for every 12-bit track. -/
def Obligations.GeometryFollowsTables : Prop :=
  ∀ (head : Bool) (track : Nat), track < 4096 →
    (resolveZone head track).val = (bandOf track).1 + 8 * head.toNat ∧
    (sectorSize (resolveZone head track) =
      [232, 216, 208, 192, 176, 160, 144, 128, 216, 208, 192, 176, 160, 144, 128, 112][(bandOf track).1 + 8 * head.toNat]!) ∧
    (resolveOffset head track =
      [0x0, 0x5F15E0, 0xB79D00, 0x10801A0, 0x1523720, 0x1963D80, 0x1D414C0, 0x20BBCE0, 0x23196E0, 0x28A1E00, 0x2DF5DC0,
        0x3299340, 0x36D99A0, 0x3AB70E0, 0x3E31900, 0x4149200][(bandOf track).1 + 8 * head.toNat]! +
      (track - (bandOf track).2) * sectorSize (resolveZone head track) * 170) ∧
    resolveOffset head track ≤ 0x78607C0

/-- The laws of the geometry tables (R201): zones are contiguous, their span, the band widths, the zone is non-decreasing
and the offset in the zone 0 at each threshold, and each track of the disk starts one track's size after the one
before. -/
def Obligations.GeometryTableLaws : Prop :=
  (∀ z w : Fin 16, w.val + 1 = z.val → zoneStart z = zoneStart w + tracksPerZone[w] * sectorSize w * 170) ∧
  zoneStart 15 + 114 * 112 * 170 = 0x435B0C0 ∧
  (∀ z : Fin 16, (tracksPerZone[z] : Nat) = [158, 158, 149, 149, 149, 149, 149, 114][z.val % 8]! ∧
    (tracksPerZone[z] : Nat) + [0, 158, 316, 465, 614, 763, 912, 1061][z.val % 8]! =
      [158, 316, 465, 614, 763, 912, 1061, 1175][z.val % 8]!) ∧
  (∀ (head : Bool) (t u : Nat), t ≤ u → resolveZone head t ≤ resolveZone head u) ∧
  (∀ (head : Bool) (t : Nat), t ∈ [0, 158, 316, 465, 614, 763, 912, 1061] →
    resolveOffset head t = zoneStart (resolveZone head t)) ∧
  (∀ (head : Bool) (t : Nat), t + 1 < 1175 →
    resolveOffset head (t + 1) = resolveOffset head t + sectorSize (resolveZone head t) * 170 ∧
      resolveOffset head t < resolveOffset head (t + 1))

/-- Only a seek moves the zone and the track offset; the one exception is the trailing edge of a BM reset under
`RESET_CLEARS_SESSION`, which zeroes both (R200). -/
def Obligations.OnlySeeksMoveGeometry : Prop :=
  ∀ (s t : State) (i : Instr), exec i s = .next t → i ≠ .seekRead → i ≠ .seekWrite →
    ((¬ ∃ w, i = .bmctlWrite w ∧ w.getLsbD s.params.bmCtlBits.reset = false ∧ s.session.resetHold = true ∧
        s.params.resetClearsSession = true) →
      t.session.zone = s.session.zone ∧ t.session.trackByteOffset = s.session.trackByteOffset) ∧
    (∀ w, i = .bmctlWrite w → w.getLsbD s.params.bmCtlBits.reset = false → s.session.resetHold = true →
      s.params.resetClearsSession = true → t.session.zone = 0 ∧ t.session.trackByteOffset = 0#32)

/-! ## Registers -/

/-- A register read returns the stored word; only the status register's has a side effect, which runs when BM_INT is set
and the in-block sector exceeds 85, and the word returned is the one from before it (R121, R122, R124). -/
def Obligations.RegisterReadResult : Prop :=
  ∀ s : State, s.fault = none →
    (∀ r, r ∈ s.params.bus.regMap → r ≠ .cmdStatus → exec (.regRead r) s = .next (answered s (some (s.reg r)))) ∧
    ∀ k b, At s k b →
      ((s.reg .cmdStatus).getLsbD s.params.statusBits.bmInt = true → 85 < k →
        exec .statusRead s = .next (answered (pump { s with
          regs := s.regs.set .cmdStatus (s.reg .cmdStatus &&& ~~~bitMask [s.params.statusBits.bmInt])
          irq := false
          trace := s.trace ++ [.clear] }) (some (s.reg .cmdStatus)))) ∧
      (((s.reg .cmdStatus).getLsbD s.params.statusBits.bmInt = false ∨ k ≤ 85) →
        exec .statusRead s = .next (answered s (some (s.reg .cmdStatus))))

/-- A status read never faults: when its side effect runs it appends exactly `Clear` and `Signal`, leaves BM_INT set and
the line asserted, and commits and copies nothing. That nothing is committed is read from R231 by inference, where R278
says that the write branch may (DEDUCED, log entry 14). -/
def Obligations.StatusReadNeverFaults : Prop :=
  ∀ (s : State) (k : Nat) (b : Fin 2), s.fault = none → At s k b → (s.reg .cmdStatus).getLsbD s.params.statusBits.bmInt = true → 85 < k →
    ∃ t, exec .statusRead s = .next t ∧ t.fault = none ∧ t.trace = s.trace ++ [.clear, .signal] ∧ t.irq = true ∧
      (t.reg .cmdStatus).getLsbD s.params.statusBits.bmInt = true ∧ t.ds = s.ds ∧ t.img = s.img

/-- Once a transfer has ended, every status read finds it as it was, with BM_INT set again: status reads alone never drain
the interrupt (R314). -/
def Obligations.StatusReadsNeverDrainInterrupt : Prop :=
  ∀ (s : State) (b : Fin 2), s.fault = none → (s.reg .cmdStatus).getLsbD s.params.statusBits.bmInt = true →
    ((s.session.modeRead = false ∧ At s 86 b) ∨
      (s.session.modeRead = true ∧ At s 89 b ∧ s.session.skip89 = true ∧
        (s.reg .bmStatusCtl).getLsbD s.params.bmStatusBits.block = false ∧ ¬ IplCase s b)) →
    ∃ t, exec .statusRead s = .next t ∧ t.fault = none ∧ (t.reg .cmdStatus).getLsbD s.params.statusBits.bmInt = true ∧
      t.trace = s.trace ++ [.clear, .signal] ∧
      t.session.modeRead = s.session.modeRead ∧ (s.session.modeRead = false → At t 86 b) ∧
      (s.session.modeRead = true → At t 89 b ∧ t.session.skip89 = true ∧
        (t.reg .bmStatusCtl).getLsbD s.params.bmStatusBits.block = false ∧ ¬ IplCase t b)

/-- The generic write is `(stored & ~mask) | word`, and a read-only register ignores a write (R130, R126). -/
def Obligations.RegisterWriteResult : Prop :=
  ∀ (s : State) (r : Reg) (word mask : Word), s.fault = none →
    (r ∈ s.params.bus.regMap → r ∉ s.params.bus.readOnlyRegs → r ∉ [Reg.cmdStatus, .bmStatusCtl, .hardReset] →
      exec (.regWrite r word mask) s =
        .next (answered { s with regs := s.regs.set r ((s.reg r &&& ~~~mask) ||| word) } none)) ∧
    (r ∈ s.params.bus.regMap → r ∈ s.params.bus.readOnlyRegs →
      exec (.regWriteRo r word mask) s = .next (answered s none))

/-- The hard-reset register accepts the magic word without effect and faults on every other word (R129). -/
def Obligations.HardResetResult : Prop :=
  ∀ (s : State) (word : Word), s.fault = none →
    (word = s.params.hardResetMagic → exec (.hardResetWrite word) s = .next (answered s none)) ∧
    (word ≠ s.params.hardResetMagic →
      exec (.hardResetWrite word) s = .next (answered { s with fault := some (.hardResetWord word) } none))

/-! ## Windows -/

/-- A buffer read returns the big-endian word of four bytes and changes nothing else (R132). -/
def Obligations.BufferReadResult : Prop :=
  ∀ (s : State) (o : Nat), s.fault = none → o % 4 = 0 →
    let word := fun (m : Memory) => BitVec.ofNat 32
      ((m.read o).toNat * 2 ^ 24 + (m.read (o + 1)).toNat * 2 ^ 16 + (m.read (o + 2)).toNat * 2 ^ 8 +
        (m.read (o + 3)).toNat)
    (o + 4 ≤ s.params.bus.c2Size → exec (.c2Read o) s = .next (answered s (some (word s.c2)))) ∧
    (o + 4 ≤ s.params.bus.dsSize → exec (.dsRead o) s = .next (answered s (some (word s.ds)))) ∧
    (o + 4 ≤ s.params.bus.msSize → exec (.msRead o) s = .next (answered s (some (word s.ms))))

/-- A buffer write stores `(old & ~mask) | word` as four big-endian bytes and changes no other byte and no other state
(R133). -/
def Obligations.BufferWriteResult : Prop :=
  ∀ (s : State) (o : Nat) (word mask : Word), s.fault = none → o % 4 = 0 →
    let stored := fun (old new : Memory) => new.wf ∧ (∀ a, ¬ (o ≤ a ∧ a < o + 4) → new.read a = old.read a) ∧
      ∀ k, k < 4 → new.read (o + k) = ((old.wordAt o &&& ~~~mask) ||| word).extractLsb' (24 - 8 * k) 8
    (o + 4 ≤ s.params.bus.c2Size → s.c2.wf → ∃ m, stored s.c2 m ∧
      exec (.c2Write o word mask) s = .next (answered { s with c2 := m } none)) ∧
    (o + 4 ≤ s.params.bus.dsSize → s.ds.wf → ∃ m, stored s.ds m ∧
      exec (.dsWrite o word mask) s = .next (answered { s with ds := m } none)) ∧
    (o + 4 ≤ s.params.bus.msSize → s.ms.wf → ∃ m, stored s.ms m ∧
      exec (.msWrite o word mask) s = .next (answered { s with ms := m } none))

/-- The IPL window: a read returns zero where no image is present, the image's big-endian word where it lies whole in a
present image, and has no step beyond it; a write changes nothing (R134, R135). -/
def Obligations.IplWindowResult : Prop :=
  ∀ (s : State) (o : Nat) (word mask : Word), s.fault = none → o % 4 = 0 → o + 4 ≤ s.params.bus.iplSize →
    (s.ipl = none → exec (.iplRead o) s = .next (answered s (some 0#32))) ∧
    (∀ rom, s.ipl = some rom → o + 4 ≤ rom.size → exec (.iplRead o) s = .next (answered s (some (BitVec.ofNat 32
      ((rom.bytes.read o).toNat * 2 ^ 24 + (rom.bytes.read (o + 1)).toNat * 2 ^ 16 +
        (rom.bytes.read (o + 2)).toNat * 2 ^ 8 + (rom.bytes.read (o + 3)).toNat))))) ∧
    (∀ rom, s.ipl = some rom → rom.size < o + 4 → exec (.iplRead o) s = .refused (.noStep .beyondIpl)) ∧
    exec (.iplWrite o word mask) s = .next (answered s none)

/-- Writing the same word and mask twice is writing it once, for a generic register and for a buffer (R66). -/
def Obligations.PlainWriteIdempotent : Prop :=
  ∀ (s t : State) (r : Reg) (o : Nat) (word mask : Word) (i : Instr),
    i ∈ [Instr.regWrite r word mask, .c2Write o word mask, .dsWrite o word mask, .msWrite o word mask] →
    s.c2.wf → s.ds.wf → s.ms.wf → exec i s = .next t → exec i t = .next t

/-- Read after write of a memory in canonical form, the canonical form kept, and equal memories equal data. -/
def Obligations.MemoryIsCanonical : Prop :=
  (∀ (m : Memory) (a b : Nat) (v : Byte), m.wf →
    (m.write a v).wf ∧ (m.write a v).read b = if b = a then v else m.read b) ∧
  ∀ m n : Memory, m.wf → n.wf → (∀ a, m.read a = n.read a) → m = n

/-- Read after write of the register file, for the 19 default names and for every further name of a configured map; the
canonical form kept, and canonical register files that read alike equal data. -/
def Obligations.RegisterFileIsCanonical : Prop :=
  (∀ (rs : Regs) (r q : Reg) (v : Word), (rs.set r v).get q = (if q = r then v else rs.get q) ∧
    (rs.others.wf → (rs.set r v).others.wf)) ∧
  ∀ a b : Regs, a.others.wf → b.others.wf → (∀ r, a.get r = b.get r) → a = b

/-! ## The buffer manager -/

/-- A BM-control write is its steps 1 to 6 and, with START set, RUNNING, the skip flag cleared and a pump; the word is not
stored (R250 to R257, R259). -/
def Obligations.BmControlResult : Prop :=
  ∀ (s : State) (w : Word), s.fault = none →
    exec (.bmctlWrite w) s = .next (answered
      (if w.getLsbD s.params.bmCtlBits.start then pump (started (bmPrepared w s)) else bmPrepared w s) none)

/-- Only START, RESET, BLK_TRANS, MECHA_RST and the sector field of a BM-control word have an effect; with the default bits,
bits 30, 29, 27, 26 and 15..0 have none (R258). -/
def Obligations.IgnoredControlBits : Prop :=
  ∀ (s : State) (w w' : Word),
    let c := s.params.bmCtlBits
    let acted := bitMask [c.start, c.reset, c.blkTrans, c.mechaRst] ||| 0x00FF0000#32
    (w &&& acted = w' &&& acted → exec (.bmctlWrite w) s = exec (.bmctlWrite w') s) ∧
    (c = BmCtlBits.default → w &&& 0x93FF0000#32 = w' &&& 0x93FF0000#32 →
      exec (.bmctlWrite w) s = exec (.bmctlWrite w') s)

/-- The BM reset: a write with RESET set and then one with RESET clear zero the BM status and the sector register, clear
BM_INT, BM_ERR, DATA_RQ and C2_XFER and set block 0; under the default everything R304 lists survives. The second word
carries no other bit. -/
def Obligations.BmResetProtocol : Prop :=
  ∀ (s : State) (w : Word), s.fault = none → s.params.statusBits.wf → s.params.resetClearsSession = false →
    w.getLsbD s.params.bmCtlBits.reset = true → w.getLsbD s.params.bmCtlBits.start = false →
    w.getLsbD s.params.bmCtlBits.mechaRst = false →
    let b := s.params.statusBits
    ∃ t u, exec (.bmctlWrite w) s = .next t ∧ exec (.bmctlWrite 0#32) t = .next u ∧
      u.reg .bmStatusCtl = 0#32 ∧ u.reg .curSector = 0#32 ∧
      u.reg .cmdStatus = s.reg .cmdStatus &&& ~~~bitMask [b.bmInt, b.bmErr, b.dataRq, b.c2Xfer] ∧
      u.session = { s.session with currentBlock := 0, resetHold := false } ∧
      (∀ r, r ∉ [Reg.bmStatusCtl, .curSector, .cmdStatus] → u.reg r = s.reg r) ∧
      u.c2 = s.c2 ∧ u.ds = s.ds ∧ u.ms = s.ms ∧ u.img = s.img ∧ u.ipl = s.ipl ∧ u.fault = none ∧
      ((s.reg .cmdStatus).getLsbD b.mechaInt = true → u.irq = t.irq ∧ u.trace = t.trace) ∧
      ((s.reg .cmdStatus).getLsbD b.mechaInt = false → u.irq = false ∧ u.trace = t.trace ++ [.clear])

/-- The pump's write branch: what it does from each in-block sector. From 0 and from 86 on it commits nothing, so that
`WRITE_PERSIST` does not matter; the arms from 1 to 85 are under the default `WRITE_PERSIST = false` (R214, R215, R216,
R217, R219); `PersistentCommit` says what they do under the other value. -/
def Obligations.PumpWriteArms : Prop :=
  ∀ (s : State) (k : Nat) (b : Fin 2), s.fault = none → At s k b → s.session.modeRead = false →
    let st := s.reg .cmdStatus
    let bm := s.reg .bmStatusCtl
    let dataRq := bitMask [s.params.statusBits.dataRq]
    let running := bitMask [s.params.bmStatusBits.running]
    let block := bitMask [s.params.bmStatusBits.block]
    (k = 0 → pump s = pumped s 1 b (st ||| dataRq) bm []) ∧
    (86 ≤ k → pump s = pumped s k b st bm []) ∧
    (s.params.writePersist = false →
      (1 ≤ k → k < 85 → pump s = pumped s (k + 1) b (st ||| dataRq) bm [commitEvent s b (k - 1)]) ∧
      (k = 85 → bm.getLsbD s.params.bmStatusBits.block = true →
        pump s = pumped s 1 (1 - b) (st ||| dataRq) (bm &&& ~~~block) [commitEvent s b 84]) ∧
      (k = 85 → bm.getLsbD s.params.bmStatusBits.block = false →
        pump s = pumped s 86 b st (bm &&& ~~~running) [commitEvent s b 84]))

/-- The committing arms, in-block sectors 1 to 85, under `WRITE_PERSIST`: the event, then the payload stored in the image
where it fits, and the position, DATA_RQ, BLOCK and RUNNING as by default (R215, R216, R217); otherwise the fault, which
ends the pump before its epilogue (R218, R270). -/
def Obligations.PersistentCommit : Prop :=
  ∀ (s : State) (k : Nat) (b : Fin 2), s.fault = none → At s k b → s.session.modeRead = false →
    s.params.writePersist = true → s.img.bytes.wf → 1 ≤ k → k ≤ 85 →
    let st := s.reg .cmdStatus
    let bm := s.reg .bmStatusCtl
    let dataRq := bitMask [s.params.statusBits.dataRq]
    let running := bitMask [s.params.bmStatusBits.running]
    let block := bitMask [s.params.bmStatusBits.block]
    (slot s b (k - 1) + sectorSize s.session.zone ≤ s.img.size →
      ∃ m : Memory, m.wf ∧ (∀ a, m.read a =
          if slot s b (k - 1) ≤ a ∧ a < slot s b (k - 1) + sectorSize s.session.zone
          then s.ds.read (a - slot s b (k - 1)) else s.img.bytes.read a) ∧
        (k < 85 → pump s = { pumped s (k + 1) b (st ||| dataRq) bm [commitEvent s b (k - 1)] with
          img := { s.img with bytes := m } }) ∧
        (k = 85 → bm.getLsbD s.params.bmStatusBits.block = true →
          pump s = { pumped s 1 (1 - b) (st ||| dataRq) (bm &&& ~~~block) [commitEvent s b 84] with
            img := { s.img with bytes := m } }) ∧
        (k = 85 → bm.getLsbD s.params.bmStatusBits.block = false →
          pump s = { pumped s 86 b st (bm &&& ~~~running) [commitEvent s b 84] with
            img := { s.img with bytes := m } })) ∧
    (s.img.size < slot s b (k - 1) + sectorSize s.session.zone →
      pump s = { s with
        session := { s.session with currentBlock := b }
        trace := s.trace ++ [commitEvent s b (k - 1)]
        fault := some (.diskRange (slot s b (k - 1)) (sectorSize s.session.zone)) })

/-- The pump's read branch outside the IPL special case and without the disk fault: what it does from each in-block sector
(R221, R223, R225, R226, R227, R228, R229). -/
def Obligations.PumpReadArms : Prop :=
  ∀ (s : State) (k : Nat) (b : Fin 2), s.fault = none → At s k b → s.session.modeRead = true →
    s.ds.wf → ¬ IplCase s b →
    let st := s.reg .cmdStatus &&& ~~~bitMask [s.params.statusBits.dataRq, s.params.statusBits.c2Xfer]
    let bm := s.reg .bmStatusCtl
    let dataRq := bitMask [s.params.statusBits.dataRq]
    let c2Xfer := bitMask [s.params.statusBits.c2Xfer]
    let running := bitMask [s.params.bmStatusBits.running]
    let block := bitMask [s.params.bmStatusBits.block]
    (k < 85 → slot s b k + sectorSize s.session.zone ≤ s.img.size →
      ∃ m : Memory, m.wf ∧ (∀ a, m.read a =
          if a < sectorSize s.session.zone then s.img.bytes.read (slot s b k + a) else s.ds.read a) ∧
        pump s = { pumped s (k + 1) b (st ||| dataRq) bm [] with ds := m }) ∧
    (85 ≤ k → k < 88 → pump s = pumped s (k + 1) b st bm []) ∧
    (k = 88 → ∃ m : Memory, (∀ a, m.read a = if a < s.params.bus.c2Size then 0#8 else s.c2.read a) ∧
      pump s = { pumped s 89 b (st ||| c2Xfer) bm [] with c2 := m }) ∧
    (k = 89 → s.session.skip89 = false → ∃ m : Memory, (∀ a, m.read a = if a < s.params.bus.c2Size then 0#8 else s.c2.read a) ∧
      pump s = { pumped s 89 b (st ||| c2Xfer) bm [] with
        c2 := m, session := { s.session with currentBlock := b, skip89 := true } }) ∧
    (k = 89 → s.session.skip89 = true → bm.getLsbD s.params.bmStatusBits.block = true →
      pump s = pumped s 0 (1 - b) st (bm &&& ~~~block) []) ∧
    (k = 89 → s.session.skip89 = true → bm.getLsbD s.params.bmStatusBits.block = false →
      pump s = pumped s 89 b st (bm &&& ~~~running) []) ∧
    (90 ≤ k → pump s = pumped s k b st bm [])

/-- The IPL special case: no sector advances and nothing is copied; DATA_RQ and C2_XFER are cleared. The step-back of
sector 89, which comes first, still happens (R221, R222). -/
def Obligations.PumpIplCase : Prop :=
  ∀ (s : State) (k : Nat) (b : Fin 2), s.fault = none → At s k b → s.session.modeRead = true → IplCase s b →
    let st := s.reg .cmdStatus &&& ~~~bitMask [s.params.statusBits.dataRq, s.params.statusBits.c2Xfer]
    ((k ≠ 89 ∨ s.session.skip89 = true) → pump s = pumped s k b st (s.reg .bmStatusCtl) []) ∧
    (k = 89 → s.session.skip89 = false →
      pump s = { pumped s 88 b st (s.reg .bmStatusCtl) [] with
        session := { s.session with currentBlock := b, skip89 := true } })

/-- A copy that reaches past the disk image faults: the changes made before it stand, the epilogue does not run, nothing
is copied and nothing signalled (R224, R270, R272). -/
def Obligations.CopyBeyondImageFaults : Prop :=
  ∀ (s : State) (k : Nat) (b : Fin 2), s.fault = none → At s k b → s.session.modeRead = true → ¬ IplCase s b → k < 85 →
    s.img.size < slot s b k + sectorSize s.session.zone →
      pump s = { s with
        regs := s.regs.set .cmdStatus (s.reg .cmdStatus &&& ~~~bitMask [s.params.statusBits.dataRq, s.params.statusBits.c2Xfer])
        session := { s.session with currentBlock := b }
        fault := some (.diskRange (slot s b k) (sectorSize s.session.zone)) }

/-- The pump is not gated by RUNNING: clearing it before the pump is clearing it after (R211). -/
def Obligations.PumpIgnoresRunning : Prop :=
  ∀ s : State, s.params.bmStatusBits.wf → pump (s.clearBm .running) = (pump s).clearBm .running

/-- A one-block read takes 91 pumps: 85 copies, 4 advances, the step-back and the gap (R233). -/
def Obligations.ReadTransferTakes91Pumps : Prop :=
  ∀ s : State, s.fault = none → s.params.statusBits.wf → At s 0 0 → s.session.modeRead = true → s.session.skip89 = false →
    (s.reg .bmStatusCtl).getLsbD s.params.bmStatusBits.block = false → (s.reg .bmStatusCtl).getLsbD s.params.bmStatusBits.running = true → s.ds.wf → ¬ IplCase s 0 →
    slot s 0 84 + sectorSize s.session.zone ≤ s.img.size →
    let p := fun n => pump^[n] s
    (∀ n, n ≤ 91 → (p n).fault = none ∧ At (p n) (if n ≤ 89 then n else 89) 0) ∧
    (∀ n, n < 85 → ((p (n + 1)).reg .cmdStatus).getLsbD s.params.statusBits.dataRq = true ∧
      ∀ i, i < sectorSize s.session.zone → (p (n + 1)).ds.read i = s.img.bytes.read (slot s 0 n + i)) ∧
    (∀ n, 85 ≤ n → n < 91 → ((p (n + 1)).reg .cmdStatus).getLsbD s.params.statusBits.dataRq = false) ∧
    (∀ n, n < 91 → (((p (n + 1)).reg .cmdStatus).getLsbD s.params.statusBits.c2Xfer = true ↔ n = 88 ∨ n = 89)) ∧
    (∀ n, n ≤ 91 → (((p n).reg .bmStatusCtl).getLsbD s.params.bmStatusBits.running = true ↔ n ≤ 90)) ∧
    (∀ n, n ≤ 91 → ((p n).session.skip89 = true ↔ 90 ≤ n)) ∧
    (p 91).trace = s.trace ++ List.replicate 91 .signal

/-- A one-block write takes 86 pumps and 85 commits in offset order; the first 85 set DATA_RQ, the last clears RUNNING,
and by default the image does not change (R234). -/
def Obligations.WriteTransferTakes86Pumps : Prop :=
  ∀ s : State, s.fault = none → At s 0 0 → s.session.modeRead = false → s.params.writePersist = false →
    (s.reg .bmStatusCtl).getLsbD s.params.bmStatusBits.block = false → (s.reg .bmStatusCtl).getLsbD s.params.bmStatusBits.running = true →
    let p := fun n => pump^[n] s
    (∀ n, n ≤ 86 → (p n).fault = none ∧ At (p n) n 0) ∧
    (∀ n, 1 ≤ n → n ≤ 86 → ((p n).reg .cmdStatus).getLsbD s.params.statusBits.dataRq = true) ∧
    (∀ n, n ≤ 86 → (((p n).reg .bmStatusCtl).getLsbD s.params.bmStatusBits.running = true ↔ n ≤ 85)) ∧
    (p 86).img = s.img ∧ (p 86).ds = s.ds ∧
    (p 86).trace = s.trace ++ [.signal] ++ ((List.range 85).flatMap fun j => [commitEvent s 0 j, .signal])

/-! ## The whole machine -/

/-- The invariant holds at reset. -/
def Obligations.ResetMeetsInvariant : Prop := Inv State.reset

/-- Construction gives the power-on state: status and ID words, session, buffers and images as R300 says, whatever the
unspecified contents are (R300, R301). -/
def Obligations.ConstructionResult : Prop :=
  ∀ c : Construction,
    let b := c.params.statusBits
    (State.construct c).reg .cmdStatus =
      (if 0 < c.img.size then bitMask [b.mtrNSpin, b.headRtrct, b.diskPres] else bitMask [b.mtrNSpin, b.headRtrct]) ∧
    (c.params.statusBits = StatusBits.default →
      (State.construct c).reg .cmdStatus = if 0 < c.img.size then 0x01180000#32 else 0x00180000#32) ∧
    (State.construct c).params = c.params ∧
    (State.construct c).reg .idReg = (if c.ipl.isSome then c.params.idWithIpl else c.params.idWithoutIpl) ∧
    (∀ r, r ≠ .cmdStatus → r ≠ .idReg → (State.construct c).reg r = c.initRegs.get r) ∧
    (State.construct c).session =
      { resetHold := false, modeRead := false, currentBlock := 0, zone := 0, trackByteOffset := 0#32, skip89 := false } ∧
    (State.construct c).c2 = c.initC2 ∧ (State.construct c).ds = c.initDs ∧ (State.construct c).ms = c.initMs ∧
    (State.construct c).img = c.img ∧ (State.construct c).ipl = c.ipl ∧ (State.construct c).irq = false ∧
    (State.construct c).trace = [] ∧ (State.construct c).fault = none

/-- Construction from canonical contents establishes the invariant. -/
def Obligations.ConstructionMeetsInvariant : Prop :=
  ∀ c : Construction, ConstructionOk c → Inv (State.construct c)

/-- Every step keeps the invariant, under every well-formed configuration: memories canonical and in bounds; the further
registers of the map canonical; no bit of the status register set but those of the flags that some rule sets; DISK_PRES
true to the image; and, where the host cannot write CUR_SECTOR and ID_REG, the block and the sector register in agreement,
the sector register's unused bits zero and the ID register true to the construction (R23, R24, R36). -/
def Obligations.StepKeepsInvariant : Prop :=
  ∀ s t : State, Inv s → step s = .next t → Inv t

/-- No step changes the parameters, the IPL image or the size of the disk image, and by default none changes the disk
image (R38). -/
def Obligations.ImagesAreImmutable : Prop :=
  ∀ s t : State, step s = .next t →
    t.params = s.params ∧ t.ipl = s.ipl ∧ t.img.size = s.img.size ∧
    (s.params.writePersist = false → t.img = s.img)

/-- The two faults and what raises them: a hard-reset write of another word than the magic one, and a BM-control write with
START whose pump copies, or under `WRITE_PERSIST` commits, past the disk image; no other operation faults. That DiskRange
comes from a BM-control START alone and never from a status read is read from R231 by inference, where R122 lists it as a
fault of the status read and R278 says that the read's write branch may commit (DEDUCED, log entry 14). -/
def Obligations.OnlyTwoOperationsFault : Prop :=
  ∀ (s t : State) (i : Instr) (f : Fault), exec i s = .next t → t.fault = some f →
    (∃ w, i = .hardResetWrite w ∧ w ≠ s.params.hardResetMagic ∧ f = .hardResetWord w) ∨
    (∃ w off len, i = .bmctlWrite w ∧ w.getLsbD s.params.bmCtlBits.start = true ∧ f = .diskRange off len ∧ off + len > s.img.size ∧
      (s.session.modeRead = true ∨ s.params.writePersist = true))

/-- A step only appends to the trace. -/
def Obligations.TraceOnlyGrows : Prop :=
  ∀ s t : State, step s = .next t → s.trace <+: t.trace

/-- The sector register, the BM status, the block, the skip flag, the reset hold and the image change only by a BM-control
write or by a status read; the one exception is a host write of CUR_SECTOR where `ReadOnlyRegs` is configured without it,
which changes that register alone of these (R22, R36, R210). -/
def Obligations.OnlyTwoOperationsMoveTransfer : Prop :=
  ∀ (s t : State) (i : Instr), exec i s = .next t → i ≠ .statusRead → (∀ w, i ≠ .bmctlWrite w) →
    ((∀ word mask, i ≠ .regWrite .curSector word mask) → t.reg .curSector = s.reg .curSector) ∧
    (.curSector ∈ s.params.bus.readOnlyRegs → t.reg .curSector = s.reg .curSector) ∧
    t.reg .bmStatusCtl = s.reg .bmStatusCtl ∧
    t.session.currentBlock = s.session.currentBlock ∧ t.session.skip89 = s.session.skip89 ∧
    t.session.resetHold = s.session.resetHold ∧ t.img = s.img

/-- The motor and head flags gate no operation: two states that differ in them alone go to states that differ in them
alone. A status read returns the status word, so that the words returned differ in the two flags and in nothing else;
every other operation returns the same (R284). -/
def Obligations.PowerFlagsGateNothing : Prop :=
  ∀ (s t : State) (i : Instr), s.params.statusBits.wf → exec i s = .next t →
    ∃ u, exec i (forgetPower s) = .next u ∧
      (i ≠ .statusRead → forgetPower u = forgetPower t) ∧
      (i = .statusRead →
        forgetPower u = forgetPower (answered t (t.port.result.map fun word => word &&& ~~~powerMask s)))

/-- The block does not read the level of its interrupt line (R275). -/
def Obligations.InterruptLineIsNeverRead : Prop :=
  ∀ (s t : State) (i : Instr) (level : Bool), exec i s = .next t →
    ∃ level', exec i { s with irq := level } = .next { t with irq := level' }
end

