-- ==== Sys2Proof/Laws/Memory.lean ====
section
/-! SUPPORT. The laws of a memory: read after write, the canonical form kept by every operation and unique, the run of
bytes a store writes, and the big-endian word. -/

namespace Sys2Proof.Machine

theorem Memory.read_eq_unlisted (m : Memory) (a : Nat) (h : ∀ c ∈ m, c.1 ≠ a) :
    m.read a = Config.unlistedByte := by
  induction m with
  | nil => rfl
  | cons c m ih =>
    have hc : ¬ a = c.1 := fun e => h c (by simp) e.symm
    simp only [Memory.read, hc, if_false]
    exact ih fun d hd => h d (by simp [hd])

theorem Memory.wf_cons {c : Host.Cell} {m : Memory} :
    Memory.wf (c :: m) ↔ (∀ d ∈ m, c.1 < d.1) ∧ c.2 ≠ Config.unlistedByte ∧ Memory.wf m := by
  simp only [Memory.wf, List.pairwise_cons, List.forall_mem_cons]
  tauto

/-- In canonical form an offset below every listed one is unlisted. -/
theorem Memory.read_below {m : Memory} {a : Nat} (h : ∀ d ∈ m, a < d.1) : m.read a = Config.unlistedByte :=
  Memory.read_eq_unlisted m a fun d hd e => by have := h d hd; omega

theorem Memory.mem_write {m : Memory} {a : Nat} {v : Byte} {c : Host.Cell} (h : c ∈ m.write a v) :
    c = (a, v) ∧ v ≠ Config.unlistedByte ∨ c ∈ m := by
  induction m with
  | nil =>
    simp only [Memory.write] at h
    split at h <;> simp_all
  | cons d m ih =>
    simp only [Memory.write] at h
    split at h
    · split at h
      · exact .inr h
      · rename_i hv
        rcases List.mem_cons.mp h with rfl | h
        · exact .inl ⟨rfl, hv⟩
        · exact .inr h
    · split at h
      · split at h
        · exact .inr (by simp [h])
        · rename_i hv
          rcases List.mem_cons.mp h with rfl | h
          · exact .inl ⟨rfl, hv⟩
          · exact .inr (by simp [h])
      · rcases List.mem_cons.mp h with rfl | h
        · exact .inr (by simp)
        · rcases ih h with h | h
          · exact .inl h
          · exact .inr (by simp [h])

/-- A write keeps the canonical form. -/
theorem Memory.wf_write {m : Memory} (h : m.wf) (a : Nat) (v : Byte) : (m.write a v).wf := by
  induction m with
  | nil =>
    simp only [Memory.write]
    split <;> simp_all [Memory.wf]
  | cons d m ih =>
    obtain ⟨hlt, hd, hm⟩ := Memory.wf_cons.mp h
    simp only [Memory.write]
    split
    · split
      · exact h
      · rename_i hak hv
        refine Memory.wf_cons.mpr ⟨fun c hc => ?_, hv, h⟩
        rcases List.mem_cons.mp hc with rfl | hc
        · exact hak
        · exact Nat.lt_trans hak (hlt c hc)
    · split
      · rename_i hak
        split
        · exact hm
        · rename_i hv
          exact Memory.wf_cons.mpr ⟨fun c hc => hak ▸ hlt c hc, hv, hm⟩
      · refine Memory.wf_cons.mpr ⟨fun c hc => ?_, hd, ih hm⟩
        rcases Memory.mem_write hc with ⟨rfl, -⟩ | hc
        · simp only; omega
        · exact hlt c hc

/-- A write below `size` lists nothing outside it. -/
theorem Memory.within_write {m : Memory} {size : Nat} (h : m.within size) {a : Nat} (ha : a < size) (v : Byte) :
    (m.write a v).within size := by
  intro c hc
  rcases Memory.mem_write hc with ⟨rfl, -⟩ | hc
  · exact ha
  · exact h c hc

/-- Read after write, for a memory in canonical form: the byte written at its offset, every other byte as before. -/
theorem Memory.read_write {m : Memory} (h : m.wf) (a b : Nat) (v : Byte) :
    (m.write a v).read b = if b = a then v else m.read b := by
  induction m with
  | nil =>
    simp only [Memory.write]
    split <;> simp_all [Memory.read]
  | cons d m ih =>
    obtain ⟨hlt, hd, hm⟩ := Memory.wf_cons.mp h
    simp only [Memory.write]
    split
    · rename_i hak
      have hbelow : Memory.read (d :: m) a = Config.unlistedByte :=
        Memory.read_below fun c hc => by
          rcases List.mem_cons.mp hc with rfl | hc
          · exact hak
          · exact Nat.lt_trans hak (hlt c hc)
      split
      · rename_i hv
        split
        · rename_i hb; rw [hb, hbelow, hv]
        · rfl
      · simp [Memory.read]
    · split
      · rename_i hak
        split
        · rename_i hv
          split
          · rename_i hb
            rw [hv, hb]
            exact Memory.read_below fun c hc => hak ▸ hlt c hc
          · rename_i hb
            have : ¬ b = d.1 := fun e => hb (e.trans hak.symm)
            simp [Memory.read, this]
        · by_cases hb : b = a
          · simp [Memory.read, hb]
          · have : ¬ b = d.1 := fun e => hb (e.trans hak.symm)
            simp [Memory.read, hb, this]
      · rename_i hak
        simp only [Memory.read, ih hm]
        by_cases hbd : b = d.1
        · have : ¬ b = a := fun e => hak (e.symm.trans hbd)
          simp [hbd]
          intro e; exact absurd e.symm hak
        · simp [hbd]

/-- Two memories in canonical form that read the same everywhere are equal. -/
theorem Memory.ext_of_wf {m n : Memory} (hm : m.wf) (hn : n.wf) (h : ∀ a, m.read a = n.read a) : m = n := by
  have head_eq : ∀ {d : Host.Cell} {m : Memory}, Memory.read (d :: m) d.1 = d.2 := by
    intro d m; simp [Memory.read]
  induction m generalizing n with
  | nil =>
    cases n with
    | nil => rfl
    | cons d n =>
      have := h d.1
      rw [head_eq] at this
      exact absurd this.symm (Memory.wf_cons.mp hn).2.1
  | cons c m ih =>
    obtain ⟨hclt, hcv, hm'⟩ := Memory.wf_cons.mp hm
    cases n with
    | nil =>
      have := h c.1
      rw [head_eq] at this
      exact absurd this hcv
    | cons d n =>
      obtain ⟨hdlt, hdv, hn'⟩ := Memory.wf_cons.mp hn
      have key : c.1 = d.1 := by
        rcases Nat.lt_trichotomy c.1 d.1 with hlt | he | hlt
        · have := h c.1
          rw [head_eq, Memory.read_below (m := d :: n)] at this
          · exact absurd this hcv
          · intro e he
            rcases List.mem_cons.mp he with rfl | he
            · exact hlt
            · exact Nat.lt_trans hlt (hdlt e he)
        · exact he
        · have := h d.1
          rw [head_eq, Memory.read_below (m := c :: m)] at this
          · exact absurd this.symm hdv
          · intro e he
            rcases List.mem_cons.mp he with rfl | he
            · exact hlt
            · exact Nat.lt_trans hlt (hclt e he)
      have hval : c.2 = d.2 := by
        have := h c.1
        rw [head_eq, key, head_eq] at this
        exact this
      have htail : m = n := by
        refine ih hm' hn' fun a => ?_
        by_cases ha : a = c.1
        · rw [ha, Memory.read_below hclt, key, Memory.read_below hdlt]
        · have := h a
          simpa [Memory.read, ha, key ▸ ha] using this
      rw [htail]
      congr 1
      exact Prod.ext key hval

/-- A store keeps the canonical form. -/
theorem Memory.wf_store {m : Memory} (h : m.wf) (off : Nat) (bs : List Byte) : (m.store off bs).wf := by
  induction bs generalizing m off with
  | nil => exact h
  | cons b bs ih => exact ih (Memory.wf_write h off b) (off + 1)

/-- A store below `size` lists nothing outside it. -/
theorem Memory.within_store {m : Memory} {size : Nat} (h : m.within size) (off : Nat) (bs : List Byte)
    (hb : off + bs.length ≤ size) : (m.store off bs).within size := by
  induction bs generalizing m off with
  | nil => exact h
  | cons b bs ih =>
    simp only [List.length_cons] at hb
    exact ih (Memory.within_write h (by omega) b) (off + 1) (by omega)

/-- What a store leaves to be read: its bytes in order from `off` on, every other byte as before. -/
theorem Memory.read_store {m : Memory} (h : m.wf) (off : Nat) (bs : List Byte) (a : Nat) :
    (m.store off bs).read a = if off ≤ a ∧ a < off + bs.length then bs[a - off]! else m.read a := by
  induction bs generalizing m off with
  | nil => simp [Memory.store]
  | cons b bs ih =>
    rw [Memory.store, ih (Memory.wf_write h off b), Memory.read_write h]
    simp only [List.length_cons]
    by_cases h1 : off + 1 ≤ a ∧ a < off + 1 + bs.length
    · have h2 : off ≤ a ∧ a < off + (bs.length + 1) := by omega
      obtain ⟨k, rfl⟩ : ∃ k, a = off + 1 + k := ⟨a - (off + 1), by omega⟩
      rw [if_pos h1, if_pos h2]
      have e1 : off + 1 + k - (off + 1) = k := by omega
      have e2 : off + 1 + k - off = k + 1 := by omega
      rw [e1, e2]
      simp
    · rw [if_neg h1]
      by_cases ha : a = off
      · subst ha; simp
      · rw [if_neg ha, if_neg (by omega)]

theorem Memory.wf_zeroFill {m : Memory} (h : m.wf) (off n : Nat) : (m.zeroFill off n).wf :=
  ⟨h.1.filter _, fun c hc => h.2 c (List.mem_filter.mp hc).1⟩

theorem Memory.within_zeroFill {m : Memory} {size : Nat} (h : m.within size) (off n : Nat) :
    (m.zeroFill off n).within size := fun c hc => h c (List.mem_filter.mp hc).1

/-- What a zero-fill leaves to be read: zero in its range, every other byte as before. -/
theorem Memory.read_zeroFill (m : Memory) (off n a : Nat) :
    (m.zeroFill off n).read a = if off ≤ a ∧ a < off + n then 0#8 else m.read a := by
  induction m with
  | nil => simp [Memory.zeroFill, Memory.read, Config.unlistedByte]
  | cons c m ih =>
    simp only [Memory.zeroFill] at ih ⊢
    rw [List.filter_cons]
    by_cases hc : off ≤ c.1 ∧ c.1 < off + n
    · rw [if_neg (by simp; omega), ih]
      by_cases ha : a = c.1
      · simp [ha, hc]
      · simp [Memory.read, ha]
    · rw [if_pos (by simp; omega)]
      by_cases ha : a = c.1
      · subst ha; simp [Memory.read, hc]
      · simp only [Memory.read, ha, if_false]; exact ih

@[simp] theorem Memory.length_slice (m : Memory) (off n : Nat) : (m.slice off n).length = n := by
  simp [Memory.slice]

theorem Memory.getElem_slice (m : Memory) (off n i : Nat) (h : i < n) : (m.slice off n)[i]! = m.read (off + i) := by
  simp [Memory.slice, h]

/-- The four lanes of a word make the word again. -/
theorem Word.ofBytes_byte (w : Word) : Word.ofBytes (w.byte 0) (w.byte 1) (w.byte 2) (w.byte 3) = w := by
  apply BitVec.eq_of_getLsbD_eq
  intro i hi
  simp only [Word.ofBytes, Word.byte, BitVec.getLsbD_append, BitVec.getLsbD_extractLsb']
  by_cases h1 : i < 8
  · simp [h1]
  by_cases h2 : i - 8 < 8
  · have e : 8 + (i - 8) = i := by omega
    simp [h1, h2, e]
  by_cases h3 : i - 8 - 8 < 8
  · have e : 16 + (i - 8 - 8) = i := by omega
    simp [h1, h2, h3, e]
  · have e : 24 + (i - 8 - 8 - 8) = i := by omega
    have h4 : i - 8 - 8 - 8 < 8 := by omega
    simp [h1, h2, h3, h4, e]

/-- What a put of a word leaves to be read: its four lanes, every other byte as before. -/
theorem Memory.read_putWord {m : Memory} (h : m.wf) (o : Nat) (w : Word) (a : Nat) :
    (m.putWord o w).read a = if o ≤ a ∧ a < o + 4 then w.byte (a - o) else m.read a := by
  rw [Memory.putWord, Memory.read_store h]
  by_cases ha : o ≤ a ∧ a < o + 4
  · obtain ⟨k, rfl⟩ : ∃ k, a = o + k := ⟨a - o, by omega⟩
    have hk : k < 4 := by omega
    have e : o + k - o = k := by omega
    simp only [List.length_cons, List.length_nil, e]
    rw [if_pos (by omega), if_pos (by omega)]
    match k, hk with
    | 0, _ => rfl
    | 1, _ => rfl
    | 2, _ => rfl
    | 3, _ => rfl
  · simp only [List.length_cons, List.length_nil]
    rw [if_neg (by omega), if_neg ha]

/-- Reading back the word that was put. -/
theorem Memory.wordAt_putWord {m : Memory} (h : m.wf) (o : Nat) (w : Word) : (m.putWord o w).wordAt o = w := by
  simp only [Memory.wordAt, Memory.read_putWord h]
  simp only [show o ≤ o ∧ o < o + 4 by omega, show o ≤ o + 1 ∧ o + 1 < o + 4 by omega,
    show o ≤ o + 2 ∧ o + 2 < o + 4 by omega, show o ≤ o + 3 ∧ o + 3 < o + 4 by omega, and_self, if_true,
    show o - o = 0 by omega, show o + 1 - o = 1 by omega, show o + 2 - o = 2 by omega, show o + 3 - o = 3 by omega]
  exact Word.ofBytes_byte w

end Sys2Proof.Machine
end

