-- ==== Sys2Proof/Laws/Flags.lean ====
section
/-! SUPPORT. Setting, clearing and testing one bit of a word, masks of bits, and that well-formed parameters keep the flags
the rules use apart. -/

namespace Sys2Proof.Machine

/-! ## One bit -/

theorem testBit_setBit (w : Word) (i j : Fin 32) :
    testBit (setBit w i) j = (testBit w j || decide (i = j)) := by
  simp [testBit, setBit, Fin.ext_iff, eq_comm (a := j.val)]

theorem testBit_clearBit (w : Word) (i j : Fin 32) :
    testBit (clearBit w i) j = (testBit w j && !decide (i = j)) := by
  simp [testBit, clearBit, Fin.ext_iff, eq_comm (a := j.val)]

/-! ## Masks -/

@[simp] theorem bitMask_nil : bitMask [] = 0#32 := rfl

@[simp] theorem bitMask_cons (i : Fin 32) (is : List (Fin 32)) :
    bitMask (i :: is) = BitVec.twoPow 32 i ||| bitMask is := rfl

/-- A bit of a mask. -/
theorem getLsbD_bitMask (l : List (Fin 32)) (j : Nat) : (bitMask l).getLsbD j = l.any fun i => i.val == j := by
  induction l with
  | nil => simp
  | cons i is ih => simp [ih, BitVec.getLsbD_twoPow, beq_eq_decide]

theorem testBit_bitMask (l : List (Fin 32)) (j : Fin 32) : testBit (bitMask l) j = decide (j ∈ l) := by
  rw [testBit, getLsbD_bitMask, Bool.eq_iff_iff]
  simp [Fin.val_inj]

theorem bitMask_append (l m : List (Fin 32)) : bitMask (l ++ m) = bitMask l ||| bitMask m := by
  induction l with
  | nil => simp
  | cons i is ih => simp [ih, BitVec.or_assoc]

/-- A set bit as a mask. -/
theorem setBit_eq_or (w : Word) (i : Fin 32) : setBit w i = w ||| bitMask [i] := by simp [setBit]

/-- A cleared bit as the complement of a mask. -/
theorem clearBit_eq_and (w : Word) (i : Fin 32) : clearBit w i = w &&& ~~~bitMask [i] := by simp [clearBit]

/-- Two masks ORed in, one after the other, are one mask. -/
theorem or_bitMask_or (w : Word) (l m : List (Fin 32)) : (w ||| bitMask l) ||| bitMask m = w ||| bitMask (l ++ m) := by
  rw [bitMask_append, BitVec.or_assoc]

/-- Two masks cleared, one after the other, are one mask. -/
theorem and_not_bitMask_and (w : Word) (l m : List (Fin 32)) :
    (w &&& ~~~bitMask l) &&& ~~~bitMask m = w &&& ~~~bitMask (l ++ m) := by
  rw [bitMask_append, BitVec.not_or, BitVec.and_assoc]

/-- No bit outside a list of bits: every bit that is set is one of the list's. -/
theorem and_not_bitMask_eq_zero {w : Word} {l : List (Fin 32)} :
    w &&& ~~~bitMask l = 0#32 ↔ ∀ j : Fin 32, testBit w j = true → j ∈ l := by
  constructor
  · intro h j hj
    by_contra hl
    have hb := congrArg (fun v => BitVec.getLsbD v j) h
    have hm : (bitMask l).getLsbD j = false := by simpa [testBit] using (testBit_bitMask l j).trans (decide_eq_false hl)
    rw [BitVec.getLsbD_and, BitVec.getLsbD_not, hm] at hb
    simp only [testBit] at hj
    rw [hj] at hb
    simp at hb
  · intro h
    apply BitVec.eq_of_getLsbD_eq
    intro i hi
    have hb := testBit_bitMask l ⟨i, hi⟩
    have hw := h ⟨i, hi⟩
    simp only [testBit] at hb hw
    cases hv : w.getLsbD i <;> simp_all

/-! ## The flags the rules use -/

/-- The ten flags of the status register that a rule uses (30_encoding.md R93). -/
def StatusFlag.used : List StatusFlag :=
  [.dataRq, .c2Xfer, .bmErr, .bmInt, .mechaInt, .diskPres, .rstState, .mtrNSpin, .headRtrct, .diskChng]

/-- Well-formed `StatusBits` keep the flags the rules use apart. -/
theorem StatusFlag.bit_inj {b : StatusBits} (h : b.wf) {f g : StatusFlag} (hf : f ∈ StatusFlag.used)
    (hg : g ∈ StatusFlag.used) : f.bit b = g.bit b ↔ f = g := by
  have hn : (StatusFlag.used.map fun f => f.bit b).Nodup := h
  exact ⟨fun e => List.inj_on_of_nodup_map hn hf hg e, fun e => e ▸ rfl⟩

/-- Well-formed `BmStatusBits` keep RUNNING and BLOCK apart. -/
theorem BmFlag.running_ne_block {b : BmStatusBits} (h : b.wf) : BmFlag.running.bit b ≠ BmFlag.block.bit b := h

end Sys2Proof.Machine
end

