-- ==== Sys2Proof/Laws/Words.lean ====
section
/-! SUPPORT. Words by number: read after write, the canonical form, and that canonical lists that read alike are equal. -/

namespace Sys2Proof.Machine

@[simp] theorem Words.read_nil (n : Nat) : Words.read [] n = Config.unlistedWord := by simp [Words.read]

@[simp] theorem Words.read_zero (ws : Words) : ws.read 0 = ws.head?.getD Config.unlistedWord := by
  cases ws <;> simp [Words.read]

@[simp] theorem Words.read_succ (ws : Words) (n : Nat) : ws.read (n + 1) = Words.read ws.tail n := by
  cases ws <;> simp [Words.read]

@[simp] theorem Words.head?_cons (w : Word) (ws : Words) : (Words.cons w ws).head?.getD Config.unlistedWord = w := by
  unfold Words.cons
  split <;> simp [*]

@[simp] theorem Words.tail_cons (w : Word) (ws : Words) : (Words.cons w ws).tail = ws := by
  unfold Words.cons
  split <;> simp [*]

@[simp] theorem Words.read_trim (ws : Words) (n : Nat) : ws.trim.read n = ws.read n := by
  induction ws generalizing n with
  | nil => simp [Words.trim]
  | cons w ws ih => cases n <;> simp [Words.trim, ih]

/-- Read after write. -/
@[simp] theorem Words.read_write (ws : Words) (a b : Nat) (v : Word) :
    (ws.write a v).read b = if b = a then v else ws.read b := by
  induction a generalizing ws b with
  | zero => cases b <;> simp [Words.write]
  | succ a ih => cases b <;> simp [Words.write, ih]

theorem Words.wf_cons {w : Word} {ws : Words} (h : ws.wf) : (Words.cons w ws).wf := by
  unfold Words.cons
  split
  · simp
  · cases ws with
    | nil => simp_all
    | cons x xs => simpa [List.getLast?_cons_cons] using h

theorem Words.wf_trim (ws : Words) : ws.trim.wf := by
  induction ws with
  | nil => simp [Words.trim]
  | cons w ws ih => exact Words.wf_cons ih

/-- A write leaves the canonical form. -/
theorem Words.wf_write (ws : Words) (a : Nat) (v : Word) : (ws.write a v).wf := by
  induction a generalizing ws with
  | zero => exact Words.wf_cons (Words.wf_trim _)
  | succ a ih => exact Words.wf_cons (ih _)

/-- The canonical form goes down to the tail. -/
theorem Words.wf_tail {w : Word} {ws : Words} (h : Words.wf (w :: ws)) : ws.wf := by
  cases ws with
  | nil => simp
  | cons x xs => simpa [List.getLast?_cons_cons] using h

/-- A canonical list all of whose words read as unlisted ones is empty. -/
theorem Words.eq_nil_of_read {ws : Words} (h : ws.wf) (hr : ∀ n, ws.read n = Config.unlistedWord) : ws = [] := by
  induction ws with
  | nil => rfl
  | cons w ws ih =>
    have ht := ih (Words.wf_tail h) fun n => by simpa using hr (n + 1)
    subst ht
    exact absurd (by simpa using hr 0) (by simpa using h)

/-- Canonical lists that read alike are equal. -/
theorem Words.ext_read {ws xs : Words} (h : ws.wf) (h' : xs.wf) (hr : ∀ n, ws.read n = xs.read n) : ws = xs := by
  induction ws generalizing xs with
  | nil => exact (Words.eq_nil_of_read h' fun n => by simpa using (hr n).symm).symm
  | cons w ws ih =>
    cases xs with
    | nil => exact Words.eq_nil_of_read h fun n => by simpa using hr n
    | cons x xs =>
      have h0 := hr 0
      have ht := ih (Words.wf_tail h) (Words.wf_tail h') fun n => by simpa using hr (n + 1)
      simp only [Words.read_zero, List.head?_cons, Option.getD_some] at h0
      rw [h0, ht]

/-- Of two writes to one number the second stands. -/
theorem Words.write_write (ws : Words) (a : Nat) (v w : Word) : (ws.write a v).write a w = ws.write a w :=
  Words.ext_read (Words.wf_write _ _ _) (Words.wf_write _ _ _) fun n => by by_cases h : n = a <;> simp [h]

/-- Writes to two numbers in either order. -/
theorem Words.write_comm (ws : Words) {a b : Nat} (h : a ≠ b) (v w : Word) :
    (ws.write a v).write b w = (ws.write b w).write a v :=
  Words.ext_read (Words.wf_write _ _ _) (Words.wf_write _ _ _) fun n => by
    by_cases ha : n = a
    · subst ha; simp [h]
    · simp [ha]

/-- Writing a word that is there already changes a canonical list nowhere. -/
theorem Words.write_read {ws : Words} (h : ws.wf) (a : Nat) : ws.write a (ws.read a) = ws :=
  Words.ext_read (Words.wf_write _ _ _) h fun n => by by_cases h : n = a <;> simp [h]

end Sys2Proof.Machine
end

