-- ==== Sys2Proof/Laws/State.lean ====
section
/-! SUPPORT. One lemma per field of State per named update, and the register and flag views of each update. -/

namespace Sys2Proof.Machine

/-! ## The register file -/

@[simp] theorem Regs.get_set (rs : Regs) (r q : Reg) (v : Word) :
    (rs.set r v).get q = if q = r then v else rs.get q := by
  cases r <;> cases q <;> simp [Regs.set, Regs.get]

/-- A write leaves the further registers in canonical form. -/
theorem Regs.wf_set {rs : Regs} (h : rs.others.wf) (r : Reg) (v : Word) : (rs.set r v).others.wf := by
  cases r <;> first | exact h | exact Words.wf_write _ _ _

/-- Register files whose further registers are the same list and that read alike are equal. -/
theorem Regs.ext_others {a b : Regs} (ho : a.others = b.others) (h : ∀ r, a.get r = b.get r) : a = b := by
  cases a; cases b
  simp only [Regs.mk.injEq]
  exact ⟨h .data, h .miscReg, h .cmdStatus, h .curTk, h .bmStatusCtl, h .errSector, h .seqStatusCtl, h .curSector,
    h .hardReset, h .c1S0, h .hostSecbyte, h .c1S2, h .secByte, h .c1S4, h .c1S6, h .curAddr, h .idReg, h .testReg,
    h .testPinSel, ho⟩

/-- Canonical register files that read alike are equal. -/
theorem Regs.ext_get {a b : Regs} (ha : a.others.wf) (hb : b.others.wf) (h : ∀ r, a.get r = b.get r) : a = b :=
  Regs.ext_others (Words.ext_read ha hb fun n => h (.other n)) h

@[simp] theorem State.reg_mk (rs : Regs) (se : Session) (c2 ds ms : Memory) (img : Image) (ipl : Option Image)
    (irq : Bool) (tr : List Event) (f : Option Fault) (p : Params) (po : Port) (r : Reg) :
    (State.mk rs se c2 ds ms img ipl irq tr f p po).reg r = rs.get r := rfl

/-! ## setReg -/

@[simp] theorem State.regs_setReg (s : State) (r : Reg) (v : Word) : (s.setReg r v).regs = s.regs.set r v := rfl
@[simp] theorem State.session_setReg (s : State) (r : Reg) (v : Word) : (s.setReg r v).session = s.session := rfl
@[simp] theorem State.c2_setReg (s : State) (r : Reg) (v : Word) : (s.setReg r v).c2 = s.c2 := rfl
@[simp] theorem State.ds_setReg (s : State) (r : Reg) (v : Word) : (s.setReg r v).ds = s.ds := rfl
@[simp] theorem State.ms_setReg (s : State) (r : Reg) (v : Word) : (s.setReg r v).ms = s.ms := rfl
@[simp] theorem State.img_setReg (s : State) (r : Reg) (v : Word) : (s.setReg r v).img = s.img := rfl
@[simp] theorem State.ipl_setReg (s : State) (r : Reg) (v : Word) : (s.setReg r v).ipl = s.ipl := rfl
@[simp] theorem State.irq_setReg (s : State) (r : Reg) (v : Word) : (s.setReg r v).irq = s.irq := rfl
@[simp] theorem State.trace_setReg (s : State) (r : Reg) (v : Word) : (s.setReg r v).trace = s.trace := rfl
@[simp] theorem State.fault_setReg (s : State) (r : Reg) (v : Word) : (s.setReg r v).fault = s.fault := rfl
@[simp] theorem State.params_setReg (s : State) (r : Reg) (v : Word) : (s.setReg r v).params = s.params := rfl
@[simp] theorem State.port_setReg (s : State) (r : Reg) (v : Word) : (s.setReg r v).port = s.port := rfl
@[simp] theorem State.reg_setReg (s : State) (r : Reg) (v : Word) (q : Reg) : (s.setReg r v).reg q = if q = r then v else s.reg q :=
  Regs.get_set ..

/-! ## setStatus -/

@[simp] theorem State.regs_setStatus (s : State) (f : StatusFlag) : (s.setStatus f).regs = s.regs.set .cmdStatus (setBit (s.reg .cmdStatus) (f.bit s.params.statusBits)) := rfl
@[simp] theorem State.session_setStatus (s : State) (f : StatusFlag) : (s.setStatus f).session = s.session := rfl
@[simp] theorem State.c2_setStatus (s : State) (f : StatusFlag) : (s.setStatus f).c2 = s.c2 := rfl
@[simp] theorem State.ds_setStatus (s : State) (f : StatusFlag) : (s.setStatus f).ds = s.ds := rfl
@[simp] theorem State.ms_setStatus (s : State) (f : StatusFlag) : (s.setStatus f).ms = s.ms := rfl
@[simp] theorem State.img_setStatus (s : State) (f : StatusFlag) : (s.setStatus f).img = s.img := rfl
@[simp] theorem State.ipl_setStatus (s : State) (f : StatusFlag) : (s.setStatus f).ipl = s.ipl := rfl
@[simp] theorem State.irq_setStatus (s : State) (f : StatusFlag) : (s.setStatus f).irq = s.irq := rfl
@[simp] theorem State.trace_setStatus (s : State) (f : StatusFlag) : (s.setStatus f).trace = s.trace := rfl
@[simp] theorem State.fault_setStatus (s : State) (f : StatusFlag) : (s.setStatus f).fault = s.fault := rfl
@[simp] theorem State.params_setStatus (s : State) (f : StatusFlag) : (s.setStatus f).params = s.params := rfl
@[simp] theorem State.port_setStatus (s : State) (f : StatusFlag) : (s.setStatus f).port = s.port := rfl
@[simp] theorem State.reg_setStatus (s : State) (f : StatusFlag) (q : Reg) :
    (s.setStatus f).reg q = if q = .cmdStatus then setBit (s.reg .cmdStatus) (f.bit s.params.statusBits) else s.reg q := Regs.get_set ..
@[simp] theorem State.status_setStatus (s : State) (f : StatusFlag) (g : StatusFlag) :
    (s.setStatus f).status g = (s.status g || decide (f.bit s.params.statusBits = g.bit s.params.statusBits)) := by
  simp [State.status, testBit_setBit]
@[simp] theorem State.bm_setStatus (s : State) (f : StatusFlag) (g : BmFlag) : (s.setStatus f).bm g = s.bm g := by
  simp [State.bm]

/-! ## clearStatus -/

@[simp] theorem State.regs_clearStatus (s : State) (f : StatusFlag) : (s.clearStatus f).regs = s.regs.set .cmdStatus (clearBit (s.reg .cmdStatus) (f.bit s.params.statusBits)) := rfl
@[simp] theorem State.session_clearStatus (s : State) (f : StatusFlag) : (s.clearStatus f).session = s.session := rfl
@[simp] theorem State.c2_clearStatus (s : State) (f : StatusFlag) : (s.clearStatus f).c2 = s.c2 := rfl
@[simp] theorem State.ds_clearStatus (s : State) (f : StatusFlag) : (s.clearStatus f).ds = s.ds := rfl
@[simp] theorem State.ms_clearStatus (s : State) (f : StatusFlag) : (s.clearStatus f).ms = s.ms := rfl
@[simp] theorem State.img_clearStatus (s : State) (f : StatusFlag) : (s.clearStatus f).img = s.img := rfl
@[simp] theorem State.ipl_clearStatus (s : State) (f : StatusFlag) : (s.clearStatus f).ipl = s.ipl := rfl
@[simp] theorem State.irq_clearStatus (s : State) (f : StatusFlag) : (s.clearStatus f).irq = s.irq := rfl
@[simp] theorem State.trace_clearStatus (s : State) (f : StatusFlag) : (s.clearStatus f).trace = s.trace := rfl
@[simp] theorem State.fault_clearStatus (s : State) (f : StatusFlag) : (s.clearStatus f).fault = s.fault := rfl
@[simp] theorem State.params_clearStatus (s : State) (f : StatusFlag) : (s.clearStatus f).params = s.params := rfl
@[simp] theorem State.port_clearStatus (s : State) (f : StatusFlag) : (s.clearStatus f).port = s.port := rfl
@[simp] theorem State.reg_clearStatus (s : State) (f : StatusFlag) (q : Reg) :
    (s.clearStatus f).reg q = if q = .cmdStatus then clearBit (s.reg .cmdStatus) (f.bit s.params.statusBits) else s.reg q := Regs.get_set ..
@[simp] theorem State.status_clearStatus (s : State) (f : StatusFlag) (g : StatusFlag) :
    (s.clearStatus f).status g = (s.status g && !decide (f.bit s.params.statusBits = g.bit s.params.statusBits)) := by
  simp [State.status, testBit_clearBit]
@[simp] theorem State.bm_clearStatus (s : State) (f : StatusFlag) (g : BmFlag) : (s.clearStatus f).bm g = s.bm g := by
  simp [State.bm]

/-! ## setBm -/

@[simp] theorem State.regs_setBm (s : State) (f : BmFlag) : (s.setBm f).regs = s.regs.set .bmStatusCtl (setBit (s.reg .bmStatusCtl) (f.bit s.params.bmStatusBits)) := rfl
@[simp] theorem State.session_setBm (s : State) (f : BmFlag) : (s.setBm f).session = s.session := rfl
@[simp] theorem State.c2_setBm (s : State) (f : BmFlag) : (s.setBm f).c2 = s.c2 := rfl
@[simp] theorem State.ds_setBm (s : State) (f : BmFlag) : (s.setBm f).ds = s.ds := rfl
@[simp] theorem State.ms_setBm (s : State) (f : BmFlag) : (s.setBm f).ms = s.ms := rfl
@[simp] theorem State.img_setBm (s : State) (f : BmFlag) : (s.setBm f).img = s.img := rfl
@[simp] theorem State.ipl_setBm (s : State) (f : BmFlag) : (s.setBm f).ipl = s.ipl := rfl
@[simp] theorem State.irq_setBm (s : State) (f : BmFlag) : (s.setBm f).irq = s.irq := rfl
@[simp] theorem State.trace_setBm (s : State) (f : BmFlag) : (s.setBm f).trace = s.trace := rfl
@[simp] theorem State.fault_setBm (s : State) (f : BmFlag) : (s.setBm f).fault = s.fault := rfl
@[simp] theorem State.params_setBm (s : State) (f : BmFlag) : (s.setBm f).params = s.params := rfl
@[simp] theorem State.port_setBm (s : State) (f : BmFlag) : (s.setBm f).port = s.port := rfl
@[simp] theorem State.reg_setBm (s : State) (f : BmFlag) (q : Reg) :
    (s.setBm f).reg q = if q = .bmStatusCtl then setBit (s.reg .bmStatusCtl) (f.bit s.params.bmStatusBits) else s.reg q := Regs.get_set ..
@[simp] theorem State.bm_setBm (s : State) (f : BmFlag) (g : BmFlag) : (s.setBm f).bm g = (s.bm g || decide (f.bit s.params.bmStatusBits = g.bit s.params.bmStatusBits)) := by
  simp [State.bm, testBit_setBit]
@[simp] theorem State.status_setBm (s : State) (f : BmFlag) (g : StatusFlag) : (s.setBm f).status g = s.status g := by
  simp [State.status]

/-! ## clearBm -/

@[simp] theorem State.regs_clearBm (s : State) (f : BmFlag) : (s.clearBm f).regs = s.regs.set .bmStatusCtl (clearBit (s.reg .bmStatusCtl) (f.bit s.params.bmStatusBits)) := rfl
@[simp] theorem State.session_clearBm (s : State) (f : BmFlag) : (s.clearBm f).session = s.session := rfl
@[simp] theorem State.c2_clearBm (s : State) (f : BmFlag) : (s.clearBm f).c2 = s.c2 := rfl
@[simp] theorem State.ds_clearBm (s : State) (f : BmFlag) : (s.clearBm f).ds = s.ds := rfl
@[simp] theorem State.ms_clearBm (s : State) (f : BmFlag) : (s.clearBm f).ms = s.ms := rfl
@[simp] theorem State.img_clearBm (s : State) (f : BmFlag) : (s.clearBm f).img = s.img := rfl
@[simp] theorem State.ipl_clearBm (s : State) (f : BmFlag) : (s.clearBm f).ipl = s.ipl := rfl
@[simp] theorem State.irq_clearBm (s : State) (f : BmFlag) : (s.clearBm f).irq = s.irq := rfl
@[simp] theorem State.trace_clearBm (s : State) (f : BmFlag) : (s.clearBm f).trace = s.trace := rfl
@[simp] theorem State.fault_clearBm (s : State) (f : BmFlag) : (s.clearBm f).fault = s.fault := rfl
@[simp] theorem State.params_clearBm (s : State) (f : BmFlag) : (s.clearBm f).params = s.params := rfl
@[simp] theorem State.port_clearBm (s : State) (f : BmFlag) : (s.clearBm f).port = s.port := rfl
@[simp] theorem State.reg_clearBm (s : State) (f : BmFlag) (q : Reg) :
    (s.clearBm f).reg q = if q = .bmStatusCtl then clearBit (s.reg .bmStatusCtl) (f.bit s.params.bmStatusBits) else s.reg q := Regs.get_set ..
@[simp] theorem State.bm_clearBm (s : State) (f : BmFlag) (g : BmFlag) : (s.clearBm f).bm g = (s.bm g && !decide (f.bit s.params.bmStatusBits = g.bit s.params.bmStatusBits)) := by
  simp [State.bm, testBit_clearBit]
@[simp] theorem State.status_clearBm (s : State) (f : BmFlag) (g : StatusFlag) : (s.clearBm f).status g = s.status g := by
  simp [State.status]

/-! ## setResetHold -/

@[simp] theorem State.regs_setResetHold (s : State) (b : Bool) : (s.setResetHold b).regs = s.regs := rfl
@[simp] theorem State.session_setResetHold (s : State) (b : Bool) : (s.setResetHold b).session = { s.session with resetHold := b } := rfl
@[simp] theorem State.c2_setResetHold (s : State) (b : Bool) : (s.setResetHold b).c2 = s.c2 := rfl
@[simp] theorem State.ds_setResetHold (s : State) (b : Bool) : (s.setResetHold b).ds = s.ds := rfl
@[simp] theorem State.ms_setResetHold (s : State) (b : Bool) : (s.setResetHold b).ms = s.ms := rfl
@[simp] theorem State.img_setResetHold (s : State) (b : Bool) : (s.setResetHold b).img = s.img := rfl
@[simp] theorem State.ipl_setResetHold (s : State) (b : Bool) : (s.setResetHold b).ipl = s.ipl := rfl
@[simp] theorem State.irq_setResetHold (s : State) (b : Bool) : (s.setResetHold b).irq = s.irq := rfl
@[simp] theorem State.trace_setResetHold (s : State) (b : Bool) : (s.setResetHold b).trace = s.trace := rfl
@[simp] theorem State.fault_setResetHold (s : State) (b : Bool) : (s.setResetHold b).fault = s.fault := rfl
@[simp] theorem State.params_setResetHold (s : State) (b : Bool) : (s.setResetHold b).params = s.params := rfl
@[simp] theorem State.port_setResetHold (s : State) (b : Bool) : (s.setResetHold b).port = s.port := rfl
@[simp] theorem State.reg_setResetHold (s : State) (b : Bool) (q : Reg) : (s.setResetHold b).reg q = s.reg q := rfl
@[simp] theorem State.status_setResetHold (s : State) (b : Bool) (g : StatusFlag) : (s.setResetHold b).status g = s.status g := rfl
@[simp] theorem State.bm_setResetHold (s : State) (b : Bool) (g : BmFlag) : (s.setResetHold b).bm g = s.bm g := rfl

/-! ## setModeRead -/

@[simp] theorem State.regs_setModeRead (s : State) (b : Bool) : (s.setModeRead b).regs = s.regs := rfl
@[simp] theorem State.session_setModeRead (s : State) (b : Bool) : (s.setModeRead b).session = { s.session with modeRead := b } := rfl
@[simp] theorem State.c2_setModeRead (s : State) (b : Bool) : (s.setModeRead b).c2 = s.c2 := rfl
@[simp] theorem State.ds_setModeRead (s : State) (b : Bool) : (s.setModeRead b).ds = s.ds := rfl
@[simp] theorem State.ms_setModeRead (s : State) (b : Bool) : (s.setModeRead b).ms = s.ms := rfl
@[simp] theorem State.img_setModeRead (s : State) (b : Bool) : (s.setModeRead b).img = s.img := rfl
@[simp] theorem State.ipl_setModeRead (s : State) (b : Bool) : (s.setModeRead b).ipl = s.ipl := rfl
@[simp] theorem State.irq_setModeRead (s : State) (b : Bool) : (s.setModeRead b).irq = s.irq := rfl
@[simp] theorem State.trace_setModeRead (s : State) (b : Bool) : (s.setModeRead b).trace = s.trace := rfl
@[simp] theorem State.fault_setModeRead (s : State) (b : Bool) : (s.setModeRead b).fault = s.fault := rfl
@[simp] theorem State.params_setModeRead (s : State) (b : Bool) : (s.setModeRead b).params = s.params := rfl
@[simp] theorem State.port_setModeRead (s : State) (b : Bool) : (s.setModeRead b).port = s.port := rfl
@[simp] theorem State.reg_setModeRead (s : State) (b : Bool) (q : Reg) : (s.setModeRead b).reg q = s.reg q := rfl
@[simp] theorem State.status_setModeRead (s : State) (b : Bool) (g : StatusFlag) : (s.setModeRead b).status g = s.status g := rfl
@[simp] theorem State.bm_setModeRead (s : State) (b : Bool) (g : BmFlag) : (s.setModeRead b).bm g = s.bm g := rfl

/-! ## setBlock -/

@[simp] theorem State.regs_setBlock (s : State) (b : Fin 2) : (s.setBlock b).regs = s.regs := rfl
@[simp] theorem State.session_setBlock (s : State) (b : Fin 2) : (s.setBlock b).session = { s.session with currentBlock := b } := rfl
@[simp] theorem State.c2_setBlock (s : State) (b : Fin 2) : (s.setBlock b).c2 = s.c2 := rfl
@[simp] theorem State.ds_setBlock (s : State) (b : Fin 2) : (s.setBlock b).ds = s.ds := rfl
@[simp] theorem State.ms_setBlock (s : State) (b : Fin 2) : (s.setBlock b).ms = s.ms := rfl
@[simp] theorem State.img_setBlock (s : State) (b : Fin 2) : (s.setBlock b).img = s.img := rfl
@[simp] theorem State.ipl_setBlock (s : State) (b : Fin 2) : (s.setBlock b).ipl = s.ipl := rfl
@[simp] theorem State.irq_setBlock (s : State) (b : Fin 2) : (s.setBlock b).irq = s.irq := rfl
@[simp] theorem State.trace_setBlock (s : State) (b : Fin 2) : (s.setBlock b).trace = s.trace := rfl
@[simp] theorem State.fault_setBlock (s : State) (b : Fin 2) : (s.setBlock b).fault = s.fault := rfl
@[simp] theorem State.params_setBlock (s : State) (b : Fin 2) : (s.setBlock b).params = s.params := rfl
@[simp] theorem State.port_setBlock (s : State) (b : Fin 2) : (s.setBlock b).port = s.port := rfl
@[simp] theorem State.reg_setBlock (s : State) (b : Fin 2) (q : Reg) : (s.setBlock b).reg q = s.reg q := rfl
@[simp] theorem State.status_setBlock (s : State) (b : Fin 2) (g : StatusFlag) : (s.setBlock b).status g = s.status g := rfl
@[simp] theorem State.bm_setBlock (s : State) (b : Fin 2) (g : BmFlag) : (s.setBlock b).bm g = s.bm g := rfl

/-! ## setGeometry -/

@[simp] theorem State.regs_setGeometry (s : State) (z : Fin 16) (w : Word) : (s.setGeometry z w).regs = s.regs := rfl
@[simp] theorem State.session_setGeometry (s : State) (z : Fin 16) (w : Word) : (s.setGeometry z w).session = { s.session with zone := z, trackByteOffset := w } := rfl
@[simp] theorem State.c2_setGeometry (s : State) (z : Fin 16) (w : Word) : (s.setGeometry z w).c2 = s.c2 := rfl
@[simp] theorem State.ds_setGeometry (s : State) (z : Fin 16) (w : Word) : (s.setGeometry z w).ds = s.ds := rfl
@[simp] theorem State.ms_setGeometry (s : State) (z : Fin 16) (w : Word) : (s.setGeometry z w).ms = s.ms := rfl
@[simp] theorem State.img_setGeometry (s : State) (z : Fin 16) (w : Word) : (s.setGeometry z w).img = s.img := rfl
@[simp] theorem State.ipl_setGeometry (s : State) (z : Fin 16) (w : Word) : (s.setGeometry z w).ipl = s.ipl := rfl
@[simp] theorem State.irq_setGeometry (s : State) (z : Fin 16) (w : Word) : (s.setGeometry z w).irq = s.irq := rfl
@[simp] theorem State.trace_setGeometry (s : State) (z : Fin 16) (w : Word) : (s.setGeometry z w).trace = s.trace := rfl
@[simp] theorem State.fault_setGeometry (s : State) (z : Fin 16) (w : Word) : (s.setGeometry z w).fault = s.fault := rfl
@[simp] theorem State.params_setGeometry (s : State) (z : Fin 16) (w : Word) : (s.setGeometry z w).params = s.params := rfl
@[simp] theorem State.port_setGeometry (s : State) (z : Fin 16) (w : Word) : (s.setGeometry z w).port = s.port := rfl
@[simp] theorem State.reg_setGeometry (s : State) (z : Fin 16) (w : Word) (q : Reg) : (s.setGeometry z w).reg q = s.reg q := rfl
@[simp] theorem State.status_setGeometry (s : State) (z : Fin 16) (w : Word) (g : StatusFlag) : (s.setGeometry z w).status g = s.status g := rfl
@[simp] theorem State.bm_setGeometry (s : State) (z : Fin 16) (w : Word) (g : BmFlag) : (s.setGeometry z w).bm g = s.bm g := rfl

/-! ## setSkip89 -/

@[simp] theorem State.regs_setSkip89 (s : State) (b : Bool) : (s.setSkip89 b).regs = s.regs := rfl
@[simp] theorem State.session_setSkip89 (s : State) (b : Bool) : (s.setSkip89 b).session = { s.session with skip89 := b } := rfl
@[simp] theorem State.c2_setSkip89 (s : State) (b : Bool) : (s.setSkip89 b).c2 = s.c2 := rfl
@[simp] theorem State.ds_setSkip89 (s : State) (b : Bool) : (s.setSkip89 b).ds = s.ds := rfl
@[simp] theorem State.ms_setSkip89 (s : State) (b : Bool) : (s.setSkip89 b).ms = s.ms := rfl
@[simp] theorem State.img_setSkip89 (s : State) (b : Bool) : (s.setSkip89 b).img = s.img := rfl
@[simp] theorem State.ipl_setSkip89 (s : State) (b : Bool) : (s.setSkip89 b).ipl = s.ipl := rfl
@[simp] theorem State.irq_setSkip89 (s : State) (b : Bool) : (s.setSkip89 b).irq = s.irq := rfl
@[simp] theorem State.trace_setSkip89 (s : State) (b : Bool) : (s.setSkip89 b).trace = s.trace := rfl
@[simp] theorem State.fault_setSkip89 (s : State) (b : Bool) : (s.setSkip89 b).fault = s.fault := rfl
@[simp] theorem State.params_setSkip89 (s : State) (b : Bool) : (s.setSkip89 b).params = s.params := rfl
@[simp] theorem State.port_setSkip89 (s : State) (b : Bool) : (s.setSkip89 b).port = s.port := rfl
@[simp] theorem State.reg_setSkip89 (s : State) (b : Bool) (q : Reg) : (s.setSkip89 b).reg q = s.reg q := rfl
@[simp] theorem State.status_setSkip89 (s : State) (b : Bool) (g : StatusFlag) : (s.setSkip89 b).status g = s.status g := rfl
@[simp] theorem State.bm_setSkip89 (s : State) (b : Bool) (g : BmFlag) : (s.setSkip89 b).bm g = s.bm g := rfl

/-! ## emit -/

@[simp] theorem State.regs_emit (s : State) (e : Event) : (s.emit e).regs = s.regs := rfl
@[simp] theorem State.session_emit (s : State) (e : Event) : (s.emit e).session = s.session := rfl
@[simp] theorem State.c2_emit (s : State) (e : Event) : (s.emit e).c2 = s.c2 := rfl
@[simp] theorem State.ds_emit (s : State) (e : Event) : (s.emit e).ds = s.ds := rfl
@[simp] theorem State.ms_emit (s : State) (e : Event) : (s.emit e).ms = s.ms := rfl
@[simp] theorem State.img_emit (s : State) (e : Event) : (s.emit e).img = s.img := rfl
@[simp] theorem State.ipl_emit (s : State) (e : Event) : (s.emit e).ipl = s.ipl := rfl
@[simp] theorem State.irq_emit (s : State) (e : Event) : (s.emit e).irq = s.irq := rfl
@[simp] theorem State.trace_emit (s : State) (e : Event) : (s.emit e).trace = s.trace ++ [e] := rfl
@[simp] theorem State.fault_emit (s : State) (e : Event) : (s.emit e).fault = s.fault := rfl
@[simp] theorem State.params_emit (s : State) (e : Event) : (s.emit e).params = s.params := rfl
@[simp] theorem State.port_emit (s : State) (e : Event) : (s.emit e).port = s.port := rfl
@[simp] theorem State.reg_emit (s : State) (e : Event) (q : Reg) : (s.emit e).reg q = s.reg q := rfl
@[simp] theorem State.status_emit (s : State) (e : Event) (g : StatusFlag) : (s.emit e).status g = s.status g := rfl
@[simp] theorem State.bm_emit (s : State) (e : Event) (g : BmFlag) : (s.emit e).bm g = s.bm g := rfl

/-! ## signalIrq -/

@[simp] theorem State.regs_signalIrq (s : State) : (s.signalIrq).regs = s.regs := rfl
@[simp] theorem State.session_signalIrq (s : State) : (s.signalIrq).session = s.session := rfl
@[simp] theorem State.c2_signalIrq (s : State) : (s.signalIrq).c2 = s.c2 := rfl
@[simp] theorem State.ds_signalIrq (s : State) : (s.signalIrq).ds = s.ds := rfl
@[simp] theorem State.ms_signalIrq (s : State) : (s.signalIrq).ms = s.ms := rfl
@[simp] theorem State.img_signalIrq (s : State) : (s.signalIrq).img = s.img := rfl
@[simp] theorem State.ipl_signalIrq (s : State) : (s.signalIrq).ipl = s.ipl := rfl
@[simp] theorem State.irq_signalIrq (s : State) : (s.signalIrq).irq = true := rfl
@[simp] theorem State.trace_signalIrq (s : State) : (s.signalIrq).trace = s.trace ++ [.signal] := rfl
@[simp] theorem State.fault_signalIrq (s : State) : (s.signalIrq).fault = s.fault := rfl
@[simp] theorem State.params_signalIrq (s : State) : (s.signalIrq).params = s.params := rfl
@[simp] theorem State.port_signalIrq (s : State) : (s.signalIrq).port = s.port := rfl
@[simp] theorem State.reg_signalIrq (s : State) (q : Reg) : (s.signalIrq).reg q = s.reg q := rfl
@[simp] theorem State.status_signalIrq (s : State) (g : StatusFlag) : (s.signalIrq).status g = s.status g := rfl
@[simp] theorem State.bm_signalIrq (s : State) (g : BmFlag) : (s.signalIrq).bm g = s.bm g := rfl

/-! ## clearIrq -/

@[simp] theorem State.regs_clearIrq (s : State) : (s.clearIrq).regs = s.regs := rfl
@[simp] theorem State.session_clearIrq (s : State) : (s.clearIrq).session = s.session := rfl
@[simp] theorem State.c2_clearIrq (s : State) : (s.clearIrq).c2 = s.c2 := rfl
@[simp] theorem State.ds_clearIrq (s : State) : (s.clearIrq).ds = s.ds := rfl
@[simp] theorem State.ms_clearIrq (s : State) : (s.clearIrq).ms = s.ms := rfl
@[simp] theorem State.img_clearIrq (s : State) : (s.clearIrq).img = s.img := rfl
@[simp] theorem State.ipl_clearIrq (s : State) : (s.clearIrq).ipl = s.ipl := rfl
@[simp] theorem State.irq_clearIrq (s : State) : (s.clearIrq).irq = false := rfl
@[simp] theorem State.trace_clearIrq (s : State) : (s.clearIrq).trace = s.trace ++ [.clear] := rfl
@[simp] theorem State.fault_clearIrq (s : State) : (s.clearIrq).fault = s.fault := rfl
@[simp] theorem State.params_clearIrq (s : State) : (s.clearIrq).params = s.params := rfl
@[simp] theorem State.port_clearIrq (s : State) : (s.clearIrq).port = s.port := rfl
@[simp] theorem State.reg_clearIrq (s : State) (q : Reg) : (s.clearIrq).reg q = s.reg q := rfl
@[simp] theorem State.status_clearIrq (s : State) (g : StatusFlag) : (s.clearIrq).status g = s.status g := rfl
@[simp] theorem State.bm_clearIrq (s : State) (g : BmFlag) : (s.clearIrq).bm g = s.bm g := rfl

/-! ## raise -/

@[simp] theorem State.regs_raise (s : State) (f : Fault) : (s.raise f).regs = s.regs := rfl
@[simp] theorem State.session_raise (s : State) (f : Fault) : (s.raise f).session = s.session := rfl
@[simp] theorem State.c2_raise (s : State) (f : Fault) : (s.raise f).c2 = s.c2 := rfl
@[simp] theorem State.ds_raise (s : State) (f : Fault) : (s.raise f).ds = s.ds := rfl
@[simp] theorem State.ms_raise (s : State) (f : Fault) : (s.raise f).ms = s.ms := rfl
@[simp] theorem State.img_raise (s : State) (f : Fault) : (s.raise f).img = s.img := rfl
@[simp] theorem State.ipl_raise (s : State) (f : Fault) : (s.raise f).ipl = s.ipl := rfl
@[simp] theorem State.irq_raise (s : State) (f : Fault) : (s.raise f).irq = s.irq := rfl
@[simp] theorem State.trace_raise (s : State) (f : Fault) : (s.raise f).trace = s.trace := rfl
@[simp] theorem State.fault_raise (s : State) (f : Fault) : (s.raise f).fault = some f := rfl
@[simp] theorem State.params_raise (s : State) (f : Fault) : (s.raise f).params = s.params := rfl
@[simp] theorem State.port_raise (s : State) (f : Fault) : (s.raise f).port = s.port := rfl
@[simp] theorem State.reg_raise (s : State) (f : Fault) (q : Reg) : (s.raise f).reg q = s.reg q := rfl
@[simp] theorem State.status_raise (s : State) (f : Fault) (g : StatusFlag) : (s.raise f).status g = s.status g := rfl
@[simp] theorem State.bm_raise (s : State) (f : Fault) (g : BmFlag) : (s.raise f).bm g = s.bm g := rfl

/-! ## zeroC2 -/

@[simp] theorem State.regs_zeroC2 (s : State) : (s.zeroC2).regs = s.regs := rfl
@[simp] theorem State.session_zeroC2 (s : State) : (s.zeroC2).session = s.session := rfl
@[simp] theorem State.c2_zeroC2 (s : State) : (s.zeroC2).c2 = s.c2.zeroFill 0 s.params.bus.c2Size := rfl
@[simp] theorem State.ds_zeroC2 (s : State) : (s.zeroC2).ds = s.ds := rfl
@[simp] theorem State.ms_zeroC2 (s : State) : (s.zeroC2).ms = s.ms := rfl
@[simp] theorem State.img_zeroC2 (s : State) : (s.zeroC2).img = s.img := rfl
@[simp] theorem State.ipl_zeroC2 (s : State) : (s.zeroC2).ipl = s.ipl := rfl
@[simp] theorem State.irq_zeroC2 (s : State) : (s.zeroC2).irq = s.irq := rfl
@[simp] theorem State.trace_zeroC2 (s : State) : (s.zeroC2).trace = s.trace := rfl
@[simp] theorem State.fault_zeroC2 (s : State) : (s.zeroC2).fault = s.fault := rfl
@[simp] theorem State.params_zeroC2 (s : State) : (s.zeroC2).params = s.params := rfl
@[simp] theorem State.port_zeroC2 (s : State) : (s.zeroC2).port = s.port := rfl
@[simp] theorem State.reg_zeroC2 (s : State) (q : Reg) : (s.zeroC2).reg q = s.reg q := rfl
@[simp] theorem State.status_zeroC2 (s : State) (g : StatusFlag) : (s.zeroC2).status g = s.status g := rfl
@[simp] theorem State.bm_zeroC2 (s : State) (g : BmFlag) : (s.zeroC2).bm g = s.bm g := rfl

/-! ## reply -/

@[simp] theorem State.regs_reply (s : State) (v : Option Word) : (s.reply v).regs = s.regs := rfl
@[simp] theorem State.session_reply (s : State) (v : Option Word) : (s.reply v).session = s.session := rfl
@[simp] theorem State.c2_reply (s : State) (v : Option Word) : (s.reply v).c2 = s.c2 := rfl
@[simp] theorem State.ds_reply (s : State) (v : Option Word) : (s.reply v).ds = s.ds := rfl
@[simp] theorem State.ms_reply (s : State) (v : Option Word) : (s.reply v).ms = s.ms := rfl
@[simp] theorem State.img_reply (s : State) (v : Option Word) : (s.reply v).img = s.img := rfl
@[simp] theorem State.ipl_reply (s : State) (v : Option Word) : (s.reply v).ipl = s.ipl := rfl
@[simp] theorem State.irq_reply (s : State) (v : Option Word) : (s.reply v).irq = s.irq := rfl
@[simp] theorem State.trace_reply (s : State) (v : Option Word) : (s.reply v).trace = s.trace := rfl
@[simp] theorem State.fault_reply (s : State) (v : Option Word) : (s.reply v).fault = s.fault := rfl
@[simp] theorem State.params_reply (s : State) (v : Option Word) : (s.reply v).params = s.params := rfl
@[simp] theorem State.port_reply (s : State) (v : Option Word) : (s.reply v).port = { s.port with result := v } := rfl
@[simp] theorem State.reg_reply (s : State) (v : Option Word) (q : Reg) : (s.reply v).reg q = s.reg q := rfl
@[simp] theorem State.status_reply (s : State) (v : Option Word) (g : StatusFlag) : (s.reply v).status g = s.status g := rfl
@[simp] theorem State.bm_reply (s : State) (v : Option Word) (g : BmFlag) : (s.reply v).bm g = s.bm g := rfl

/-! ## setPending -/

@[simp] theorem State.regs_setPending (s : State) (as : List Access) : (s.setPending as).regs = s.regs := rfl
@[simp] theorem State.session_setPending (s : State) (as : List Access) : (s.setPending as).session = s.session := rfl
@[simp] theorem State.c2_setPending (s : State) (as : List Access) : (s.setPending as).c2 = s.c2 := rfl
@[simp] theorem State.ds_setPending (s : State) (as : List Access) : (s.setPending as).ds = s.ds := rfl
@[simp] theorem State.ms_setPending (s : State) (as : List Access) : (s.setPending as).ms = s.ms := rfl
@[simp] theorem State.img_setPending (s : State) (as : List Access) : (s.setPending as).img = s.img := rfl
@[simp] theorem State.ipl_setPending (s : State) (as : List Access) : (s.setPending as).ipl = s.ipl := rfl
@[simp] theorem State.irq_setPending (s : State) (as : List Access) : (s.setPending as).irq = s.irq := rfl
@[simp] theorem State.trace_setPending (s : State) (as : List Access) : (s.setPending as).trace = s.trace := rfl
@[simp] theorem State.fault_setPending (s : State) (as : List Access) : (s.setPending as).fault = s.fault := rfl
@[simp] theorem State.params_setPending (s : State) (as : List Access) : (s.setPending as).params = s.params := rfl
@[simp] theorem State.port_setPending (s : State) (as : List Access) : (s.setPending as).port = { s.port with pending := as } := rfl
@[simp] theorem State.reg_setPending (s : State) (as : List Access) (q : Reg) : (s.setPending as).reg q = s.reg q := rfl
@[simp] theorem State.status_setPending (s : State) (as : List Access) (g : StatusFlag) : (s.setPending as).status g = s.status g := rfl
@[simp] theorem State.bm_setPending (s : State) (as : List Access) (g : BmFlag) : (s.setPending as).bm g = s.bm g := rfl

/-! ## clockDrawn -/

@[simp] theorem State.regs_clockDrawn (s : State) : (s.clockDrawn).regs = s.regs := by
  unfold State.clockDrawn; split <;> rfl
@[simp] theorem State.session_clockDrawn (s : State) : (s.clockDrawn).session = s.session := by
  unfold State.clockDrawn; split <;> rfl
@[simp] theorem State.c2_clockDrawn (s : State) : (s.clockDrawn).c2 = s.c2 := by
  unfold State.clockDrawn; split <;> rfl
@[simp] theorem State.ds_clockDrawn (s : State) : (s.clockDrawn).ds = s.ds := by
  unfold State.clockDrawn; split <;> rfl
@[simp] theorem State.ms_clockDrawn (s : State) : (s.clockDrawn).ms = s.ms := by
  unfold State.clockDrawn; split <;> rfl
@[simp] theorem State.img_clockDrawn (s : State) : (s.clockDrawn).img = s.img := by
  unfold State.clockDrawn; split <;> rfl
@[simp] theorem State.ipl_clockDrawn (s : State) : (s.clockDrawn).ipl = s.ipl := by
  unfold State.clockDrawn; split <;> rfl
@[simp] theorem State.irq_clockDrawn (s : State) : (s.clockDrawn).irq = s.irq := by
  unfold State.clockDrawn; split <;> rfl
@[simp] theorem State.trace_clockDrawn (s : State) : (s.clockDrawn).trace = s.trace := by
  unfold State.clockDrawn; split <;> rfl
@[simp] theorem State.fault_clockDrawn (s : State) : (s.clockDrawn).fault = s.fault := by
  unfold State.clockDrawn; split <;> rfl
@[simp] theorem State.params_clockDrawn (s : State) : (s.clockDrawn).params = s.params := by
  unfold State.clockDrawn; split <;> rfl
@[simp] theorem State.reg_clockDrawn (s : State) (q : Reg) : (s.clockDrawn).reg q = s.reg q := by
  simp [State.reg]
@[simp] theorem State.status_clockDrawn (s : State) (g : StatusFlag) : (s.clockDrawn).status g = s.status g := by
  simp [State.status]
@[simp] theorem State.bm_clockDrawn (s : State) (g : BmFlag) : (s.clockDrawn).bm g = s.bm g := by
  simp [State.bm]

@[simp] theorem State.pending_clockDrawn (s : State) : s.clockDrawn.port.pending = s.port.pending := by
  unfold State.clockDrawn; split <;> rfl
@[simp] theorem State.result_clockDrawn (s : State) : s.clockDrawn.port.result = s.port.result := by
  unfold State.clockDrawn; split <;> rfl

end Sys2Proof.Machine
end

