-- ==== Sys2Proof/Laws/Ops.lean ====
section
/-! SUPPORT. What each shared operation can do, said once: how an operation begins and ends, the line after a fault, the
offset check, and that every operation starts from an unfaulted state. -/

namespace Sys2Proof.Machine

/-! ## Beginnings and ends -/

@[simp] theorem State.operate_of_none {s : State} (h : s.fault = none) (body : State → Result) :
    s.operate body = body s := by
  simp [State.operate, h]

@[simp] theorem State.operate_of_some {s : State} {f : Fault} (h : s.fault = some f) (body : State → Result) :
    s.operate body = .fault f := by
  simp [State.operate, h]

theorem State.writeOp_of_some {s : State} {f : Fault} (h : s.fault = some f) (body : State → State) :
    s.writeOp body = .fault f := State.operate_of_some h _

theorem State.command_of_some {s : State} {f : Fault} (h : s.fault = some f) (arm : State → State) :
    s.command arm = .fault f := State.writeOp_of_some h _

theorem State.atOffset_of_some {s : State} {f : Fault} (h : s.fault = some f) (size off : Nat)
    (body : State → Result) : s.atOffset size off body = .fault f := State.operate_of_some h _

theorem State.ifWellFormed_of_some {s : State} {f : Fault} (h : s.fault = some f) (ok : Bool)
    (body : State → Result) : s.ifWellFormed ok body = .fault f := State.operate_of_some h _

theorem State.operate_next {s t : State} {body : State → Result} :
    s.operate body = .next t ↔ s.fault = none ∧ body s = .next t := by
  unfold State.operate
  split <;> simp [*]

theorem State.writeOp_next {s t : State} {body : State → State} :
    s.writeOp body = .next t ↔ s.fault = none ∧ t = (body s).reply none := by
  rw [State.writeOp, State.operate_next, Host.Outcome.next.injEq, eq_comm (a := t)]

theorem State.readOp_next {s t : State} {v : Word} :
    s.readOp v = .next t ↔ s.fault = none ∧ t = s.reply (some v) := by
  rw [State.readOp, State.operate_next, Host.Outcome.next.injEq, eq_comm (a := t)]

theorem State.command_next {s t : State} {arm : State → State} :
    s.command arm = .next t ↔ s.fault = none ∧ t = (commandEpilogue (arm s)).reply none := by
  simp [State.command, State.writeOp_next]

theorem State.ifWellFormed_next {s t : State} {ok : Bool} {body : State → Result} :
    s.ifWellFormed ok body = .next t ↔ s.fault = none ∧ ok = true ∧ body s = .next t := by
  cases ok <;> simp [State.ifWellFormed, State.operate_next]

theorem checkOffset_eq_ok {size off : Nat} : checkOffset size off = .ok () ↔ off % 4 = 0 ∧ off + 4 ≤ size := by
  unfold checkOffset
  split
  · simp; omega
  · split
    · simp; omega
    · simp; omega

theorem offsetOk_iff {size off : Nat} : offsetOk size off = true ↔ off % 4 = 0 ∧ off + 4 ≤ size := by
  simp [offsetOk]

theorem State.atOffset_of_ok {s : State} {size off : Nat} (h : s.fault = none) (ha : off % 4 = 0)
    (hb : off + 4 ≤ size) (body : State → Result) : s.atOffset size off body = body s := by
  simp [State.atOffset, h, checkOffset_eq_ok.mpr ⟨ha, hb⟩]

theorem State.atOffset_next {s t : State} {size off : Nat} {body : State → Result} :
    s.atOffset size off body = .next t ↔
      s.fault = none ∧ (off % 4 = 0 ∧ off + 4 ≤ size) ∧ body s = .next t := by
  simp only [State.atOffset, State.operate_next, ← checkOffset_eq_ok]
  cases h : checkOffset size off <;> simp

/-! ## The line after a fault -/

@[simp] theorem State.andThen_of_none {s : State} (h : s.fault = none) (next : State → State) :
    s.andThen next = next s := by
  simp [State.andThen, h]

@[simp] theorem State.andThen_of_some {s : State} {f : Fault} (h : s.fault = some f) (next : State → State) :
    s.andThen next = s := by
  simp [State.andThen, h]

/-- What holds of a state and of what follows it holds of the two in sequence. -/
theorem State.andThen_ind {s : State} {next : State → State} {P : State → Prop} (h : P s)
    (hn : s.fault = none → P (next s)) : P (s.andThen next) := by
  cases hf : s.fault with
  | none => simpa [hf] using hn hf
  | some f => simpa [hf] using h

/-! ## Registers in any order -/

@[simp] theorem Regs.set_set (rs : Regs) (r : Reg) (v w : Word) : (rs.set r v).set r w = rs.set r w :=
  Regs.ext_others (by cases r <;> simp [Regs.set, Words.write_write]) fun q => by by_cases h : q = r <;> simp [h]

theorem Regs.set_comm (rs : Regs) {r q : Reg} (h : r ≠ q) (v w : Word) :
    (rs.set r v).set q w = (rs.set q w).set r v := by
  refine Regs.ext_others ?_ fun p => ?_
  · cases r <;> cases q <;> first | rfl | exact Words.write_comm _ (by simpa using h) _ _
  · by_cases hp : p = r
    · subst hp; simp [h]
    · by_cases hq : p = q
      · subst hq; simp [hp]
      · simp [hp, hq]

/-- Writing a named register's own word changes nothing. -/
@[simp] theorem Regs.set_get_named (rs : Regs) {r : Reg} (h : ∀ n, r ≠ .other n) : rs.set r (rs.get r) = rs := by
  cases r <;> first | rfl | exact absurd rfl (h _)

/-- Writing any register's own word changes a canonical register file nowhere. -/
@[simp] theorem Regs.set_get {rs : Regs} (hw : rs.others.wf) (r : Reg) : rs.set r (rs.get r) = rs :=
  Regs.ext_get (Regs.wf_set hw _ _) hw fun q => by by_cases h : q = r <;> simp [h]

/-! ## Every operation starts from an unfaulted state -/

theorem exec_of_faulted {s : State} {f : Fault} (h : s.fault = some f) (i : Instr) : exec i s = .fault f := by
  cases i <;> simp only [exec] <;>
    first
    | exact State.command_of_some h _
    | exact State.writeOp_of_some h _
    | exact State.atOffset_of_some h _ _ _
    | exact State.ifWellFormed_of_some h _ _
    | exact State.operate_of_some h _

theorem exec_next_unfaulted {s t : State} {i : Instr} (h : exec i s = .next t) : s.fault = none := by
  cases hf : s.fault with
  | none => rfl
  | some f => rw [exec_of_faulted hf] at h; cases h

end Sys2Proof.Machine
end

