-- ==== Sys2Proof/Laws/Decode.lean ====
section
/-! SUPPORT. The decoder's laws: where an address is located and what a located address is, the register an offset selects,
and that an opcode is a row of the command table or unrecognized. -/

namespace Sys2Proof

open Machine

/-! ## Windows -/

theorem c2_mem_windows (b : BusMap) : (Window.c2, b.c2Base, b.c2Size) ∈ b.windows := by simp [BusMap.windows]
theorem ds_mem_windows (b : BusMap) : (Window.ds, b.dsBase, b.dsSize) ∈ b.windows := by simp [BusMap.windows]
theorem reg_mem_windows (b : BusMap) : (Window.reg, b.regBase, 4 * b.numRegs) ∈ b.windows := by simp [BusMap.windows]
theorem ms_mem_windows (b : BusMap) : (Window.ms, b.msBase, b.msSize) ∈ b.windows := by simp [BusMap.windows]
theorem ipl_mem_windows (b : BusMap) : (Window.ipl, b.iplBase, b.iplSize) ∈ b.windows := by simp [BusMap.windows]

/-- Under a well-formed bus map, the window that holds an address is the one the decoder finds. -/
theorem find_window {b : BusMap} (hb : b.wf) {addr : Word} {e : Window × Nat × Nat} (hm : e ∈ b.windows)
    (hlo : e.2.1 ≤ addr.toNat) (hhi : addr.toNat < e.2.1 + e.2.2) :
    b.windows.find? (fun e => e.2.1 ≤ addr.toNat && addr.toNat < e.2.1 + e.2.2) = some e := by
  cases h : b.windows.find? (fun e => e.2.1 ≤ addr.toNat && addr.toNat < e.2.1 + e.2.2) with
  | none =>
    have := List.find?_eq_none.mp h _ hm
    simp only [Bool.and_eq_true, decide_eq_true_eq] at this
    omega
  | some f =>
    have hf := List.find?_some h
    simp only [Bool.and_eq_true, decide_eq_true_eq] at hf
    by_contra hne
    have : Std.Symm fun v w : Window × Nat × Nat => v.2.1 + v.2.2 ≤ w.2.1 ∨ w.2.1 + w.2.2 ≤ v.2.1 :=
      ⟨fun _ _ h => h.symm⟩
    have := List.Pairwise.forall hb.1 hm (List.mem_of_find?_eq_some h) fun h => hne (h ▸ rfl)
    omega

/-- Under a well-formed bus map, a whole aligned word of a window is located there. -/
theorem locate_of_mem {b : BusMap} (hb : b.wf) {addr : Word} {win : Window} {base size : Nat}
    (hm : (win, base, size) ∈ b.windows) (hlo : base ≤ addr.toNat) (hhi : addr.toNat + 4 ≤ base + size)
    (hal : (addr.toNat - base) % 4 = 0) : locate b addr = .ok (win, addr.toNat - base) := by
  have hc : checkOffset size (addr.toNat - base) = .ok () := checkOffset_eq_ok.mpr ⟨hal, by omega⟩
  simp only [locate, find_window hb hm hlo (show addr.toNat < base + size by omega), hc]

/-- A located address is a whole aligned word of its window. -/
theorem locate_eq_ok {b : BusMap} {addr : Word} {win : Window} {off : Nat} (h : locate b addr = .ok (win, off)) :
    ∃ base size, (win, base, size) ∈ b.windows ∧ off = addr.toNat - base ∧ base ≤ addr.toNat ∧ off % 4 = 0 ∧
      off + 4 ≤ size := by
  unfold locate at h
  split at h
  · cases h
  · rename_i w base size hf
    have hp := List.find?_some hf
    split at h
    · cases h
    · rename_i hc
      simp only [Bool.and_eq_true, decide_eq_true_eq] at hp
      simp only [Except.ok.injEq, Prod.mk.injEq] at h
      obtain ⟨rfl, rfl⟩ := h
      exact ⟨base, size, List.mem_of_find?_eq_some hf, rfl, hp.1, checkOffset_eq_ok.mp hc⟩

/-- The address the encoder gives an aligned word of a window is located there. -/
theorem locate_window {b : BusMap} (hb : b.wf) {win : Window} {base size off : Nat} (hm : (win, base, size) ∈ b.windows)
    (ho : off % 4 = 0 ∧ off + 4 ≤ size) : locate b (BitVec.ofNat 32 (base + off)) = .ok (win, off) := by
  have h32 := hb.2.1 _ hm
  dsimp only at h32
  have hn : (BitVec.ofNat 32 (base + off)).toNat = base + off := by
    rw [BitVec.toNat_ofNat, Nat.mod_eq_of_lt]
    omega
  rw [locate_of_mem hb hm] <;> rw [hn]
  · rw [Nat.add_sub_cancel_left]
  · omega
  · omega
  · rw [Nat.add_sub_cancel_left]
    exact ho.1

/-! ## Registers -/

theorem regAt_eq_ok {b : BusMap} {off : Nat} {r : Reg} : regAt b off = .ok r ↔ b.regMap[off / 4]? = some r := by
  unfold regAt
  split <;> simp_all

/-- The `k`th address of the register window is located there, at the `k`th register. -/
theorem locate_regIndex {b : BusMap} (hb : b.wf) {k : Nat} {r : Reg} (hk : b.regMap[k]? = some r) :
    locate b (BitVec.ofNat 32 (b.regBase + 4 * k)) = .ok (.reg, 4 * k) ∧ regAt b (4 * k) = .ok r := by
  have hl := (List.getElem?_eq_some_iff.mp hk).1
  have hn : b.regMap.length = b.numRegs := hb.2.2.2.1
  refine ⟨locate_window hb (reg_mem_windows b) (by omega), regAt_eq_ok.mpr ?_⟩
  rwa [Nat.mul_div_cancel_left k (by decide)]

/-- A register of the map stands at its index. -/
theorem getElem?_regIndex {b : BusMap} {r : Reg} (hr : r ∈ b.regMap) : b.regMap[b.regIndex r]? = some r := by
  rw [List.getElem?_eq_some_iff]
  exact ⟨List.idxOf_lt_length_of_mem hr, List.getElem_idxOf _⟩

/-- The address of a register of the map is located in the register window, at the register. -/
theorem locate_regAddr {b : BusMap} (hb : b.wf) {r : Reg} (hr : r ∈ b.regMap) :
    locate b (b.regAddr r) = .ok (.reg, 4 * b.regIndex r) ∧ regAt b (4 * b.regIndex r) = .ok r :=
  locate_regIndex hb (getElem?_regIndex hr)

/-- An address located in the register window is the address of the register it selects, which the map holds. -/
theorem addr_of_regAt {b : BusMap} (hb : b.wf) {addr : Word} {off : Nat} {r : Reg}
    (hl : locate b addr = .ok (.reg, off)) (hr : regAt b off = .ok r) : r ∈ b.regMap ∧ b.regAddr r = addr := by
  obtain ⟨base, size, hm, ho, hlo, hal, hs⟩ := locate_eq_ok hl
  simp only [BusMap.windows, List.mem_cons, List.not_mem_nil, Prod.mk.injEq, reduceCtorEq, false_and, true_and, or_false,
    false_or] at hm
  obtain ⟨rfl, rfl⟩ := hm
  obtain ⟨hlt, hget⟩ := List.getElem?_eq_some_iff.mp (regAt_eq_ok.mp hr)
  have hnd : b.regMap.Nodup := hb.2.2.2.2.1
  have hi : b.regIndex r = off / 4 := by
    rw [← hget]
    exact hnd.idxOf_getElem _ hlt
  refine ⟨hget ▸ List.getElem_mem hlt, ?_⟩
  apply BitVec.eq_of_toNat_eq
  have := addr.isLt
  rw [BusMap.regAddr, hi, BitVec.toNat_ofNat]
  omega

/-- The registers the source names are in every well-formed map. -/
theorem sourceRegs_mem {b : BusMap} (hb : b.wf) {r : Reg} (hr : r ∈ BusMap.sourceRegs) : r ∈ b.regMap :=
  hb.2.2.2.2.2.1 r hr

/-! ## Commands -/

/-- A command word's opcode is read back from the word the encoder builds. -/
theorem commandOp_append (op : Half) : commandOp (op ++ 0x0000#16) = op := by
  apply BitVec.eq_of_getLsbD_eq
  intro i hi
  have h : ((op ++ 0x0000#16 : BitVec (16 + 16)).getLsbD (16 + i)) = op.getLsbD i := by
    rw [BitVec.getLsbD_append]
    simp
  simpa [commandOp, hi] using h

theorem map_fst_commandTable (o : Opcodes) : (commandTable o).map Prod.fst = o.numbers := rfl

/-- An opcode is a row of the command table, or it is none of the opcode map and unrecognized. -/
theorem decodeCommand_cases (o : Opcodes) (op : Half) :
    (op ∈ o.numbers ∧ (op, decodeCommand o op) ∈ commandTable o) ∨
      (op ∉ o.numbers ∧ decodeCommand o op = .cmdUnrecognized op) := by
  unfold decodeCommand
  cases h : (commandTable o).lookup op with
  | none =>
    refine .inr ⟨fun hm => ?_, rfl⟩
    rw [← map_fst_commandTable, List.mem_map] at hm
    obtain ⟨e, he, rfl⟩ := hm
    exact absurd (List.lookup_eq_none_iff.mp h e he) (by simp)
  | some i =>
    have hm : (op, i) ∈ commandTable o := by
      obtain ⟨l₁, l₂, h, -⟩ := List.lookup_eq_some_iff.mp h
      simp [h]
    refine .inl ⟨?_, hm⟩
    rw [← map_fst_commandTable]
    exact List.mem_map_of_mem hm

/-- Under an injective opcode map, a row of the command table is what its number decodes to. -/
theorem decodeCommand_of_mem {o : Opcodes} (ho : o.wf) {op : Half} {i : Instr} (h : (op, i) ∈ commandTable o) :
    decodeCommand o op = i := by
  have hn : ((commandTable o).map Prod.fst).Nodup := ho
  obtain ⟨-, hm⟩ | ⟨hm, -⟩ := decodeCommand_cases o op
  · exact congrArg Prod.snd (List.inj_on_of_nodup_map hn hm h rfl)
  · exact absurd (map_fst_commandTable o ▸ List.mem_map_of_mem (f := Prod.fst) h) hm

/-- A write to CMD_STATUS is the command of its bits 31..16. -/
theorem decode_commandWrite {p : Params} (hp : p.bus.wf) (word mask : Word) :
    decode p (.write (p.bus.regAddr .cmdStatus) word mask) = .ok (decodeCommand p.opcodes (commandOp word)) := by
  have h := locate_regAddr hp (sourceRegs_mem hp (r := .cmdStatus) (by simp [BusMap.sourceRegs]))
  have hro : p.bus.readOnlyRegs.contains .cmdStatus = false := by simpa using hp.2.2.2.2.2.2.1
  simp only [decode, h.1, h.2, decodeRegWrite, hro]
  rfl

/-- Decoding reads the bus map and the opcode map, and no other parameter. -/
theorem decode_congr {p q : Params} (hb : p.bus = q.bus) (ho : p.opcodes = q.opcodes) (a : Access) :
    decode p a = decode q a := by
  unfold decode decodeRegWrite
  rw [hb, ho]

/-- The default parameters are well formed, whatever the two OPEN ID words are. -/
theorem Params.default_wf : Params.default.wf := by
  refine ⟨by decide, by decide, by decide, by decide, by decide, fun h => ?_, by decide⟩
  have h' : BitVec.ofNat 32 (Config.idGap % (2 ^ 32 - 1) + 1) = 0#32 := by
    have := congrArg (Config.idWithIpl ^^^ ·) h
    simpa [Params.default, Config.idWithoutIpl, ← BitVec.xor_assoc] using this.symm
  have := congrArg BitVec.toNat h'
  simp only [BitVec.toNat_ofNat] at this
  omega

end Sys2Proof
end

