-- ==== Sys2Proof/Laws/Pump.lean ====
section
/-! SUPPORT. What a pump and a BM-control write can do, said once: the prologue in closed form, an induction principle over
their updates, and their frames. -/

namespace Sys2Proof.Machine

/-! ## The pump -/

/-- The prologue: the in-block sector, and the block it finds (43_bm_pump.md R212). -/
theorem pumpPrologue_eq (s : State) :
    pumpPrologue s = (inBlock (s.reg .curSector),
      if Config.block1Base ≤ sectorNumber (s.reg .curSector) then s.setBlock 1 else s) := by
  unfold pumpPrologue inBlock inBlockOf
  split <;> simp [*]

/-- The pump as its branch and, where the branch raised no fault, its epilogue (R231). -/
theorem pump_eq (s : State) :
    pump s = (pumpBranch (pumpPrologue s).1 (pumpPrologue s).2).2.andThen
      (pumpEpilogue (pumpBranch (pumpPrologue s).1 (pumpPrologue s).2).1) := rfl

/-- What every update of a pump keeps, a pump keeps. -/
theorem pump_ind {P : State → Prop} {s : State} (hs : P s)
    (block : ∀ s b, P s → P (s.setBlock b))
    (skip : ∀ s, P s → P (s.setSkip89 true))
    (set : ∀ s f, f = .dataRq ∨ f = .c2Xfer ∨ f = .bmInt → P s → P (s.setStatus f))
    (clear : ∀ s f, f = .dataRq ∨ f = .c2Xfer → P s → P (s.clearStatus f))
    (clearBm : ∀ s f, f = .block ∨ f = .running → P s → P (s.clearBm f))
    (commit : ∀ k s, P s → P (commitSector k s))
    (copy : ∀ k s, P s → P (copySector k s))
    (zero : ∀ s, P s → P s.zeroC2)
    (sector : ∀ s k b, P s → P (s.setReg .curSector (sectorWord k b)))
    (signal : ∀ s, P s → P s.signalIrq) : P (pump s) := by
  have hpro : P (pumpPrologue s).2 := by
    unfold pumpPrologue
    dsimp only
    split
    · exact block _ _ hs
    · exact hs
  have hwrite : ∀ k t, P t → P (pumpWrite k t).2 := by
    intro k t ht
    unfold pumpWrite writeNextBlock
    repeat' split
    · exact set _ _ (.inl rfl) ht
    · dsimp only
      refine State.andThen_ind (commit _ _ ht) fun _ => ?_
      exact set _ _ (.inl rfl) (commit _ _ ht)
    · dsimp only
      refine State.andThen_ind (commit _ _ ht) fun _ => ?_
      exact set _ _ (.inl rfl) (clearBm _ _ (.inl rfl) (block _ _ (commit _ _ ht)))
    · dsimp only
      refine State.andThen_ind (commit _ _ ht) fun _ => ?_
      exact clearBm _ _ (.inr rfl) (commit _ _ ht)
    · exact ht
  have harms : ∀ k t, P t → P (readArms k t).2 := by
    intro k t ht
    unfold readArms readEcc readGap
    repeat' split
    · exact ht
    · dsimp only
      refine State.andThen_ind (copy _ _ ht) fun _ => ?_
      exact set _ _ (.inl rfl) (copy _ _ ht)
    · exact set _ _ (.inr (.inl rfl)) (zero _ ht)
    · exact ht
    · exact clearBm _ _ (.inl rfl) (block _ _ ht)
    · exact clearBm _ _ (.inr rfl) ht
    · exact ht
  have hread : ∀ k t, P t → P (pumpRead k t).2 := by
    intro k t ht
    have h1 : P (stepBack k ((t.clearStatus .dataRq).clearStatus .c2Xfer)).2 := by
      unfold stepBack
      split
      · exact skip _ (clear _ _ (.inr rfl) (clear _ _ (.inl rfl) ht))
      · exact clear _ _ (.inr rfl) (clear _ _ (.inl rfl) ht)
    exact harms _ _ h1
  have hbranch : P (pumpBranch (pumpPrologue s).1 (pumpPrologue s).2).2 := by
    unfold pumpBranch
    split
    · exact hread _ _ hpro
    · exact hwrite _ _ hpro
  rw [pump_eq]
  refine State.andThen_ind hbranch fun _ => ?_
  exact signal _ (set _ _ (.inr (.inr rfl)) (sector _ _ _ hbranch))

/-! ## Commit and copy -/

/-- By default a commit is its event alone (R218). -/
theorem commitSector_of_no_persist {s : State} (h : s.params.writePersist = false) (k : Nat) :
    commitSector k s = s.emit (.commit (BitVec.ofNat 32 (s.slotOffset (k - 1))) (s.ds.slice 0 s.sectorBytes)) := by
  simp [commitSector, persistCommit, h]

/-- A copy inside the image stores the sector and nothing else (R224). -/
theorem copySector_of_le {s : State} {k : Nat} (h : s.slotOffset k + s.sectorBytes ≤ s.img.size) :
    copySector k s = { s with ds := s.ds.store 0 (s.img.bytes.slice (s.slotOffset k) s.sectorBytes) } := by
  simp [copySector, Nat.not_lt.mpr h]

/-- A copy past the image faults and does nothing else (R224). -/
theorem copySector_of_lt {s : State} {k : Nat} (h : s.img.size < s.slotOffset k + s.sectorBytes) :
    copySector k s = s.raise (.diskRange (s.slotOffset k) s.sectorBytes) := by
  simp [copySector, h]

theorem sectorSize_le (z : Fin 16) : sectorSize z ≤ 232 := by revert z; decide

theorem sectorSize_pos (z : Fin 16) : 0 < sectorSize z := by revert z; decide

/-- A pump leaves the parameters, the host's side, the IPL image, the microsequencer RAM, the size of the disk image and
what only a seek writes as they were. -/
theorem pump_frame (s : State) :
    (pump s).params = s.params ∧ (pump s).port = s.port ∧ (pump s).ipl = s.ipl ∧ (pump s).ms = s.ms ∧
      (pump s).img.size = s.img.size ∧ (pump s).session.modeRead = s.session.modeRead ∧
      (pump s).session.zone = s.session.zone ∧ (pump s).session.trackByteOffset = s.session.trackByteOffset ∧
      (pump s).session.resetHold = s.session.resetHold := by
  apply pump_ind (P := fun t => t.params = s.params ∧ t.port = s.port ∧ t.ipl = s.ipl ∧ t.ms = s.ms ∧
      t.img.size = s.img.size ∧ t.session.modeRead = s.session.modeRead ∧
      t.session.zone = s.session.zone ∧ t.session.trackByteOffset = s.session.trackByteOffset ∧
      t.session.resetHold = s.session.resetHold)
  case hs => simp
  case commit =>
    intro k t ht
    unfold commitSector persistCommit
    dsimp only
    repeat' split
    all_goals simpa using ht
  case copy =>
    intro k t ht
    unfold copySector
    dsimp only
    split <;> simpa using ht
  all_goals intros; simpa using ‹_ ∧ _›

/-- A pump writes no register but the sector register and the two status registers (R231). -/
theorem pump_reg (s : State) {r : Reg} (h : r ≠ .curSector) (h' : r ≠ .cmdStatus) (h'' : r ≠ .bmStatusCtl) :
    (pump s).reg r = s.reg r := by
  apply pump_ind (P := fun t => t.reg r = s.reg r)
  case hs => rfl
  case commit =>
    intro k t ht
    unfold commitSector persistCommit
    dsimp only
    repeat' split
    all_goals simpa [State.reg] using ht
  case copy =>
    intro k t ht
    unfold copySector
    dsimp only
    split <;> simpa [State.reg] using ht
  all_goals intros; simpa [h, h', h''] using ‹_ = _›

end Sys2Proof.Machine
end

