-- ==== Sys2Proof/Laws/Exec.lean ====
section
/-! SUPPORT. What an operation can do, said once: the list of the updates that operations are made of, and an induction
principle over them for exec and for step. -/

namespace Sys2Proof.Machine

/-- The property is kept by every update that an operation is made of. A BM trailing edge, a sector field and a pump count
as one update each, since they write the sector register and the block together. -/
structure Kept (P : State → Prop) : Prop where
  data     : ∀ s v, P s → P (s.setReg .data v)
  track    : ∀ s v, P s → P (s.setReg .curTk v)
  plain    : ∀ s r v, s.params.bus.isGeneric r = true → P s → P (s.setReg r v)
  set      : ∀ s f, f = .mechaInt ∨ f = .mtrNSpin ∨ f = .headRtrct → P s → P (s.setStatus f)
  clear    : ∀ s f, f = .mtrNSpin ∨ f = .headRtrct ∨ f = .diskChng ∨ f = .rstState ∨ f = .mechaInt ∨ f = .bmInt →
    P s → P (s.clearStatus f)
  mode     : ∀ s b, P s → P (s.setModeRead b)
  geometry : ∀ s z off, P s → P (s.setGeometry z off)
  clock    : ∀ s kind, P s → P (s.clockDrawn.emit (.clockRead kind))
  signal   : ∀ s, P s → P s.signalIrq
  release  : ∀ s, P s → P s.clearIrq
  hold     : ∀ s, P s → P (s.setResetHold true)
  edge     : ∀ s, P s → P (bmTrailingEdge s)
  setBm    : ∀ s f, P s → P (s.setBm f)
  clearBm  : ∀ s f, P s → P (s.clearBm f)
  sector   : ∀ s w, P s → P (bmSector w s)
  skip     : ∀ s, P s → P (s.setSkip89 false)
  pump     : ∀ s, P s → P (pump s)
  raise    : ∀ s f, P s → P (s.raise f)
  c2       : ∀ s off w m, off + 4 ≤ s.params.bus.c2Size → P s → P { s with c2 := s.c2.putMasked off w m }
  ds       : ∀ s off w m, off + 4 ≤ s.params.bus.dsSize → P s → P { s with ds := s.ds.putMasked off w m }
  ms       : ∀ s off w m, off + 4 ≤ s.params.bus.msSize → P s → P { s with ms := s.ms.putMasked off w m }
  reply    : ∀ s v, P s → P (s.reply v)
  pending  : ∀ s as, P s → P (s.setPending as)

namespace Kept

variable {P : State → Prop}

theorem bmControl (k : Kept P) {s : State} (hs : P s) (word : Word) : P (bmControl word s) := by
  have h1 : P (bmReset word s) := by
    unfold bmReset
    split
    · exact k.hold _ hs
    · split
      · exact k.edge _ hs
      · exact hs
  have h2 : P (bmMechaRst word (bmReset word s)) := by
    unfold bmMechaRst
    split
    · exact k.clear _ _ (by simp) h1
    · exact h1
  have h3 : P (bmBlkTrans word (bmMechaRst word (bmReset word s))) := by
    unfold bmBlkTrans
    split
    · exact k.setBm _ _ h2
    · exact k.clearBm _ _ h2
  have h4 : P (bmPrepare word s) := by
    unfold bmPrepare bmLineClear
    split
    · exact k.release _ (k.sector _ _ h3)
    · exact k.sector _ _ h3
  unfold Machine.bmControl bmStart
  split
  · exact k.pump _ (k.skip _ (k.setBm _ _ h4))
  · exact h4

theorem statusReadSideEffect (k : Kept P) {s : State} (hs : P s) : P (statusReadSideEffect s) := by
  unfold Machine.statusReadSideEffect
  split
  · exact k.pump _ (k.release _ (k.clear _ _ (by simp) hs))
  · exact hs

theorem commandEpilogue (k : Kept P) {s : State} (hs : P s) : P (commandEpilogue s) :=
  k.signal _ (k.set _ _ (by simp) hs)

theorem seekArm (k : Kept P) {s : State} (hs : P s) (modeRead : Bool) : P (seekArm modeRead s) :=
  k.geometry _ _ _ (k.mode _ _ (k.clear _ _ (by simp) (k.clear _ _ (by simp) (k.track _ _ hs))))

theorem getTimeArm (k : Kept P) {s : State} (hs : P s) (kind : ClockKind) : P (getTimeArm kind s) :=
  k.data _ _ (k.clock _ _ hs)

/-- A completed command whose arm keeps the property keeps it. -/
theorem command (k : Kept P) {s t : State} {arm : State → State} (h : s.command arm = .next t) (ha : P (arm s)) : P t := by
  obtain ⟨-, rfl⟩ := State.command_next.mp h
  exact k.reply _ _ (k.commandEpilogue ha)

/-- A completed write operation whose body keeps the property keeps it. -/
theorem writeOp (k : Kept P) {s t : State} {body : State → State} (h : s.writeOp body = .next t) (hb : P (body s)) : P t := by
  obtain ⟨-, rfl⟩ := State.writeOp_next.mp h
  exact k.reply _ _ hb

/-- A completed read operation keeps the property. -/
theorem readOp (k : Kept P) {s t : State} {v : Word} (h : s.readOp v = .next t) (hs : P s) : P t := by
  obtain ⟨-, rfl⟩ := State.readOp_next.mp h
  exact k.reply _ _ hs

/-- A property kept by every update is kept by every operation that completes. -/
theorem exec (k : Kept P) {i : Instr} {s t : State} (h : exec i s = .next t) (hs : P s) : P t := by
  cases i <;> simp only [Machine.exec, execNoop, execSeekRead, execSeekWrite, execRecalibrate, execSleep, execStart, execSetStandby,
    execSetSleep, execClrDskChng, execClrReset, execReadVersion, execSetDiskType, execRequestStatus, execStandby,
    execIdxLockRetry, execSetYearMonth, execSetDayHour, execSetMinSec, execGetYearMonth, execGetDayHour,
    execGetMinSec, execFeatureInq, execCmdUnrecognized, execRegRead, execStatusRead, execRegWrite, execRegWriteRo,
    execBmctlWrite, execHardResetWrite, execC2Read, execC2Write, execDsRead, execDsWrite, execMsRead, execMsWrite,
    execIplRead, execIplWrite] at h
  case noop => exact k.command h hs
  case seekRead => exact k.command h (k.seekArm hs _)
  case seekWrite => exact k.command h (k.seekArm hs _)
  case recalibrate => exact k.command h (k.data _ _ hs)
  case sleep => exact k.command h (k.set _ _ (.inr (.inr rfl)) (k.set _ _ (.inr (.inl rfl)) hs))
  case start => exact k.command h (k.clear _ _ (.inr (.inl rfl)) (k.clear _ _ (.inl rfl) hs))
  case setStandby => exact k.command h hs
  case setSleep => exact k.command h hs
  case clrDskChng => exact k.command h (k.clear _ _ (.inr (.inr (.inl rfl))) hs)
  case clrReset => exact k.command h (k.clear _ _ (.inr (.inr (.inr (.inl rfl)))) hs)
  case readVersion => exact k.command h hs
  case setDiskType => exact k.command h hs
  case requestStatus => exact k.command h hs
  case standby => exact k.command h (k.clear _ _ (.inl rfl) (k.set _ _ (.inr (.inr rfl)) hs))
  case idxLockRetry => exact k.command h (k.track _ _ hs)
  case setYearMonth => exact k.command h hs
  case setDayHour => exact k.command h hs
  case setMinSec => exact k.command h hs
  case getYearMonth => exact k.command h (k.getTimeArm hs _)
  case getDayHour => exact k.command h (k.getTimeArm hs _)
  case getMinSec => exact k.command h (k.getTimeArm hs _)
  case featureInq => exact k.command h (k.data _ _ hs)
  case cmdUnrecognized op =>
    obtain ⟨-, -, h⟩ := State.ifWellFormed_next.mp h
    exact k.command h hs
  case regRead r =>
    obtain ⟨-, -, h⟩ := State.ifWellFormed_next.mp h
    exact k.readOp h hs
  case statusRead =>
    obtain ⟨-, h⟩ := State.operate_next.mp h
    cases h
    exact k.reply _ _ (k.statusReadSideEffect hs)
  case regWrite r word mask =>
    obtain ⟨-, hr, h⟩ := State.ifWellFormed_next.mp h
    exact k.writeOp h (k.plain _ _ _ hr hs)
  case regWriteRo r word mask =>
    obtain ⟨-, -, h⟩ := State.ifWellFormed_next.mp h
    exact k.writeOp h hs
  case bmctlWrite word => exact k.writeOp h (k.bmControl hs word)
  case hardResetWrite word =>
    refine k.writeOp h ?_
    split
    · exact hs
    · exact k.raise _ _ hs
  case c2Read off =>
    obtain ⟨-, -, h⟩ := State.atOffset_next.mp h
    exact k.readOp h hs
  case c2Write off word mask =>
    obtain ⟨-, ho, h⟩ := State.atOffset_next.mp h
    exact k.writeOp h (k.c2 _ _ _ _ ho.2 hs)
  case dsRead off =>
    obtain ⟨-, -, h⟩ := State.atOffset_next.mp h
    exact k.readOp h hs
  case dsWrite off word mask =>
    obtain ⟨-, ho, h⟩ := State.atOffset_next.mp h
    exact k.writeOp h (k.ds _ _ _ _ ho.2 hs)
  case msRead off =>
    obtain ⟨-, -, h⟩ := State.atOffset_next.mp h
    exact k.readOp h hs
  case msWrite off word mask =>
    obtain ⟨-, ho, h⟩ := State.atOffset_next.mp h
    exact k.writeOp h (k.ms _ _ _ _ ho.2 hs)
  case iplRead off =>
    obtain ⟨-, -, h⟩ := State.atOffset_next.mp h
    split at h
    · exact k.readOp h hs
    · split at h
      · cases h
      · exact k.readOp h hs
  case iplWrite off word mask =>
    obtain ⟨-, -, h⟩ := State.atOffset_next.mp h
    exact k.writeOp h hs

/-- A property kept by every update is kept by every step. -/
theorem step (k : Kept P) {s t : State} (h : step s = .next t) (hs : P s) : P t := by
  unfold Machine.step at h
  split at h
  · cases h
  · split at h
    · cases h
      exact hs
    · rename_i a u hu
      have hp : P u := by
        unfold State.takeAccess at hu
        split at hu
        · cases hu
        · cases hu
          exact k.pending _ _ hs
      split at h
      · cases h
      · exact k.exec h hp

end Kept

end Sys2Proof.Machine
end

