-- ==== Sys2Proof/Laws/Operands.lean ====
section
/-! SUPPORT. The operand fields as shifts and masks of their word, as 30_encoding.md writes them. -/

namespace Sys2Proof.Machine

/-- The sector number is bits 31..16 (R99). -/
theorem sectorNumber_eq (w : Word) : sectorNumber w = (w >>> 16).toNat := by
  have h : w >>> 16 = (w.extractLsb' 16 16).setWidth 32 := by
    apply BitVec.eq_of_getLsbD_eq
    intro i hi
    by_cases h : i < 16
    · simp [hi, h]
    · simpa [hi, h] using BitVec.getLsbD_of_ge _ _ (by omega)
  rw [h, sectorNumber, BitVec.toNat_setWidth]
  omega

/-- The track is bits 27..16 (R95). -/
theorem trackOf_eq (w : Word) : trackOf w = ((w >>> 16) &&& 0xFFF#32).toNat := by
  have h : (w >>> 16) &&& 0xFFF#32 = (w.extractLsb' 16 12).setWidth 32 := by
    apply BitVec.eq_of_getLsbD_eq
    intro i hi
    interval_cases i <;> simp
  rw [h, trackOf, BitVec.toNat_setWidth]
  omega

/-- The sector field of a BM-control word is bits 23..16 (R97). -/
theorem sectorField_eq (w : Word) : sectorField w = ((w >>> 16) &&& 0xFF#32).toNat := by
  have h : (w >>> 16) &&& 0xFF#32 = (w.extractLsb' 16 8).setWidth 32 := by
    apply BitVec.eq_of_getLsbD_eq
    intro i hi
    interval_cases i <;> simp
  rw [h, sectorField, BitVec.toNat_setWidth]
  omega

theorem sectorField_lt (w : Word) : sectorField w < 256 := (w.extractLsb' 16 8).isLt

theorem sectorNumber_lt (w : Word) : sectorNumber w < 65536 := (w.extractLsb' 16 16).isLt

/-- The sector number of a sector register the controller wrote (43_bm_pump.md R230). -/
theorem sectorNumber_sectorWord {k : Nat} {b : Fin 2} (h : k + 90 * b.val < 65536) :
    sectorNumber (sectorWord k b) = k + 90 * b.val := by
  rw [sectorNumber_eq, sectorWord, BitVec.toNat_ushiftRight, BitVec.toNat_ofNat, Nat.shiftRight_eq_div_pow]
  simp only [Config.block1Base]
  omega

end Sys2Proof.Machine
end

