-- ==== Sys2Proof/Laws/PerInstr.lean ====
section
/-! SUPPORT. Facts proved of each operation as syntax. `EncodesAligned`: the access that encodes a well-formed operation is to
a whole aligned word of a window, under every well-formed bus map (20_memory.md R63, R64). -/

namespace Sys2Proof.Laws.EncodesAligned

open Sys2Proof Sys2Proof.Machine

/-- The bus address of an access. -/
def busAddr : Access → Word
  | .read addr => addr
  | .write addr _ _ => addr

/-- The encoding of a well-formed operation is to a whole aligned word of a window. -/
def Statement (i : Instr) : Prop :=
  ∀ p : Params, p.bus.wf → i.wellFormed p = true →
    ∃ win off, locate p.bus (busAddr (encode p i)) = .ok (win, off) ∧ off % 4 = 0

/-- A register the source names. -/
theorem source {p : Params} (hp : p.bus.wf) {r : Reg} (hr : r ∈ BusMap.sourceRegs) :
    ∃ win off, locate p.bus (p.bus.regAddr r) = .ok (win, off) ∧ off % 4 = 0 :=
  ⟨_, _, (locate_regAddr hp (sourceRegs_mem hp hr)).1, by omega⟩

/-- The command register. -/
theorem command {p : Params} (hp : p.bus.wf) :
    ∃ win off, locate p.bus (p.bus.regAddr .cmdStatus) = .ok (win, off) ∧ off % 4 = 0 :=
  source hp (by simp [BusMap.sourceRegs])

/-- A register of the map. -/
theorem register {p : Params} (hp : p.bus.wf) {r : Reg} (hr : r ∈ p.bus.regMap) :
    ∃ win off, locate p.bus (p.bus.regAddr r) = .ok (win, off) ∧ off % 4 = 0 :=
  ⟨_, _, (locate_regAddr hp hr).1, by omega⟩

/-- An aligned word of a window. -/
theorem window {p : Params} (hp : p.bus.wf) {win : Window} {base size off : Nat}
    (hm : (win, base, size) ∈ p.bus.windows) (ho : offsetOk size off = true) :
    ∃ win off', locate p.bus (BitVec.ofNat 32 (base + off)) = .ok (win, off') ∧ off' % 4 = 0 :=
  ⟨_, _, locate_window hp hm (offsetOk_iff.mp ho), (offsetOk_iff.mp ho).1⟩

theorem noop : Statement .noop := fun _ hp _ => command hp
theorem seekRead : Statement .seekRead := fun _ hp _ => command hp
theorem seekWrite : Statement .seekWrite := fun _ hp _ => command hp
theorem recalibrate : Statement .recalibrate := fun _ hp _ => command hp
theorem sleep : Statement .sleep := fun _ hp _ => command hp
theorem start : Statement .start := fun _ hp _ => command hp
theorem setStandby : Statement .setStandby := fun _ hp _ => command hp
theorem setSleep : Statement .setSleep := fun _ hp _ => command hp
theorem clrDskChng : Statement .clrDskChng := fun _ hp _ => command hp
theorem clrReset : Statement .clrReset := fun _ hp _ => command hp
theorem readVersion : Statement .readVersion := fun _ hp _ => command hp
theorem setDiskType : Statement .setDiskType := fun _ hp _ => command hp
theorem requestStatus : Statement .requestStatus := fun _ hp _ => command hp
theorem standby : Statement .standby := fun _ hp _ => command hp
theorem idxLockRetry : Statement .idxLockRetry := fun _ hp _ => command hp
theorem setYearMonth : Statement .setYearMonth := fun _ hp _ => command hp
theorem setDayHour : Statement .setDayHour := fun _ hp _ => command hp
theorem setMinSec : Statement .setMinSec := fun _ hp _ => command hp
theorem getYearMonth : Statement .getYearMonth := fun _ hp _ => command hp
theorem getDayHour : Statement .getDayHour := fun _ hp _ => command hp
theorem getMinSec : Statement .getMinSec := fun _ hp _ => command hp
theorem featureInq : Statement .featureInq := fun _ hp _ => command hp
theorem cmdUnrecognized (op : Half) : Statement (.cmdUnrecognized op) := fun _ hp _ => command hp
theorem regRead (r : Reg) : Statement (.regRead r) := fun _ hp h => register hp (by simp_all [Instr.wellFormed])
theorem statusRead : Statement .statusRead := fun _ hp _ => command hp
theorem regWrite (r : Reg) (word mask : Word) : Statement (.regWrite r word mask) :=
  fun _ hp h => register hp (by simp_all [Instr.wellFormed, BusMap.isGeneric])
theorem regWriteRo (r : Reg) (word mask : Word) : Statement (.regWriteRo r word mask) :=
  fun _ hp h => register hp (by simp_all [Instr.wellFormed, BusMap.isReadOnly])
theorem bmctlWrite (word : Word) : Statement (.bmctlWrite word) := fun _ hp _ => source hp (r := .bmStatusCtl) (by simp [BusMap.sourceRegs])
theorem hardResetWrite (word : Word) : Statement (.hardResetWrite word) := fun _ hp _ => source hp (r := .hardReset) (by simp [BusMap.sourceRegs])
theorem c2Read (off : Nat) : Statement (.c2Read off) :=
  fun _ hp h => window hp (c2_mem_windows _) h
theorem c2Write (off : Nat) (word mask : Word) : Statement (.c2Write off word mask) :=
  fun _ hp h => window hp (c2_mem_windows _) h
theorem dsRead (off : Nat) : Statement (.dsRead off) :=
  fun _ hp h => window hp (ds_mem_windows _) h
theorem dsWrite (off : Nat) (word mask : Word) : Statement (.dsWrite off word mask) :=
  fun _ hp h => window hp (ds_mem_windows _) h
theorem msRead (off : Nat) : Statement (.msRead off) :=
  fun _ hp h => window hp (ms_mem_windows _) h
theorem msWrite (off : Nat) (word mask : Word) : Statement (.msWrite off word mask) :=
  fun _ hp h => window hp (ms_mem_windows _) h
theorem iplRead (off : Nat) : Statement (.iplRead off) :=
  fun _ hp h => window hp (ipl_mem_windows _) h
theorem iplWrite (off : Nat) (word mask : Word) : Statement (.iplWrite off word mask) :=
  fun _ hp h => window hp (ipl_mem_windows _) h

end Sys2Proof.Laws.EncodesAligned
end

