-- ==== Sys2Proof/Tests/Slice0.lean ====
section
/-! SUPPORT. Small tests: what is not well formed, words of the spec's encodings and what they decode to, one step on a small
state with the results of 95_test_vectors.md, and for each obligation with hypotheses a concrete input that meets them. -/

namespace Sys2Proof.Tests

open Sys2Proof Sys2Proof.Machine Sys2Proof.Safety Sys2Proof.Spec

-- One kernel check at a time: each of these theorems evaluates a step.
set_option Elab.async false

/-! ## Small states -/

/-- The default parameters with a pair of ID words (D7: tests may use any distinct pair). -/
def params : Params :=
  { Params.default with idWithIpl := 0x00030000#32, idWithoutIpl := 0x00040000#32 }

/-- The first bytes of an image whose byte `i` is `i mod 256`, at the full size of a disk. -/
def disk : Image := { size := 0x435B0C0, bytes := [(1, 1#8), (2, 2#8), (3, 3#8)] }

/-- An IPL image of 0x100000 bytes. -/
def rom : Image := { size := 0x100000, bytes := [(0x100, 0x12#8), (0x103, 0x34#8), (0xFFFFF, 0x56#8)] }

/-- S0 of 95_test_vectors.md. -/
def s0 : State := State.construct { Construction.bare with params := params, img := disk }

/-- S0 with an IPL image (S0'). -/
def s0ipl : State := State.construct { Construction.bare with params := params, img := disk, ipl := some rom }

/-- S0 with an empty image (S0e). -/
def s0e : State := State.construct { Construction.bare with params := params }

/-- A state with a sector number in CUR_SECTOR, a status word, a mode, a skip flag and a BM status. -/
def at_ (s : State) (sector : Nat) (st : Word) (modeRead skip : Bool) (bm : Word) : State :=
  (((((s.setReg .curSector (BitVec.ofNat 32 (sector * 65536))).setReg .cmdStatus st).setReg .bmStatusCtl bm).setModeRead
    modeRead).setSkip89 skip).setBlock (blockOfSector sector)

/-- The state after one step on an access. -/
def go (s : State) (a : Access) : Option State :=
  match step (s.setPending [a]) with
  | .next t => some t
  | .fault _ => none
  | .refused _ => none

/-- The state an operation leaves. -/
def next (r : Result) : Option State :=
  match r with
  | .next t => some t
  | .fault _ => none
  | .refused _ => none

/-- Why a step has no transition. -/
def noStep (s : State) (a : Access) : Option Refusal :=
  match step (s.setPending [a]) with
  | .refused why => some why
  | .fault _ => none
  | .next _ => none

/-- A write of the whole word. -/
def wr (addr word : Word) : Access := .write addr word 0xFFFFFFFF#32

/-- A command word with non-zero low bits, as B3 writes it. -/
def cmd (op : Nat) : Access := wr 0x05000508#32 (BitVec.ofNat 32 (op * 65536 + 0x1234))

/-- B3's start state: S0 with DATA 0x10050000. -/
def s0d : State := s0.setReg .data 0x10050000#32

/-- What B3 shows of a command. -/
structure Shown where
  st    : Word
  curTk : Word
  data  : Word
  trace : List Event
  irq   : Bool
deriving DecidableEq, Repr

/-- What B3 shows of the state after a command. -/
def shown (t : State) : Shown := ⟨t.reg .cmdStatus, t.reg .curTk, t.reg .data, t.trace, t.irq⟩

/-- What B6 and B7 show of a BM write. -/
structure BmShown where
  st    : Word
  bm    : Word
  sec   : Word
  block : Fin 2
  trace : List Event
deriving DecidableEq, Repr

/-- What B6 and B7 show of the state after a BM write. -/
def bmShown (t : State) : BmShown :=
  ⟨t.reg .cmdStatus, t.reg .bmStatusCtl, t.reg .curSector, t.session.currentBlock, t.trace⟩

/-- Parameters unlike the defaults: seven registers and MISC_REG elsewhere on the bus, CUR_SECTOR left out of the read-only
set, a few flags, BM bits and opcodes exchanged. -/
def other : Params :=
  { params with
    bus :=
      { c2Base := 0x10002000, c2Size := 0x20, dsBase := 0x10001000, dsSize := 0xE8, regBase := 0x10000000, numRegs := 8,
        msBase := 0x10003000, msSize := 8, iplBase := 0, iplSize := 0x100,
        regMap := [.hardReset, .bmStatusCtl, .cmdStatus, .idReg, .curTk, .curSector, .data, .miscReg],
        readOnlyRegs := [.idReg] }
    statusBits := { StatusBits.default with mechaInt := 0, bmInt := 1 }
    bmCtlBits := { BmCtlBits.default with start := 3, blkTrans := 31 }
    bmStatusBits := { BmStatusBits.default with running := 24, block := 31 }
    opcodes := { Opcodes.default with noop := 0x0008#16, clrDskChng := 0x0000#16 } }

/-- Three registers more than the default map has, the second of them read-only. -/
def wide : Params :=
  { params with
    bus :=
      { BusMap.default with
        numRegs := 22
        regMap := BusMap.default.regMap ++ [.other 0, .other 7, .other 1]
        readOnlyRegs := BusMap.default.readOnlyRegs ++ [.other 7] } }

/-! ## Well-formedness -/

theorem test_wf_cmdUnrecognized : (Instr.cmdUnrecognized 0x001B#16).wellFormed params = false := by decide
theorem test_wf_regRead : (Instr.regRead .testReg).wellFormed other = false ∧ (Instr.regRead .cmdStatus).wellFormed params = false ∧
    (Instr.regRead (.other 0)).wellFormed params = false ∧ (Instr.regWrite (.other 7) 0#32 0#32).wellFormed wide = false := by decide
theorem test_wf_regWrite : (Instr.regWrite .curTk 0#32 0#32).wellFormed params = false ∧
    (Instr.regWrite .cmdStatus 0#32 0#32).wellFormed params = false ∧
    (Instr.regWrite .bmStatusCtl 0#32 0#32).wellFormed params = false ∧
    (Instr.regWrite .hardReset 0#32 0#32).wellFormed params = false := by decide
theorem test_wf_regWriteRo : (Instr.regWriteRo .data 0#32 0#32).wellFormed params = false := by decide
theorem test_wf_c2 : (Instr.c2Read 0x400).wellFormed params = false ∧ (Instr.c2Write 2 0#32 0#32).wellFormed params = false := by decide
theorem test_wf_ds : (Instr.dsRead 0x100).wellFormed params = false ∧ (Instr.dsWrite 1 0#32 0#32).wellFormed params = false := by decide
theorem test_wf_ms : (Instr.msRead 0x40).wellFormed params = false ∧ (Instr.msWrite 3 0#32 0#32).wellFormed params = false := by decide
theorem test_wf_ipl : (Instr.iplRead 0x400000).wellFormed params = false ∧
    (Instr.iplWrite 2 0#32 0#32).wellFormed params = false := by decide

/-! ## Decoding: words written out from 30_encoding.md R90, R96, R101 and 20_memory.md R61 -/

theorem test_decode_commands_00_0A :
    decode params (wr 0x05000508#32 0x00000000#32) = .ok .noop ∧ decode params (wr 0x05000508#32 0x00010000#32) = .ok .seekRead ∧
    decode params (wr 0x05000508#32 0x00020000#32) = .ok .seekWrite ∧
    decode params (wr 0x05000508#32 0x00030000#32) = .ok .recalibrate ∧
    decode params (wr 0x05000508#32 0x00040000#32) = .ok .sleep ∧ decode params (wr 0x05000508#32 0x00050000#32) = .ok .start ∧
    decode params (wr 0x05000508#32 0x00060000#32) = .ok .setStandby ∧
    decode params (wr 0x05000508#32 0x00070000#32) = .ok .setSleep ∧
    decode params (wr 0x05000508#32 0x00080000#32) = .ok .clrDskChng ∧
    decode params (wr 0x05000508#32 0x00090000#32) = .ok .clrReset ∧
    decode params (wr 0x05000508#32 0x000A0000#32) = .ok .readVersion := by decide +kernel

theorem test_decode_commands_0B_14 :
    decode params (wr 0x05000508#32 0x000B0000#32) = .ok .setDiskType ∧
    decode params (wr 0x05000508#32 0x000C0000#32) = .ok .requestStatus ∧
    decode params (wr 0x05000508#32 0x000D0000#32) = .ok .standby ∧
    decode params (wr 0x05000508#32 0x000E0000#32) = .ok .idxLockRetry ∧
    decode params (wr 0x05000508#32 0x000F0000#32) = .ok .setYearMonth ∧
    decode params (wr 0x05000508#32 0x00100000#32) = .ok .setDayHour ∧
    decode params (wr 0x05000508#32 0x00110000#32) = .ok .setMinSec ∧
    decode params (wr 0x05000508#32 0x00120000#32) = .ok .getYearMonth ∧
    decode params (wr 0x05000508#32 0x00130000#32) = .ok .getDayHour ∧
    decode params (wr 0x05000508#32 0x00140000#32) = .ok .getMinSec := by decide +kernel

theorem test_decode_commands_rest :
    decode params (wr 0x05000508#32 0x001B0000#32) = .ok .featureInq ∧
    decode params (.write 0x05000508#32 0x001B0001#32 0#32) = .ok .featureInq ∧
    decode params (wr 0x05000508#32 0x00150000#32) = .ok (.cmdUnrecognized 0x0015#16) ∧
    decode params (wr 0x05000508#32 0xFFFF0000#32) = .ok (.cmdUnrecognized 0xFFFF#16) := by decide +kernel

theorem test_decode_registers :
    decode params (.read 0x05000500#32) = .ok (.regRead .data) ∧ decode params (.read 0x05000540#32) = .ok (.regRead .idReg) ∧
    decode params (.read 0x05000548#32) = .ok (.regRead .testPinSel) ∧ decode params (.read 0x05000508#32) = .ok .statusRead ∧
    decode params (.write 0x05000504#32 0x12345678#32 0x00FF00FF#32) = .ok (.regWrite .miscReg 0x12345678#32 0x00FF00FF#32) ∧
    decode params (.write 0x05000528#32 1#32 2#32) = .ok (.regWrite .hostSecbyte 1#32 2#32) ∧
    decode params (wr 0x0500051C#32 5#32) = .ok (.regWriteRo .curSector 5#32 0xFFFFFFFF#32) ∧
    decode params (.write 0x05000510#32 0x81000000#32 0#32) = .ok (.bmctlWrite 0x81000000#32) ∧
    decode params (.write 0x05000520#32 0xAAAA0000#32 0#32) = .ok (.hardResetWrite 0xAAAA0000#32) := by decide +kernel

theorem test_decode_windows :
    decode params (.read 0x050003FC#32) = .ok (.c2Read 0x3FC) ∧ decode params (wr 0x05000000#32 9#32) = .ok (.c2Write 0 9#32 0xFFFFFFFF#32) ∧
    decode params (.read 0x05000404#32) = .ok (.dsRead 4) ∧ decode params (wr 0x050004FC#32 9#32) = .ok (.dsWrite 0xFC 9#32 0xFFFFFFFF#32) ∧
    decode params (.read 0x05000580#32) = .ok (.msRead 0) ∧ decode params (wr 0x050005BC#32 9#32) = .ok (.msWrite 0x3C 9#32 0xFFFFFFFF#32) ∧
    decode params (.read 0x06000100#32) = .ok (.iplRead 0x100) ∧
    decode params (wr 0x063FFFFC#32 9#32) = .ok (.iplWrite 0x3FFFFC 9#32 0xFFFFFFFF#32) := by decide +kernel

/-- V-M10, V-M11, the gap below `MS_BASE`, and addresses around the windows (R64). -/
theorem test_decode_noStep :
    decode params (.read 0x05000502#32) = .error .misaligned ∧ decode params (.read 0x0500054C#32) = .error .unmapped ∧
    decode params (.read 0x0500057C#32) = .error .unmapped ∧ decode params (.read 0x050005C0#32) = .error .unmapped ∧
    decode params (.read 0x04FFFFFC#32) = .error .unmapped ∧ decode params (wr 0x06400000#32 0#32) = .error .unmapped := by decide +kernel

/-- Numbers of spec/opcode_table.json: a command word, an MMIO address (log entry 12). -/
theorem test_decodeTableWord :
    decodeTableWord 32 0x001B0000 = some .featureInq ∧ decodeTableWord 32 0x00010000 = some .seekRead ∧
    decodeTableWord 32 0x05000508 = some .statusRead ∧ decodeTableWord 32 0x05000510 = some (.bmctlWrite 0#32) ∧
    decodeTableWord 32 0x05000520 = some (.hardResetWrite 0#32) ∧ decodeTableWord 32 0x05000400 = some (.dsRead 0) ∧
    decodeTableWord 32 0x06000000 = some (.iplRead 0) := by decide +kernel

/-- A configuration of its own decodes by its own map and opcodes (R90, R91, R101). -/
theorem test_decode_other : other.wf ∧ decode other (wr 0x10000008#32 0x00080000#32) = .ok .noop ∧
    decode other (wr 0x10000008#32 0#32) = .ok .clrDskChng ∧ decode other (.read 0x1000001C#32) = .ok (.regRead .miscReg) ∧
    decode other (.write 0x10000014#32 5#32 6#32) = .ok (.regWrite .curSector 5#32 6#32) ∧
    decode other (.read 0x100010E4#32) = .ok (.dsRead 0xE4) ∧ decode other (.read 0x05000508#32) = .error .unmapped := by
  decide +kernel

/-- A map of 22 registers decodes at the indices past the default ones (R7, R90, R91, G1). -/
theorem test_decode_wide : wide.wf ∧ decode wide (.read 0x05000548#32) = .ok (.regRead .testPinSel) ∧
    decode wide (.write 0x0500054C#32 5#32 6#32) = .ok (.regWrite (.other 0) 5#32 6#32) ∧
    decode wide (.write 0x05000550#32 5#32 6#32) = .ok (.regWriteRo (.other 7) 5#32 6#32) ∧
    decode wide (.read 0x05000554#32) = .ok (.regRead (.other 1)) ∧
    decode wide (.read 0x05000558#32) = .error .unmapped := by decide +kernel

/-! ## Commands (B2, B3 and the examples of 41_commands.md) -/

theorem test_noop : (go s0d (cmd 0x00)).map shown =
    some ⟨0x03180000#32, 0#32, 0x10050000#32, [.signal], true⟩ := by decide +kernel
theorem test_seekRead : (go s0d (cmd 0x01)).map shown =
      some ⟨0x03000000#32, 0x70050000#32, 0x10050000#32, [.signal], true⟩ ∧
    (go s0d (cmd 0x01)).map (fun t => (t.session.modeRead, t.session.zone, t.session.trackByteOffset)) =
      some (true, 8, 0x2346410#32) := by decide +kernel
theorem test_seekWrite : (go s0d (cmd 0x02)).map shown =
      some ⟨0x03000000#32, 0x70050000#32, 0x10050000#32, [.signal], true⟩ ∧
    (go (s0d.setModeRead true) (cmd 0x02)).map (fun t => (t.session.modeRead, t.session.zone, t.session.trackByteOffset)) =
      some (false, 8, 0x2346410#32) := by decide +kernel
theorem test_recalibrate : (go s0d (cmd 0x03)).map shown =
    some ⟨0x03180000#32, 0#32, 0#32, [.signal], true⟩ := by decide +kernel
theorem test_sleep : (go (s0.setReg .cmdStatus 0x01000000#32) (cmd 0x04)).map shown =
    some ⟨0x03180000#32, 0#32, 0#32, [.signal], true⟩ := by decide +kernel
theorem test_start : (go s0d (cmd 0x05)).map shown =
    some ⟨0x03000000#32, 0#32, 0x10050000#32, [.signal], true⟩ := by decide +kernel
theorem test_setStandby : (go s0d (cmd 0x06)).map shown =
    some ⟨0x03180000#32, 0#32, 0x10050000#32, [.signal], true⟩ := by decide +kernel
theorem test_setSleep : (go s0d (cmd 0x07)).map shown =
    some ⟨0x03180000#32, 0#32, 0x10050000#32, [.signal], true⟩ := by decide +kernel
theorem test_clrDskChng : (go (s0.setReg .cmdStatus 0x01590000#32) (cmd 0x08)).map shown =
    some ⟨0x03580000#32, 0#32, 0#32, [.signal], true⟩ := by decide +kernel
theorem test_clrReset : (go (s0.setReg .cmdStatus 0x03580000#32) (cmd 0x09)).map shown =
    some ⟨0x03180000#32, 0#32, 0#32, [.signal], true⟩ := by decide +kernel
theorem test_readVersion : (go (s0.setReg .data 0xDEADBEEF#32) (cmd 0x0A)).map shown =
    some ⟨0x03180000#32, 0#32, 0xDEADBEEF#32, [.signal], true⟩ := by decide +kernel
theorem test_setDiskType : (go s0d (cmd 0x0B)).map shown =
    some ⟨0x03180000#32, 0#32, 0x10050000#32, [.signal], true⟩ := by decide +kernel
theorem test_requestStatus : (go s0d (cmd 0x0C)).map shown =
    some ⟨0x03180000#32, 0#32, 0x10050000#32, [.signal], true⟩ := by decide +kernel
theorem test_standby : (go s0d (cmd 0x0D)).map shown =
    some ⟨0x03080000#32, 0#32, 0x10050000#32, [.signal], true⟩ := by decide +kernel
theorem test_idxLockRetry : (go (s0.setReg .curTk 0x00050000#32) (cmd 0x0E)).map shown =
    some ⟨0x03180000#32, 0x60050000#32, 0#32, [.signal], true⟩ := by decide +kernel
theorem test_setYearMonth : (go s0d (cmd 0x0F)).map shown =
    some ⟨0x03180000#32, 0#32, 0x10050000#32, [.signal], true⟩ := by decide +kernel
theorem test_setDayHour : (go s0d (cmd 0x10)).map shown =
    some ⟨0x03180000#32, 0#32, 0x10050000#32, [.signal], true⟩ := by decide +kernel
theorem test_setMinSec : (go s0d (cmd 0x11)).map shown =
    some ⟨0x03180000#32, 0#32, 0x10050000#32, [.signal], true⟩ := by decide +kernel

/-- S0 with B2's clock record injected. -/
def s0clock : State := { s0d with port := { s0d.port with clockFeed := [⟨26, 10, 11, 14, 30, 5⟩] } }

theorem test_getYearMonth : (go s0clock (cmd 0x12)).map shown =
    some ⟨0x03180000#32, 0#32, 0x26110000#32, [.clockRead .yearMonth, .signal], true⟩ := by decide +kernel
theorem test_getDayHour : (go s0clock (cmd 0x13)).map shown =
    some ⟨0x03180000#32, 0#32, 0x11140000#32, [.clockRead .dayHour, .signal], true⟩ := by decide +kernel
theorem test_getMinSec : (go s0clock (cmd 0x14)).map shown =
    some ⟨0x03180000#32, 0#32, 0x30050000#32, [.clockRead .minSec, .signal], true⟩ := by decide +kernel
theorem test_featureInq : (go s0d (.write 0x05000508#32 0x001B0000#32 0#32)).map shown =
    some ⟨0x03180000#32, 0#32, 0x00010000#32, [.signal], true⟩ := by decide +kernel
theorem test_cmdUnrecognized : (go s0d (cmd 0x15)).map shown =
      some ⟨0x03180000#32, 0#32, 0x10050000#32, [.signal], true⟩ ∧
    (go s0d (cmd 0xFFFF)).map shown = some ⟨0x03180000#32, 0#32, 0x10050000#32, [.signal], true⟩ := by decide +kernel

/-- R175 and B2's table. -/
theorem test_bcd : [0, 9, 10, 26, 59, 99, 100, 126, 255].map bcd =
    [0x00#8, 0x09#8, 0x10#8, 0x26#8, 0x59#8, 0x99#8, 0xA0#8, 0xC6#8, 0x95#8] := by decide +kernel

/-- Rows of B1: both sides of a band boundary, both heads, the last track and an out-of-range track. -/
theorem test_geometry :
    [(false, 157), (false, 158), (false, 1060), (false, 1061), (false, 1175), (true, 464), (true, 465), (true, 1174),
      (true, 4095)].map (fun e => ((resolveZone e.1 e.2).val, resolveOffset e.1 e.2)) =
    [(0, 0x5E7BD0), (1, 0x5F15E0), (6, 0x20B5D40), (7, 0x20BBCE0), (7, 0x23196E0), (10, 0x32913C0), (11, 0x3299340),
      (15, 0x4356660), (15, 0x78607C0)] := by decide +kernel

/-! ## MMIO dispatch (B4, B5) -/

/-- V-M15, and the stored word of DATA. -/
theorem test_regRead : (go s0 (.read 0x05000540#32)).map (·.port.result) = some (some 0x00040000#32) ∧
    (go s0d (.read 0x05000500#32)).map (·.port.result) = some (some 0x10050000#32) := by decide +kernel
/-- V-M1. -/
theorem test_regWrite_masked : (go (s0.setReg .data 0xFF#32) (.write 0x05000500#32 0x12000000#32 0xFF000000#32)).map
    (·.reg .data) = some 0x120000FF#32 := by decide +kernel
/-- V-M2: a bit of the word outside the mask is ORed in. -/
theorem test_regWrite_unmasked_bit : (go (s0.setReg .data 0xF0#32) (.write 0x05000500#32 0x12000005#32 0xFF000000#32)).map
    (·.reg .data) = some 0x120000F5#32 := by decide +kernel
/-- V-M4, V-M5. -/
theorem test_regWriteRo : (go s0 (wr 0x0500050C#32 0xFFFFFFFF#32)).map (fun t => (t.reg .curTk, t.trace)) = some (0#32, []) ∧
    (go s0 (wr 0x05000540#32 0#32)).map (·.reg .idReg) = some 0x00040000#32 := by decide +kernel
/-- V-M8. -/
theorem test_hardReset_magic : (go s0 (wr 0x05000520#32 0xAAAA0000#32)).map
    (fun t => decide (t = s0)) = some true := by decide +kernel
/-- V-M9, and no step follows. -/
theorem test_hardReset_fault : (go s0 (wr 0x05000520#32 0x12345678#32)).map (fun t => (t.fault, (go t (.read 0x05000508#32)).isNone)) =
    some (some (.hardResetWord 0x12345678#32), true) := by decide +kernel
/-- V-M6. -/
theorem test_dsWrite : (go s0 (wr 0x05000404#32 0x11223344#32)).map (·.ds) =
    some [(4, 0x11#8), (5, 0x22#8), (6, 0x33#8), (7, 0x44#8)] := by decide +kernel
/-- V-M6 and V-M7: a masked write, then a read. -/
theorem test_dsRead : (go { s0 with ds := [(4, 0x11#8), (5, 0x22#8), (6, 0x33#8), (7, 0x44#8)] } (.read 0x05000404#32)).map
      (·.port.result) = some (some 0x11223344#32) ∧
    (go { s0 with ds := [(4, 0x11#8), (5, 0x22#8), (6, 0x33#8), (7, 0x44#8)] }
      (.write 0x05000404#32 0x0000AA00#32 0x0000FF00#32)).map (·.ds.wordAt 4) = some 0x1122AA44#32 := by decide +kernel
theorem test_c2 : (go s0 (wr 0x050003FC#32 0xA1B2C3D4#32)).map (·.c2) =
      some [(0x3FC, 0xA1#8), (0x3FD, 0xB2#8), (0x3FE, 0xC3#8), (0x3FF, 0xD4#8)] ∧
    (go { s0 with c2 := [(1, 0xEE#8)] } (.read 0x05000000#32)).map (·.port.result) = some (some 0x00EE0000#32) := by
  decide +kernel
theorem test_ms : (go s0 (wr 0x050005BC#32 0xA1B2C3D4#32)).map (·.ms) =
      some [(0x3C, 0xA1#8), (0x3D, 0xB2#8), (0x3E, 0xC3#8), (0x3F, 0xD4#8)] ∧
    (go { s0 with ms := [(2, 0xEE#8)] } (.read 0x05000580#32)).map (·.port.result) = some (some 0x0000EE00#32) := by
  decide +kernel
/-- V-M12, V-M13, and a read inside the image. -/
theorem test_iplRead : (go s0 (.read 0x06000100#32)).map (·.port.result) = some (some 0#32) ∧
    noStep s0ipl (.read 0x06100000#32) = some (.noStep .beyondIpl) ∧
    (go s0ipl (.read 0x06000100#32)).map (·.port.result) = some (some 0x12000034#32) := by decide +kernel
/-- V-M14. -/
theorem test_iplWrite : (go s0ipl (wr 0x06000000#32 0xFFFFFFFF#32)).map
    (fun t => decide (t = s0ipl)) = some true := by decide +kernel

/-- V-R1 and V-R4: no side effect at 85; at 88 the value from before it. -/
theorem test_statusRead : (go (at_ s0 85 0x05180000#32 true false 0#32) (.read 0x05000508#32)).map
      (fun t => (t.port.result, bmShown t)) =
      some (some 0x05180000#32, ⟨0x05180000#32, 0#32, 0x00550000#32, 0, []⟩) ∧
    (go { at_ s0 88 0x45180000#32 true false 0#32 with c2 := [(9, 7#8)] } (.read 0x05000508#32)).map
      (fun t => (t.port.result, bmShown t, t.c2)) =
      some (some 0x45180000#32, ⟨0x15180000#32, 0#32, 0x00590000#32, 0, [.clear, .signal]⟩, []) := by decide +kernel
/-- V-P7 and V-P8: the gap. -/
theorem test_statusRead_gap :
    (go (at_ s0 89 0x05000000#32 true true 0x81000000#32) (.read 0x05000508#32)).map bmShown =
      some ⟨0x05000000#32, 0x80000000#32, 0x005A0000#32, 1, [.clear, .signal]⟩ ∧
    (go (at_ s0 89 0x05000000#32 true true 0x80000000#32) (.read 0x05000508#32)).map bmShown =
      some ⟨0x05000000#32, 0#32, 0x00590000#32, 0, [.clear, .signal]⟩ := by decide +kernel

/-! ## BM control and the pump (B6, B7) -/

/-- V-P1, V-P6, V-P11 and V-P14. -/
theorem test_bmctl_pump :
    (go (at_ s0 0 0x01000000#32 true false 0#32) (wr 0x05000510#32 0x80000000#32)).map (fun t => (bmShown t, t.ds.wordAt 0)) =
      some (⟨0x45000000#32, 0x80000000#32, 0x00010000#32, 0, [.clear, .signal]⟩, 0x00010203#32) ∧
    (go (at_ s0 0 0x01000000#32 true false 0#32) (wr 0x05000510#32 0x80590000#32)).map (fun t => (bmShown t, t.session.skip89)) =
      some (⟨0x15000000#32, 0x80000000#32, 0x00590000#32, 0, [.clear, .signal]⟩, true) ∧
    (go (at_ s0 0 0x01000000#32 false false 0#32) (wr 0x05000510#32 0x82550000#32)).map bmShown =
      some ⟨0x45000000#32, 0x80000000#32, 0x005B0000#32, 1,
        [.clear, .commit 0x4C20#32 (List.replicate 232 0#8), .signal]⟩ ∧
    (go (at_ s0 0 0x01000000#32 true false 0#32) (wr 0x05000510#32 0x80C80000#32)).map bmShown =
      some ⟨0x05000000#32, 0x80000000#32, 0x00C80000#32, 1, [.clear, .signal]⟩ := by decide +kernel
/-- V-B1, V-B4, V-B5 and V-P15. -/
theorem test_bmctl_control :
    (go s0 (wr 0x05000510#32 0x005A0000#32)).map bmShown = some ⟨0x01180000#32, 0#32, 0x005A0000#32, 1, [.clear]⟩ ∧
    (go s0 (wr 0x05000510#32 0x90000000#32)).map (fun t => (bmShown t, t.session.resetHold)) =
      some (⟨0x45180000#32, 0x80000000#32, 0x00010000#32, 0, [.clear, .signal]⟩, true) ∧
    (go ((at_ s0 1 0x45180000#32 false false 0x80000000#32).setResetHold true) (wr 0x05000510#32 0#32)).map
      (fun t => (bmShown t, t.session.resetHold)) = some (⟨0x01180000#32, 0#32, 0#32, 0, [.clear]⟩, false) ∧
    (go ((at_ s0e 0 0x02000000#32 true false 0#32).emit .signal) (wr 0x05000510#32 0x81000000#32)).map
      (fun t => (bmShown t, t.fault)) =
      some (⟨0#32, 0x80000000#32, 0#32, 0, [.signal, .clear]⟩, some (.diskRange 0 232)) := by decide +kernel

/-- A configuration of its own: a pump from block 0's last sector with its own START, BLOCK and BM_INT bits (R93, R96, R98,
R216). -/
theorem test_bmctl_other : (go { s0 with params := other } (wr 0x10000004#32 0x80550008#32)).map bmShown =
    some ⟨0x41180002#32, 0x01000000#32, 0x005B0000#32, 1,
      [.clear, .commit 0x4C20#32 (List.replicate 232 0#8), .signal]⟩ := by decide +kernel

/-- A further register is plain storage (R29, R130), and a read-only one ignores a write (R126). -/
theorem test_further_register :
    (go ({ s0 with params := wide }.setReg (.other 1) 0x12345678#32) (.write 0x05000554#32 0x00000F00#32 0x0000FF00#32)).map
      (fun t => (t.reg (.other 1), t.reg (.other 0), t.reg .testPinSel)) = some (0x12340F78#32, 0#32, 0#32) ∧
    (go ({ s0 with params := wide }.setReg (.other 7) 7#32) (wr 0x05000550#32 9#32)).map
      (fun t => (t.reg (.other 7), t.reg (.other 0))) = some (7#32, 0#32) := by decide +kernel

/-! ## Witnesses: inputs that meet the hypotheses of the obligations, clause by clause -/

theorem witness_TableWordsDecode : params.bus = BusMap.default ∧ params.opcodes = Opcodes.default := ⟨rfl, rfl⟩
theorem witness_DecodeOfEncode : (wide.bus.wf ∧ wide.opcodes.wf ∧ (Instr.regWrite (.other 1) 1#32 2#32).wellFormed wide = true) ∧
    params.bus.wf ∧ params.opcodes.wf ∧ (Instr.c2Write 0x3FC 1#32 2#32).wellFormed params = true ∧
    (Instr.cmdUnrecognized 0x001A#16).wellFormed params = true ∧ (Instr.regWrite .testPinSel 1#32 2#32).wellFormed params = true ∧
    (Instr.regWriteRo .idReg 1#32 2#32).wellFormed params = true := by decide
theorem witness_EncodeOfDecode : params.bus.wf ∧ params.opcodes.wf ∧ decode params (.write 0x05000510#32 1#32 2#32) = .ok (.bmctlWrite 1#32) ∧
    decode params (.read 0x063FFFFC#32) = .ok (.iplRead 0x3FFFFC) := by decide +kernel
theorem witness_EveryCommandWordDecodes : params.bus.wf ∧ params.opcodes.wf ∧ params.bus.regMap[2]? = some .cmdStatus ∧
    (0x0014#16, Instr.getMinSec) ∈ opcodeRows params.opcodes ∧ (0x00141234#32).extractLsb' 16 16 = 0x0014#16 ∧
    (∀ e ∈ opcodeRows params.opcodes, (0x00151234#32).extractLsb' 16 16 ≠ e.1) ∧ params.opcodes = Opcodes.default ∧
    (0x00001234#32 >>> 16).toNat = 0 ∧ (0x00141234#32 >>> 16).toNat = 20 ∧
    (0x001B1234#32 >>> 16).toNat = 0x1B ∧ (0x15 ≤ (0x001A0000#32 >>> 16).toNat ∧ (0x001A0000#32 >>> 16).toNat ≤ 0x1A) ∧
    0x1C ≤ (0x001C0000#32 >>> 16).toNat ∧ 0x001B0000#32 >>> 16 = 0x001B1234#32 >>> 16 := by decide
theorem witness_RegisterAddressSelectsRegister : params.bus = BusMap.default ∧
    ([.data, .miscReg, .cmdStatus, .curTk, .bmStatusCtl, .errSector, .seqStatusCtl, .curSector, .hardReset, .c1S0,
      .hostSecbyte, .c1S2, .secByte, .c1S4, .c1S6, .curAddr, .idReg, .testReg, .testPinSel] : List Reg)[18]? =
      some .testPinSel := ⟨rfl, rfl⟩
/-- The default map and another one, at both ends and at each register with an arm of its own. -/
theorem witness_ConfiguredRegisterMapDecodes : (params.bus.wf ∧ params.bus.regMap[0]? = some .data ∧
      params.bus.regMap[18]? = some .testPinSel ∧ params.bus.regMap[16]? = some .idReg) ∧
    (other.bus.wf ∧ other.bus.regMap[0]? = some .hardReset ∧ other.bus.regMap[1]? = some .bmStatusCtl ∧
      other.bus.regMap[2]? = some .cmdStatus ∧ other.bus.regMap[7]? = some .miscReg) ∧
    (wide.bus.wf ∧ wide.bus.regMap[19]? = some (.other 0) ∧ wide.bus.regMap[20]? = some (.other 7) ∧
      wide.bus.regMap[21]? = some (.other 1)) := ⟨by decide, by decide, by decide⟩
theorem witness_WindowAddressesDecode : params.bus.wf ∧ (0x3FC % 4 = 0 ∧ 0x3FC + 4 ≤ 0x400) ∧ (0xFC % 4 = 0 ∧ 0xFC + 4 ≤ 0x100) ∧
    (0x3C % 4 = 0 ∧ 0x3C + 4 ≤ 0x40) ∧ (0x3FFFFC % 4 = 0 ∧ 0x3FFFFC + 4 ≤ 0x400000) := by decide

/-- Two accesses pending. -/
def s0two : State := s0.setPending [.read 0x05000500#32, wr 0x05000508#32 0#32]

theorem witness_StepRunsDecodedAccess : s0two.fault = none ∧
    s0two.port.pending = .read 0x05000500#32 :: [wr 0x05000508#32 0#32] ∧
    decode params (.read 0x05000500#32) = .ok (.regRead .data) := ⟨rfl, rfl, by decide +kernel⟩
theorem witness_IdleStepChangesNothing : s0.fault = none ∧ s0.port.pending = [] := ⟨rfl, rfl⟩
theorem witness_FaultedStateHasNoStep : (s0.raise (.diskRange 0 232)).fault = some (.diskRange 0 232) := rfl
theorem witness_FetchWordRunsItsOperation : s0.fault = none ∧ decodeNumber s0.params 32 0x001B0000 = some .featureInq ∧
    State.reset.fault = none ∧ State.reset.params = Params.default ∧ decodeTableWord 32 0x001B0000 = some .featureInq :=
  ⟨rfl, by decide +kernel, rfl, rfl, by decide +kernel⟩
/-- A misaligned address in the register window, the two ends of the unassigned register offsets, and an IPL read just past
a present image. -/
theorem witness_BadAccessHasNoStep : s0ipl.fault = none ∧ s0ipl.params.bus.wf ∧
    ((0x05000500, 4 * 19) ∈ [(params.bus.c2Base, params.bus.c2Size), (params.bus.dsBase, params.bus.dsSize),
        (params.bus.regBase, 4 * params.bus.numRegs)] ∧ ((0x05000502#32).toNat - 0x05000500) % 4 ≠ 0) ∧
    (∀ e ∈ params.bus.windows, ¬ (e.2.1 ≤ (0x0500054C#32).toNat ∧ (0x0500054C#32).toNat < e.2.1 + e.2.2)) ∧
    (∀ e ∈ params.bus.windows, ¬ (e.2.1 ≤ (0x0500057C#32).toNat ∧ (0x0500057C#32).toNat < e.2.1 + e.2.2)) ∧
    s0ipl.ipl = some rom ∧ ((0x06100000#32).toNat - 0x06000000) % 4 = 0 ∧
    (0x06100000#32).toNat - 0x06000000 + 4 ≤ params.bus.iplSize ∧ (0x06100000#32).toNat - 0x06000000 + 4 > rom.size := by
  refine ⟨rfl, ?_, ?_, ?_, ?_, rfl, ?_, ?_, ?_⟩ <;> decide
theorem witness_EveryOperationCompletes : s0ipl.fault = none ∧ (Instr.iplRead 0xFFFFC).wellFormed params = true ∧
    s0ipl.ipl = some rom ∧ 0xFFFFC + 4 ≤ rom.size := ⟨rfl, by decide, rfl, by decide⟩
theorem witness_EpilogueOnlyCommands : s0.fault = none ∧
    s0.params.opcodes = Opcodes.default ∧ (∀ e ∈ opcodeRows s0.params.opcodes, 0x0015#16 ≠ e.1) ∧
    (0x15 ≤ (0x0015#16).toNat ∧ (0x0015#16).toNat ≤ 0x1A) ∧ (0x15 ≤ (0x001A#16).toNat ∧ (0x001A#16).toNat ≤ 0x1A) ∧
    0x1C ≤ (0x001C#16).toNat ∧ 0x1C ≤ (0xFFFF#16).toNat := ⟨rfl, rfl, by decide, by decide, by decide, by decide, by decide⟩
theorem witness_SeekResult : s0d.fault = none := rfl
theorem witness_DataCommandResult : s0d.fault = none := rfl
theorem witness_MotorHeadCommandResult : s0.fault = none := rfl
theorem witness_ClearFlagCommandResult : s0.fault = none := rfl
theorem witness_IdxLockRetryResult : s0.fault = none ∧ s0.params.wf := ⟨rfl, by decide⟩
/-- An injected record, and a free draw. -/
theorem witness_GetClockResult :
    (s0clock.fault = none ∧ s0clock.port.clockFeed = ⟨26, 10, 11, 14, 30, 5⟩ :: []) ∧
    (s0.fault = none ∧ s0.port.clockFeed = [] ∧ ∃ c, c = Config.clockDraw s0.port.clockDraws) :=
  ⟨⟨rfl, rfl⟩, rfl, rfl, _, rfl⟩
theorem witness_BcdByte : 99 < 100 := by decide
theorem witness_EveryCommandWriteSignalsOnce : params.bus.wf ∧ params.opcodes.wf ∧
    params.bus.regMap[2]? = some .cmdStatus ∧ (s0.setPending [wr 0x05000508#32 0xFFFF1234#32]).fault = none ∧
    (s0.setPending [wr 0x05000508#32 0xFFFF1234#32]).port.pending =
      .write (BitVec.ofNat 32 (params.bus.regBase + 4 * 2)) 0xFFFF1234#32 0xFFFFFFFF#32 :: [] := by decide
theorem witness_CommandFrame : isCommand .seekRead = true ∧ isCommand (.cmdUnrecognized 0x001C#16) = true ∧
    (next (exec .seekRead s0d)).isSome = true ∧ (next (exec (.cmdUnrecognized 0x001C#16) s0d)).isSome = true := by
  decide +kernel
theorem witness_GeometryFollowsTables : 4095 < 4096 ∧ 0 < 4096 := by decide
theorem witness_GeometryTableLaws : ((14 : Fin 16).val + 1 = (15 : Fin 16).val) ∧ ((0 : Fin 16).val + 1 = (1 : Fin 16).val) ∧
    157 ≤ 158 ∧ 1061 ∈ [0, 158, 316, 465, 614, 763, 912, 1061] ∧ 1173 + 1 < 1175 := by decide
/-- A held RESET under `RESET_CLEARS_SESSION`, for the exception; a NOOP, for the rule. -/
def s0clears : State := { s0 with params := { params with resetClearsSession := true }, session := { s0.session with resetHold := true, zone := 3 } }

theorem witness_OnlySeeksMoveGeometry :
    ((next (exec (.bmctlWrite 0#32) s0clears)).isSome = true ∧ (0#32).getLsbD params.bmCtlBits.reset = false ∧
      s0clears.session.resetHold = true ∧ s0clears.params.resetClearsSession = true) ∧
    (next (exec .noop s0)).isSome = true := by decide +kernel
/-- The side effect's condition at 85 and at 86, and with BM_INT clear. -/
theorem witness_RegisterReadResult : s0.fault = none ∧ Reg.testPinSel ≠ .cmdStatus ∧ Reg.testPinSel ∈ s0.params.bus.regMap ∧
    (At (at_ s0 86 0x05180000#32 true false 0#32) 86 0 ∧
      ((at_ s0 86 0x05180000#32 true false 0#32).reg .cmdStatus).getLsbD params.statusBits.bmInt = true ∧ 85 < 86) ∧
    (At (at_ s0 85 0x05180000#32 true false 0#32) 85 0 ∧ 85 ≤ 85) ∧
    (At (at_ s0 176 0x01180000#32 true false 0#32) 86 1 ∧
      ((at_ s0 176 0x01180000#32 true false 0#32).reg .cmdStatus).getLsbD params.statusBits.bmInt = false) := by decide +kernel
theorem witness_StatusReadNeverFaults : (at_ s0e 86 0x04180000#32 true false 0#32).fault = none ∧
    At (at_ s0e 86 0x04180000#32 true false 0#32) 86 0 ∧
    ((at_ s0e 86 0x04180000#32 true false 0#32).reg .cmdStatus).getLsbD params.statusBits.bmInt = true ∧ 85 < 86 := by decide +kernel
/-- The end of a write transfer, and of a read transfer. -/
theorem witness_StatusReadsNeverDrainInterrupt :
    ((at_ s0 86 0x45000000#32 false false 0#32).fault = none ∧ At (at_ s0 86 0x45000000#32 false false 0#32) 86 0 ∧
      ((at_ s0 86 0x45000000#32 false false 0#32).reg .cmdStatus).getLsbD params.statusBits.bmInt = true ∧
      (at_ s0 86 0x45000000#32 false false 0#32).session.modeRead = false) ∧
    ((at_ s0 89 0x05000000#32 true true 0#32).fault = none ∧ At (at_ s0 89 0x05000000#32 true true 0#32) 89 0 ∧
      ((at_ s0 89 0x05000000#32 true true 0#32).reg .cmdStatus).getLsbD params.statusBits.bmInt = true ∧
      (at_ s0 89 0x05000000#32 true true 0#32).session.modeRead = true ∧
      (at_ s0 89 0x05000000#32 true true 0#32).session.skip89 = true ∧
      ((at_ s0 89 0x05000000#32 true true 0#32).reg .bmStatusCtl).getLsbD params.bmStatusBits.block = false ∧
      ¬ IplCase (at_ s0 89 0x05000000#32 true true 0#32) 0) := by decide +kernel
theorem witness_RegisterWriteResult : s0.fault = none ∧
    (Reg.testPinSel ∈ params.bus.regMap ∧ Reg.testPinSel ∉ params.bus.readOnlyRegs ∧
      Reg.testPinSel ∉ [Reg.cmdStatus, .bmStatusCtl, .hardReset]) ∧
    (Reg.idReg ∈ params.bus.regMap ∧ Reg.idReg ∈ params.bus.readOnlyRegs) ∧
    (Reg.other 0 ∈ wide.bus.regMap ∧ Reg.other 0 ∉ wide.bus.readOnlyRegs ∧
      Reg.other 0 ∉ [Reg.cmdStatus, .bmStatusCtl, .hardReset]) ∧
    Reg.other 7 ∈ wide.bus.regMap ∧ Reg.other 7 ∈ wide.bus.readOnlyRegs := by decide +kernel
theorem witness_HardResetResult : s0.fault = none ∧ 0xAAAA0000#32 = s0.params.hardResetMagic ∧
    0xAAAA0001#32 ≠ s0.params.hardResetMagic := by decide +kernel
theorem witness_BufferReadResult : s0.fault = none ∧ (0x3FC % 4 = 0 ∧ 0x3FC + 4 ≤ 0x400) ∧ 0xFC + 4 ≤ 0x100 ∧
    0x3C + 4 ≤ 0x40 := by decide +kernel
theorem witness_BufferWriteResult : s0.fault = none ∧ (0x3FC + 4 ≤ 0x400 ∧ s0.c2.wf) ∧ (0xFC + 4 ≤ 0x100 ∧ s0.ds.wf) ∧
    (0x3C + 4 ≤ 0x40 ∧ s0.ms.wf) := by decide +kernel
/-- No image; the last word of an image, and the word after it; the last word of the window. -/
theorem witness_IplWindowResult : (s0.fault = none ∧ s0.ipl = none ∧ 0x3FFFFC + 4 ≤ 0x400000) ∧
    (s0ipl.ipl = some rom ∧ 0xFFFFC + 4 ≤ rom.size) ∧ rom.size < 0x100000 + 4 := by decide +kernel
theorem witness_PlainWriteIdempotent : s0.c2.wf ∧ s0.ds.wf ∧ s0.ms.wf ∧
    (next (exec (.regWrite .data 1#32 2#32) s0)).isSome = true ∧ (next (exec (.c2Write 0x3FC 1#32 2#32) s0)).isSome = true ∧
    (next (exec (.dsWrite 0xFC 1#32 2#32) s0)).isSome = true ∧ (next (exec (.msWrite 0x3C 1#32 2#32) s0)).isSome = true := by
  decide +kernel
theorem witness_MemoryIsCanonical : Memory.wf [(1, 5#8), (7, 9#8)] ∧ Memory.wf (Memory.write [] 1 5#8) ∧
    Memory.read [(1, 5#8)] 1 = Memory.read (Memory.write [] 1 5#8) 1 := by decide
/-- The two register files differ in how they are written and read alike; the write of zero removes the entry. -/
theorem witness_RegisterFileIsCanonical : (Regs.zero.set (.other 2) 5#32).others.wf ∧
    ((Regs.zero.set (.other 2) 5#32).set (.other 4) 6#32).others = [0#32, 0#32, 5#32, 0#32, 6#32] ∧
    (((Regs.zero.set (.other 2) 5#32).set (.other 4) 6#32).set (.other 4) 0#32) = Regs.zero.set (.other 2) 5#32 := by decide
theorem witness_BmControlResult : s0.fault = none := rfl
theorem witness_IgnoredControlBits : params.bmCtlBits = BmCtlBits.default ∧
    (let c := params.bmCtlBits
     let acted := bitMask [c.start, c.reset, c.blkTrans, c.mechaRst] ||| 0x00FF0000#32
     0x81030000#32 &&& acted = 0xED03FFFF#32 &&& acted) ∧ 0x81030000#32 &&& 0x93FF0000#32 = 0xED03FFFF#32 &&& 0x93FF0000#32 := by decide
/-- With MECHA_INT clear (S0) and set. -/
theorem witness_BmResetProtocol : s0.fault = none ∧ s0.params.resetClearsSession = false ∧
    s0.params.statusBits.wf ∧ (0x10000000#32).getLsbD params.bmCtlBits.reset = true ∧
    (0x10000000#32).getLsbD params.bmCtlBits.start = false ∧ (0x10000000#32).getLsbD params.bmCtlBits.mechaRst = false ∧
    (s0.reg .cmdStatus).getLsbD params.statusBits.mechaInt = false ∧ ((s0.setStatus .mechaInt).reg .cmdStatus).getLsbD params.statusBits.mechaInt = true := by
  decide +kernel
/-- In-block sectors 0; 1 and 84; 85 with and without BLOCK; 86 and 165 (block 1, raw 255). -/
theorem witness_PumpWriteArms : s0.fault = none ∧ s0.params.writePersist = false ∧ s0.session.modeRead = false ∧
    At s0 0 0 ∧ At (at_ s0 1 0#32 false false 0#32) 1 0 ∧ At (at_ s0 174 0#32 false false 0#32) 84 1 ∧
    (At (at_ s0 85 0#32 false false 0x01000000#32) 85 0 ∧
      ((at_ s0 85 0#32 false false 0x01000000#32).reg .bmStatusCtl).getLsbD params.bmStatusBits.block = true) ∧
    (At (at_ s0 175 0#32 false false 0#32) 85 1 ∧
      ((at_ s0 175 0#32 false false 0#32).reg .bmStatusCtl).getLsbD params.bmStatusBits.block = false) ∧
    At (at_ s0 86 0#32 false false 0#32) 86 0 ∧ At (at_ s0 255 0#32 false false 0#32) 165 1 := by decide +kernel

/-- S0 and S0e under `WRITE_PERSIST`, with a BM status. -/
def s0p (sector : Nat) (bm : Word) : State :=
  { at_ s0 sector 0#32 false false bm with params := { params with writePersist := true } }
def s0ep (sector : Nat) (bm : Word) : State :=
  { at_ s0e sector 0#32 false false bm with params := { params with writePersist := true } }

/-- Sector 84, and sector 85 with and without BLOCK, each inside the image; sectors 1 and 85 past an empty image. -/
theorem witness_PersistentCommit :
    ((s0p 84 0#32).fault = none ∧ At (s0p 84 0#32) 84 0 ∧ (s0p 84 0#32).session.modeRead = false ∧
      (s0p 84 0#32).params.writePersist = true ∧ (s0p 84 0#32).img.bytes.wf ∧
      slot (s0p 84 0#32) 0 83 + sectorSize (s0p 84 0#32).session.zone ≤ (s0p 84 0#32).img.size) ∧
    (At (s0p 85 0x01000000#32) 85 0 ∧
      ((s0p 85 0x01000000#32).reg .bmStatusCtl).getLsbD params.bmStatusBits.block = true ∧
      slot (s0p 85 0x01000000#32) 0 84 + sectorSize (s0p 85 0x01000000#32).session.zone ≤ (s0p 85 0x01000000#32).img.size) ∧
    (At (s0p 175 0x80000000#32) 85 1 ∧
      ((s0p 175 0x80000000#32).reg .bmStatusCtl).getLsbD params.bmStatusBits.block = false ∧
      slot (s0p 175 0x80000000#32) 1 84 + sectorSize (s0p 175 0x80000000#32).session.zone ≤
        (s0p 175 0x80000000#32).img.size) ∧
    ((s0ep 1 0#32).img.bytes.wf ∧ At (s0ep 1 0#32) 1 0 ∧
      (s0ep 1 0#32).img.size < slot (s0ep 1 0#32) 0 0 + sectorSize (s0ep 1 0#32).session.zone) ∧
    (At (s0ep 85 0#32) 85 0 ∧
      (s0ep 85 0#32).img.size < slot (s0ep 85 0#32) 0 84 + sectorSize (s0ep 85 0#32).session.zone) := by
  decide +kernel
/-- In-block sectors 0 and 84; 85 and 87; 88; 89 before the step-back; 89 after it with and without BLOCK; 90 (raw 180). -/
theorem witness_PumpReadArms : s0.fault = none ∧ s0.ds.wf ∧ (at_ s0 0 0#32 true false 0#32).session.modeRead = true ∧
    (At (at_ s0 84 0#32 true false 0#32) 84 0 ∧ ¬ IplCase (at_ s0 84 0#32 true false 0#32) 0 ∧
      slot (at_ s0 84 0#32 true false 0#32) 0 84 + sectorSize s0.session.zone ≤ s0.img.size) ∧
    At (at_ s0 85 0#32 true false 0#32) 85 0 ∧ At (at_ s0 177 0#32 true false 0#32) 87 1 ∧
    At (at_ s0 88 0#32 true false 0#32) 88 0 ∧
    (At (at_ s0 89 0#32 true false 0#32) 89 0 ∧ (at_ s0 89 0#32 true false 0#32).session.skip89 = false) ∧
    (At (at_ s0 89 0#32 true true 0x01000000#32) 89 0 ∧ (at_ s0 89 0#32 true true 0x01000000#32).session.skip89 = true ∧
      ((at_ s0 89 0#32 true true 0x01000000#32).reg .bmStatusCtl).getLsbD params.bmStatusBits.block = true) ∧
    (At (at_ s0 179 0#32 true true 0#32) 89 1 ∧ ((at_ s0 179 0#32 true true 0#32).reg .bmStatusCtl).getLsbD params.bmStatusBits.block = false) ∧
    At (at_ s0 180 0#32 true false 0#32) 90 1 := by decide +kernel

/-- Track 6 selected on S0'. -/
def s0six (sector : Nat) (skip : Bool) : State := (at_ s0ipl sector 0#32 true skip 0#32).setReg .curTk 0x60060000#32

theorem witness_PumpIplCase : (s0six 0 false).fault = none ∧ (s0six 0 false).session.modeRead = true ∧
    (At (s0six 0 false) 0 0 ∧ IplCase (s0six 0 false) 0) ∧ (At (s0six 89 true) 89 0 ∧ (s0six 89 true).session.skip89 = true) ∧
    (At (s0six 89 false) 89 0 ∧ IplCase (s0six 89 false) 0 ∧ (s0six 89 false).session.skip89 = false) := by decide +kernel
theorem witness_CopyBeyondImageFaults : (at_ s0e 84 0#32 true false 0#32).fault = none ∧
    At (at_ s0e 84 0#32 true false 0#32) 84 0 ∧ (at_ s0e 84 0#32 true false 0#32).session.modeRead = true ∧
    ¬ IplCase (at_ s0e 84 0#32 true false 0#32) 0 ∧
    (at_ s0e 84 0#32 true false 0#32).img.size < slot (at_ s0e 84 0#32 true false 0#32) 0 84 + sectorSize s0e.session.zone := by
  decide +kernel

/-- RUNNING set, at sector 0. -/
def s0run (modeRead : Bool) : State := at_ s0 0 0x01000000#32 modeRead false 0x80000000#32

theorem witness_ReadTransferTakes91Pumps : (s0run true).fault = none ∧ (s0run true).params.statusBits.wf ∧ At (s0run true) 0 0 ∧
    (s0run true).session.modeRead = true ∧ (s0run true).session.skip89 = false ∧
    ((s0run true).reg .bmStatusCtl).getLsbD params.bmStatusBits.block = false ∧ ((s0run true).reg .bmStatusCtl).getLsbD params.bmStatusBits.running = true ∧
    (s0run true).ds.wf ∧ ¬ IplCase (s0run true) 0 ∧
    slot (s0run true) 0 84 + sectorSize (s0run true).session.zone ≤ (s0run true).img.size := by decide +kernel
theorem witness_WriteTransferTakes86Pumps : (s0run false).fault = none ∧ At (s0run false) 0 0 ∧
    (s0run false).session.modeRead = false ∧ (s0run false).params.writePersist = false ∧
    ((s0run false).reg .bmStatusCtl).getLsbD params.bmStatusBits.block = false ∧ ((s0run false).reg .bmStatusCtl).getLsbD params.bmStatusBits.running = true := by
  decide +kernel
theorem witness_PumpIgnoresRunning : s0.params.bmStatusBits.wf := by decide
theorem witness_ConstructionResult : Construction.bare.params.statusBits = StatusBits.default := rfl
theorem witness_ConstructionMeetsInvariant :
    ConstructionOk { Construction.bare with params := params, img := disk, ipl := some rom } :=
  ⟨by decide +kernel, by decide +kernel⟩
/-- A state in the invariant from which a BM START pumps. -/
theorem witness_StepKeepsInvariant : Inv (s0ipl.setPending [wr 0x05000510#32 0x80000000#32]) ∧
    (go s0ipl (wr 0x05000510#32 0x80000000#32)).isSome = true :=
  ⟨⟨by decide +kernel, by decide +kernel⟩, by decide +kernel⟩
theorem witness_ImagesAreImmutable : (go s0 (wr 0x05000510#32 0x80000000#32)).isSome = true ∧
    s0.params.writePersist = false := by decide +kernel
/-- Each of the two faults, and the persistent commit's. -/
theorem witness_OnlyTwoOperationsFault :
    (next (exec (.hardResetWrite 0#32) s0)).map (·.fault) = some (some (.hardResetWord 0#32)) ∧
    (next (exec (.bmctlWrite 0x80000000#32) (at_ s0e 0 0#32 true false 0#32))).map (·.fault) =
      some (some (.diskRange 0 232)) ∧
    (next (exec (.bmctlWrite 0x80010000#32) (s0ep 0 0#32))).map (·.fault) = some (some (.diskRange 0 232)) := by decide +kernel
theorem witness_TraceOnlyGrows : (go s0 (wr 0x05000508#32 0#32)).isSome = true := by decide +kernel
/-- A seek; and a host write of CUR_SECTOR under the other configuration, whose read-only set leaves it out. -/
theorem witness_OnlyTwoOperationsMoveTransfer : ((next (exec .seekRead s0d)).isSome = true ∧ Instr.seekRead ≠ .statusRead ∧
      .curSector ∈ s0d.params.bus.readOnlyRegs) ∧
    (next (exec (.regWrite .curSector 1#32 2#32) { s0 with params := other })).isSome = true := by
  decide +kernel
theorem witness_PowerFlagsGateNothing : s0.params.statusBits.wf ∧ (next (exec .sleep s0)).isSome = true ∧
    Instr.sleep ≠ .statusRead ∧ (next (exec (.bmctlWrite 0x80000000#32) s0)).isSome = true ∧
    (next (exec .statusRead s0)).isSome = true := by decide +kernel
theorem witness_InterruptLineIsNeverRead : (next (exec .statusRead s0)).isSome = true := by decide +kernel

end Sys2Proof.Tests
end

section
/-! SUPPORT. Proofs of the family of 10_state.md: the two images and the parameters (R38, R43), and the sticky fault (R41,
R270). -/

namespace Sys2Proof.Machine

/-! ## The sticky fault -/

theorem step_of_faulted {s : State} {f : Fault} (h : s.fault = some f) : step s = .fault f := by
  simp [step, h]

/-- Settles O11: construction records no fault, and both `step` and `exec` look at the recorded fault first. -/
theorem faultedStateHasNoStep : Obligations.FaultedStateHasNoStep :=
  ⟨fun _ => rfl, fun _ _ i h => ⟨step_of_faulted h, exec_of_faulted h i⟩⟩

/-! ## What leaves the images as they were -/

/-- A copy reads the disk image and never writes it (43_bm_pump.md R224). -/
theorem copySector_frame (k : Nat) (s : State) :
    (copySector k s).params = s.params ∧ (copySector k s).img = s.img := by
  unfold copySector
  dsimp only
  split <;> exact ⟨rfl, rfl⟩

/-- The trailing edge of the BM reset reaches neither the parameters nor an image (44_bm_control.md R252). -/
theorem bmTrailingEdge_frame (s : State) :
    (bmTrailingEdge s).params = s.params ∧ (bmTrailingEdge s).ipl = s.ipl ∧ (bmTrailingEdge s).img = s.img := by
  unfold bmTrailingEdge resetSession
  dsimp only
  split <;> exact ⟨rfl, rfl, rfl⟩

/-- Where commits do not persist, a pump leaves the disk image as it was (43_bm_pump.md R218, D14). -/
theorem img_pump_of_no_persist {s : State} (hp : s.params.writePersist = false) : (pump s).img = s.img := by
  have both : (pump s).params = s.params ∧ (pump s).img = s.img := by
    apply pump_ind (P := fun t => t.params = s.params ∧ t.img = s.img)
    case hs => exact ⟨rfl, rfl⟩
    case commit =>
      intro k t ht
      rw [commitSector_of_no_persist (ht.1 ▸ hp)]
      exact ht
    case copy =>
      intro k t ht
      obtain ⟨hparams, himg⟩ := copySector_frame k t
      exact ⟨hparams.trans ht.1, himg.trans ht.2⟩
    all_goals intros; assumption
  exact both.2

/-! ## The images along a step -/

/-- From `s` to `t` the parameters, the IPL image and the size of the disk image stay, and its bytes too where commits do
not persist (10_state.md R38, R43). -/
structure ImagesKept (s t : State) : Prop where
  params : t.params = s.params
  ipl    : t.ipl = s.ipl
  size   : t.img.size = s.img.size
  img    : s.params.writePersist = false → t.img = s.img

namespace ImagesKept

variable {s t u : State}

/-- An update that reaches neither the parameters nor an image. -/
theorem of_eq (hp : t.params = s.params) (hr : t.ipl = s.ipl) (hi : t.img = s.img) : ImagesKept s t :=
  ⟨hp, hr, congrArg Image.size hi, fun _ => hi⟩

theorem trans (h : ImagesKept s t) (h' : ImagesKept t u) : ImagesKept s u where
  params := h'.params.trans h.params
  ipl := h'.ipl.trans h.ipl
  size := h'.size.trans h.size
  img hw := (h'.img (h.params ▸ hw)).trans (h.img hw)

theorem of_pump (s : State) : ImagesKept s (pump s) := by
  obtain ⟨hparams, -, hipl, -, hsize, -⟩ := pump_frame s
  exact ⟨hparams, hipl, hsize, img_pump_of_no_persist⟩

/-- Every update that operations are made of keeps the images: only the pump reaches one at all. -/
theorem kept (s : State) : Kept (ImagesKept s) := by
  constructor
  case pump => exact fun t h => h.trans (of_pump t)
  case edge =>
    intro t h
    obtain ⟨hparams, hipl, himg⟩ := bmTrailingEdge_frame t
    exact h.trans (of_eq hparams hipl himg)
  case clock =>
    exact fun t _ h => h.trans (of_eq t.params_clockDrawn t.ipl_clockDrawn t.img_clockDrawn)
  all_goals
    intros
    rename_i h
    exact h.trans (of_eq rfl rfl rfl)

end ImagesKept

/-- Settles O54: every update of a step keeps the images, so the step does. -/
theorem imagesAreImmutable : Obligations.ImagesAreImmutable := by
  intro s t h
  obtain ⟨hparams, hipl, hsize, himg⟩ := (ImagesKept.kept s).step h (.of_eq rfl rfl rfl)
  exact ⟨hparams, hipl, hsize, himg⟩

end Sys2Proof.Machine
end

section
/-! SUPPORT. Proofs of the family of 20_memory.md: the accesses that have no step (R64). -/

namespace Sys2Proof

open Laws.EncodesAligned (busAddr)

/-! ## Why an address is not located -/

theorem checkOffset_of_misaligned {size off : Nat} (h : off % 4 ≠ 0) : checkOffset size off = .error .misaligned :=
  if_pos h

theorem checkOffset_of_beyond {size off : Nat} (ha : off % 4 = 0) (hb : off + 4 > size) :
    checkOffset size off = .error .beyondWindow := by
  simp [checkOffset, ha, hb]

theorem locate_of_outside {b : BusMap} {addr : Word}
    (h : ∀ e ∈ b.windows, ¬ (e.2.1 ≤ addr.toNat ∧ addr.toNat < e.2.1 + e.2.2)) : locate b addr = .error .unmapped := by
  have hnone : b.windows.find? (fun e => e.2.1 ≤ addr.toNat && addr.toNat < e.2.1 + e.2.2) = none :=
    List.find?_eq_none.mpr fun e he => by simpa using h e he
  simp only [locate, hnone]

/-- Under a well-formed bus map, an address in a window is refused for what is wrong with its offset there. -/
theorem locate_of_checkOffset_error {b : BusMap} (hb : b.wf) {addr : Word} {e : Window × Nat × Nat} {why : NoStep}
    (hm : e ∈ b.windows) (hlo : e.2.1 ≤ addr.toNat) (hhi : addr.toNat < e.2.1 + e.2.2)
    (hc : checkOffset e.2.2 (addr.toNat - e.2.1) = .error why) : locate b addr = .error why := by
  simp only [locate, find_window hb hm hlo hhi, hc]

/-- An access whose address is not located decodes to no operation, a read and a write alike. -/
theorem decode_of_locate_error {p : Params} {a : Access} {why : NoStep} (h : locate p.bus (busAddr a) = .error why) :
    decode p a = .error why := by
  cases a with
  | read addr => simp only [decode, show locate p.bus addr = .error why from h]
  | write addr word mask => simp only [decode, show locate p.bus addr = .error why from h]

/-- A read of a whole aligned word of the IPL window is IPL_READ at its offset there. -/
theorem decode_iplRead {p : Params} (hb : p.bus.wf) {addr : Word} (hlo : p.bus.iplBase ≤ addr.toNat)
    (hal : (addr.toNat - p.bus.iplBase) % 4 = 0) (hin : addr.toNat - p.bus.iplBase + 4 ≤ p.bus.iplSize) :
    decode p (.read addr) = .ok (.iplRead (addr.toNat - p.bus.iplBase)) := by
  have hl : locate p.bus addr = .ok (.ipl, addr.toNat - p.bus.iplBase) :=
    locate_of_mem hb (ipl_mem_windows p.bus) hlo (by omega) hal
  simp only [decode, hl]

namespace Machine

/-! ## The step on a pending access -/

section

variable {s : State} {a : Access} {as : List Access} (hf : s.fault = none) (hp : s.port.pending = a :: as)

include hf hp

theorem step_of_decode_ok {i : Instr} (hd : decode s.params a = .ok i) : step s = exec i (s.setPending as) := by
  simp [step, hf, State.takeAccess, hp, hd]

theorem step_of_decode_error {why : NoStep} (hd : decode s.params a = .error why) :
    step s = .refused (.noStep why) := by
  simp [step, hf, State.takeAccess, hp, hd]

theorem step_of_locate_error {why : NoStep} (hl : locate s.params.bus (busAddr a) = .error why) :
    step s = .refused (.noStep why) :=
  step_of_decode_error hf hp (decode_of_locate_error hl)

end

/-- IPL_READ has no step where its word does not lie whole in a present image (40_mmio_dispatch.md R134). -/
theorem execIplRead_of_beyond {s : State} {rom : Image} {off : Nat} (hf : s.fault = none) (hr : s.ipl = some rom)
    (hal : off % 4 = 0) (hin : off + 4 ≤ s.params.bus.iplSize) (hb : off + 4 > rom.size) :
    execIplRead off s = .refused (.noStep .beyondIpl) := by
  simp [execIplRead, State.atOffset_of_ok hf hal hin, hr, hb]

/-- Settles O13: outside the windows, or at a bad offset in one, the decoder locates nothing; past the end of a present
image the decoded IPL_READ is refused. -/
theorem badAccessHasNoStep : Obligations.BadAccessHasNoStep := by
  intro s a as addr hf hbus hp ha b windows
  have hmap : windows = b.windows.map Prod.snd := rfl
  have haddr : busAddr a = addr := by
    obtain rfl | ⟨word, mask, rfl⟩ := ha
    · rfl
    · rfl
  have refused {why : NoStep} (hl : locate b addr = .error why) : step s = .refused (.noStep why) :=
    step_of_locate_error hf hp (haddr ▸ hl)
  rw [hmap, List.forall_mem_map, List.forall_mem_map]
  refine ⟨fun hout => refused (locate_of_outside hout), fun e he hlo hhi => ⟨fun hmis => ?_, fun hal hbeyond => ?_⟩, ?_⟩
  · exact refused (locate_of_checkOffset_error hbus he hlo hhi (checkOffset_of_misaligned hmis))
  · exact refused (locate_of_checkOffset_error hbus he hlo hhi (checkOffset_of_beyond hal hbeyond))
  · intro rom hread hrom hlo hal hin hbeyond
    subst hread
    rw [step_of_decode_ok hf hp (decode_iplRead hbus hlo hal hin)]
    exact execIplRead_of_beyond hf hrom hal hin hbeyond

end Machine

end Sys2Proof
end

section
/-! SUPPORT. Proofs of the family of 30_encoding.md: the opcode in bits 31..16 of a command word, the rows of the opcode
table under the default numbers, and the commands that do the epilogue and nothing else (R94, R101 to R103). -/

namespace Sys2Proof

open Machine Spec

/-! ## The opcode of a command word -/

/-- A register of the map stands at the address of any index it is found at: the map has no repeats (R90). -/
theorem regAddr_of_getElem? {b : BusMap} (hb : b.wf) {n : Nat} {r : Reg} (hn : b.regMap[n]? = some r) :
    BitVec.ofNat 32 (b.regBase + 4 * n) = b.regAddr r := by
  obtain ⟨hl, hr⟩ := locate_regIndex hb hn
  exact (addr_of_regAt hb hl hr).2.symm

/-- The opcode is the upper half of the word, read as a number (R94). -/
theorem toNat_commandOp (w : Word) : (commandOp w).toNat = (w >>> 16).toNat :=
  sectorNumber_eq w

theorem commandOp_congr {w w' : Word} (h : w >>> 16 = w' >>> 16) : commandOp w = commandOp w' :=
  BitVec.eq_of_toNat_eq (by rw [toNat_commandOp, toNat_commandOp, h])

/-! ## The opcode table -/

/-- The decoder's command table is the table of R101. -/
theorem commandTable_eq_opcodeRows (o : Opcodes) : commandTable o = opcodeRows o := rfl

/-- An opcode that matches no row is none of the opcode map. -/
theorem forall_opcodeRows_ne_iff {o : Opcodes} {op : Half} : (∀ e ∈ opcodeRows o, op ≠ e.1) ↔ op ∉ o.numbers := by
  rw [← map_fst_commandTable, commandTable_eq_opcodeRows, List.mem_map]
  exact ⟨fun h ⟨e, he, heq⟩ => h e he heq.symm, fun h e he heq => h ⟨e, he, heq.symm⟩⟩

theorem decodeCommand_of_not_mem {o : Opcodes} {op : Half} (h : op ∉ o.numbers) :
    decodeCommand o op = .cmdUnrecognized op := by
  obtain ⟨hm, -⟩ | ⟨-, heq⟩ := decodeCommand_cases o op
  · exact absurd hm h
  · exact heq

/-- The commands the default opcode map numbers in order from 0 (R101). -/
def numberedCommands : List Instr :=
  [.noop, .seekRead, .seekWrite, .recalibrate, .sleep, .start, .setStandby, .setSleep, .clrDskChng, .clrReset,
    .readVersion, .setDiskType, .requestStatus, .standby, .idxLockRetry, .setYearMonth, .setDayHour, .setMinSec,
    .getYearMonth, .getDayHour, .getMinSec]

/-- The default table numbers its commands in order from 0, and FEATURE_INQ stands apart at 0x1B (R101). -/
theorem commandTable_default : commandTable Opcodes.default =
    numberedCommands.zipIdx.map (fun e => (BitVec.ofNat 16 e.2, e.1)) ++ [(0x001B#16, .featureInq)] := rfl

theorem mem_commandTable_default {k : Nat} {i : Instr} (h : numberedCommands[k]? = some i) :
    (BitVec.ofNat 16 k, i) ∈ commandTable Opcodes.default := by
  rw [commandTable_default]
  exact List.mem_append_left _ (List.mem_map_of_mem (List.mk_mem_zipIdx_iff_getElem?.mpr h))

/-- The default opcode map leaves 0x15..0x1A and 0x1C..0xFFFF unassigned (R102). -/
theorem not_mem_numbers_default {op : Half} (h : (0x15 ≤ op.toNat ∧ op.toNat ≤ 0x1A) ∨ 0x1C ≤ op.toNat) :
    op ∉ Opcodes.default.numbers := by
  have assigned : Opcodes.default.numbers.map BitVec.toNat = List.range 21 ++ [0x1B] := by decide
  intro hm
  have := assigned ▸ List.mem_map_of_mem (f := BitVec.toNat) hm
  simp only [List.mem_append, List.mem_range, List.mem_singleton] at this
  omega

/-- Settles O5: the address is that of CMD_STATUS, so the access decodes to the command of the word's upper half; that is
the row it matches, since the map is injective, or unrecognized. -/
theorem everyCommandWordDecodes : Obligations.EveryCommandWordDecodes := by
  intro p n w m w' m' hb ho hn cmd
  have hcmd (w m : Word) : cmd w m = .ok (decodeCommand p.opcodes (commandOp w)) := by
    simp only [cmd, regAddr_of_getElem? hb hn, decode_commandWrite hb]
  have row {i : Instr} (h : (commandOp w, i) ∈ commandTable p.opcodes) : cmd w m = .ok i := by
    rw [hcmd, decodeCommand_of_mem ho h]
  have unrecognized (h : commandOp w ∉ p.opcodes.numbers) : cmd w m = .ok (.cmdUnrecognized (commandOp w)) := by
    rw [hcmd, decodeCommand_of_not_mem h]
  refine ⟨fun e he hop => row ?_, fun h => unrecognized (forall_opcodeRows_ne_iff.mp h), fun h => ?_, fun hdef => ?_⟩
  · rw [show commandOp w = e.1 from hop]
    exact he
  · rw [hcmd, hcmd, commandOp_congr h]
  · rw [hdef] at row unrecognized
    rw [← toNat_commandOp]
    refine ⟨fun k i hi hk => row ?_, fun h1B => row ?_, fun h => unrecognized (not_mem_numbers_default h)⟩
    · rw [show commandOp w = BitVec.ofNat 16 k by simp [← hk]]
      exact mem_commandTable_default hi
    · rw [show commandOp w = 0x001B#16 from BitVec.eq_of_toNat_eq h1B, commandTable_default]
      exact List.mem_append_right _ (List.mem_singleton_self _)

namespace Machine

/-! ## Commands -/

/-- From an unfaulted state a command completes with what its arm leaves, and the epilogue (R150, R151). -/
theorem State.command_of_unfaulted {s : State} (h : s.fault = none) (arm : State → State) :
    s.command arm = .next (commanded (arm s) ((arm s).reg .cmdStatus) []) := by
  have hepilogue (t : State) : (commandEpilogue t).reply none = commanded t (t.reg .cmdStatus) [] := by
    simp only [commandEpilogue, State.setStatus, setBit_eq_or, commanded, List.append_nil]
    rfl
  rw [State.command_next.mpr ⟨h, rfl⟩, hepilogue]

/-- An opcode that no row of the table has is a command whose arm does nothing (R174). -/
theorem execCmdUnrecognized_of_not_mem {s : State} (hf : s.fault = none) {op : Half}
    (h : op ∉ s.params.opcodes.numbers) : execCmdUnrecognized op s = s.command id := by
  simp [execCmdUnrecognized, State.ifWellFormed, hf, Instr.wellFormed, h]

/-- Settles O15: each of these operations is the command whose arm does nothing; an opcode of no row is well formed. -/
theorem epilogueOnlyCommands : Obligations.EpilogueOnlyCommands := by
  intro s i hf hi
  have hid : exec i s = s.command id := by
    obtain hi | ⟨op, rfl, hop⟩ := hi
    · fin_cases hi <;> rfl
    · apply execCmdUnrecognized_of_not_mem hf
      obtain hrow | ⟨hdef, hrange⟩ := hop
      · exact forall_opcodeRows_ne_iff.mp hrow
      · rw [hdef]
        exact not_mem_numbers_default hrange
  rw [hid]
  exact State.command_of_unfaulted hf id

end Machine

end Sys2Proof
end

section
/-! SUPPORT. Proofs of the family of 40_mmio_dispatch.md: what a read or a write of a register, of a byte window and of
the IPL window answers and changes, from an unfaulted state (R121 to R135). -/

namespace Sys2Proof.Machine

open Spec

/-! ## Operations from an unfaulted state -/

section

variable {s : State} (hf : s.fault = none)

include hf

/-- A read operation answers its word and changes nothing else (20_memory.md R65). -/
theorem State.readOp_of_unfaulted (v : Word) : s.readOp v = .next (answered s (some v)) :=
  State.readOp_next.mpr ⟨hf, rfl⟩

/-- A write operation does its body and answers no word (00_scope.md R14). -/
theorem State.writeOp_of_unfaulted (body : State → State) : s.writeOp body = .next (answered (body s) none) :=
  State.writeOp_next.mpr ⟨hf, rfl⟩

theorem State.ifWellFormed_of_ok {ok : Bool} (hok : ok = true) (body : State → Result) :
    s.ifWellFormed ok body = body s := by
  simp [State.ifWellFormed, hf, hok]

end

/-! ## Registers -/

/-- The in-block sector of the sector register is the one the pump finds (R123, 43_bm_pump.md R212). -/
theorem inBlock_of_at {s : State} {k : Nat} {b : Fin 2} (h : At s k b) : inBlock (s.reg .curSector) = k := by
  unfold At at h
  rw [← sectorNumber_eq] at h
  unfold inBlock inBlockOf Config.block1Base
  split at h
  case isTrue h90 => rw [if_pos h90, h.1]
  case isFalse h90 => rw [if_neg h90, h.1]

/-- With BM_INT set and an in-block sector above 85, the side effect of a status read clears the flag, releases the line
and pumps once (R122). -/
theorem statusReadSideEffect_of_gap {s : State} (hi : s.status .bmInt = true)
    (hk : Config.sectorsPerBlock < inBlock (s.reg .curSector)) :
    statusReadSideEffect s = pump (s.clearStatus .bmInt).clearIrq :=
  if_pos (by simpa [hi] using hk)

/-- Otherwise a status read has no side effect (R122). -/
theorem statusReadSideEffect_of_no_gap {s : State}
    (h : s.status .bmInt = false ∨ inBlock (s.reg .curSector) ≤ Config.sectorsPerBlock) :
    statusReadSideEffect s = s := by
  refine if_neg ?_
  obtain hi | hk := h
  · simp [hi]
  · simpa using fun _ => hk

/-- A status read answers the word from before its side effect (R124). -/
theorem execStatusRead_of_unfaulted {s : State} (hf : s.fault = none) :
    execStatusRead s = .next (answered (statusReadSideEffect s) (some (s.reg .cmdStatus))) :=
  State.operate_of_none hf _

/-- Settles O28: a register of the map but CMD_STATUS is a well-formed operand; a status read answers the old word after
its side effect, whose two cases are those of R122. -/
theorem registerReadResult : Obligations.RegisterReadResult := by
  intro s hf
  refine ⟨fun r hr hne => ?_, fun k b hat => ⟨fun hi hk => ?_, fun h => ?_⟩⟩
  · have hok : (Instr.regRead r).wellFormed s.params = true := by simp [Instr.wellFormed, hr, hne]
    rw [exec, execRegRead, State.ifWellFormed_of_ok hf hok, State.readOp_of_unfaulted hf]
  · rw [← inBlock_of_at hat] at hk
    rw [exec, execStatusRead_of_unfaulted hf, statusReadSideEffect_of_gap hi hk, State.clearStatus, clearBit_eq_and]
    rfl
  · rw [← inBlock_of_at hat] at h
    rw [exec, execStatusRead_of_unfaulted hf, statusReadSideEffect_of_no_gap h]

/-- Settles O31: the premises say which of the two write operations the register is a well-formed operand of. -/
theorem registerWriteResult : Obligations.RegisterWriteResult := by
  intro s r word mask hf
  refine ⟨fun hr hro hown => ?_, fun hr hro => ?_⟩
  · have hok : (Instr.regWrite r word mask).wellFormed s.params = true := by
      simpa [Instr.wellFormed, BusMap.isGeneric, hr, hro, and_assoc] using hown
    rw [exec, execRegWrite, State.ifWellFormed_of_ok hf hok, State.writeOp_of_unfaulted hf]
    rfl
  · have hok : (Instr.regWriteRo r word mask).wellFormed s.params = true := by
      simp [Instr.wellFormed, BusMap.isReadOnly, hr, hro]
    rw [exec, execRegWriteRo, State.ifWellFormed_of_ok hf hok, State.writeOp_of_unfaulted hf, id]

/-- Settles O32: the write's body tests the word against the magic word and raises the fault where it differs. -/
theorem hardResetResult : Obligations.HardResetResult := by
  intro s word hf
  rw [exec, execHardResetWrite, State.writeOp_of_unfaulted hf]
  refine ⟨fun hmagic => ?_, fun hother => ?_⟩
  · rw [if_pos hmagic]
  · rw [if_neg hother]
    rfl

/-! ## Windows -/

/-- Four bytes as one big-endian number (20_memory.md R62). -/
theorem Word.ofBytes_eq_ofNat (b0 b1 b2 b3 : Byte) : Word.ofBytes b0 b1 b2 b3 =
    BitVec.ofNat 32 (b0.toNat * 2 ^ 24 + b1.toNat * 2 ^ 16 + b2.toNat * 2 ^ 8 + b3.toNat) := by
  have toNat_append {n : Nat} (x : BitVec n) (b : Byte) : (x ++ b).toNat = x.toNat * 2 ^ 8 + b.toNat := by
    rw [BitVec.toNat_append, ← Nat.shiftLeft_add_eq_or_of_lt b.isLt, Nat.shiftLeft_eq]
  apply BitVec.eq_of_toNat_eq
  rw [Word.ofBytes, toNat_append, toNat_append, toNat_append, BitVec.toNat_ofNat]
  omega

/-- What a masked write of a buffer leaves to be read: the lanes of `(old & ~mask) | word`, every other byte as before
(R133). -/
theorem Memory.read_putMasked {m : Memory} (h : m.wf) (o : Nat) (word mask : Word) (a : Nat) :
    (m.putMasked o word mask).read a =
      if o ≤ a ∧ a < o + 4 then ((m.wordAt o).masked word mask).byte (a - o) else m.read a :=
  Memory.read_putWord h o _ a

theorem Memory.wf_putMasked {m : Memory} (h : m.wf) (o : Nat) (word mask : Word) : (m.putMasked o word mask).wf :=
  Memory.wf_store h o _

section

variable {s : State} {size o : Nat} (hf : s.fault = none) (hal : o % 4 = 0) (hin : o + 4 ≤ size)

include hf hal hin

/-- A read of an aligned word of a window answers the word (R132). -/
theorem State.atOffset_readOp (word : State → Word) :
    (s.atOffset size o fun s => s.readOp (word s)) = .next (answered s (some (word s))) := by
  rw [State.atOffset_of_ok hf hal hin, State.readOp_of_unfaulted hf]

/-- A write of an aligned word of a window does its body (R133). -/
theorem State.atOffset_writeOp (body : State → State) :
    (s.atOffset size o fun s => s.writeOp body) = .next (answered (body s) none) := by
  rw [State.atOffset_of_ok hf hal hin, State.writeOp_of_unfaulted hf]

end

/-- Settles O33: each buffer's read answers its big-endian word, which is the number its four bytes write. -/
theorem bufferReadResult : Obligations.BufferReadResult := by
  intro s o hf hal word
  have hword (m : Memory) : m.wordAt o = word m := Word.ofBytes_eq_ofNat _ _ _ _
  simp only [← hword]
  exact ⟨fun hin => State.atOffset_readOp hf hal hin fun s => s.c2.wordAt o,
    fun hin => State.atOffset_readOp hf hal hin fun s => s.ds.wordAt o,
    fun hin => State.atOffset_readOp hf hal hin fun s => s.ms.wordAt o⟩

/-- Settles O34: each buffer's write is the masked write of its memory at the offset. -/
theorem bufferWriteResult : Obligations.BufferWriteResult := by
  intro s o word mask hf hal stored
  have hstored {m : Memory} (hm : m.wf) : stored m (m.putMasked o word mask) := by
    refine ⟨Memory.wf_putMasked hm _ _ _, fun a ha => ?_, fun k hk => ?_⟩
    · rw [Memory.read_putMasked hm, if_neg ha]
    · rw [Memory.read_putMasked hm, if_pos (by omega), Nat.add_sub_cancel_left]
      rfl
  refine ⟨?_, ?_, ?_⟩ <;> exact fun hin hm => ⟨_, hstored hm, State.atOffset_writeOp hf hal hin _⟩

/-- IPL_READ answers zero where no image is present (R134). -/
theorem execIplRead_of_none {s : State} {off : Nat} (hf : s.fault = none) (hr : s.ipl = none) (hal : off % 4 = 0)
    (hin : off + 4 ≤ s.params.bus.iplSize) : execIplRead off s = .next (answered s (some 0#32)) := by
  simp only [execIplRead, State.atOffset_of_ok hf hal hin, hr, State.readOp_of_unfaulted hf]

/-- IPL_READ answers the image's word where it lies whole in a present image (R134). -/
theorem execIplRead_of_inside {s : State} {rom : Image} {off : Nat} (hf : s.fault = none) (hr : s.ipl = some rom)
    (hal : off % 4 = 0) (hin : off + 4 ≤ s.params.bus.iplSize) (hb : off + 4 ≤ rom.size) :
    execIplRead off s = .next (answered s (some (rom.bytes.wordAt off))) := by
  simp only [execIplRead, State.atOffset_of_ok hf hal hin, hr, if_neg (Nat.not_lt.mpr hb),
    State.readOp_of_unfaulted hf]

/-- Settles O35: the three cases of an IPL read, and the write whose body does nothing. -/
theorem iplWindowResult : Obligations.IplWindowResult := by
  intro s o word mask hf hal hin
  refine ⟨fun hr => execIplRead_of_none hf hr hal hin, fun rom hr hb => ?_,
    fun rom hr hb => execIplRead_of_beyond hf hr hal hin hb, State.atOffset_writeOp hf hal hin id⟩
  rw [← Word.ofBytes_eq_ofNat]
  exact execIplRead_of_inside hf hr hal hin hb

end Sys2Proof.Machine
end

section
/-! SUPPORT. Proofs of the family of 41_commands.md: the arms that write a register or the flags of CMD_STATUS, the seeks,
the packed BCD byte, and the one signal of every command (R151 to R175). -/

namespace Sys2Proof.Machine

open Spec

/-! ## Packed BCD -/

/-- A two-digit value keeps its digits apart in the two nibbles of a byte. -/
theorem shiftLeft_or_digit (v : Nat) : ((v / 10) <<< 4) ||| (v % 10) = v / 10 * 16 + v % 10 := by
  rw [← Nat.shiftLeft_add_eq_or_of_lt (by omega), Nat.shiftLeft_eq]

theorem toNat_bcd (v : Nat) : (bcd v).toNat = (v / 10 * 16 + v % 10) % 256 := by
  rw [bcd, shiftLeft_or_digit, BitVec.toNat_ofNat]

/-- Settles O22: the units digit fits its nibble, so the OR is a sum, and below 100 nothing is cut off. -/
theorem bcdByte : Obligations.BcdByte := by
  refine ⟨fun v => ?_, fun v hv => ?_⟩
  · rw [bcd, BitVec.toNat_ofNat, Nat.shiftLeft_eq]
  · rw [toNat_bcd]
    omega

/-! ## Arms that write one register -/

theorem State.setReg_setReg (s : State) (r : Reg) (v w : Word) : (s.setReg r v).setReg r w = s.setReg r w := by
  simp [State.setReg]

theorem State.setStatus_eq_setReg (s : State) (f : StatusFlag) :
    s.setStatus f = s.setReg .cmdStatus (s.reg .cmdStatus ||| bitMask [f.bit s.params.statusBits]) := by
  rw [State.setStatus, setBit_eq_or]

theorem State.clearStatus_eq_setReg (s : State) (f : StatusFlag) :
    s.clearStatus f = s.setReg .cmdStatus (s.reg .cmdStatus &&& ~~~bitMask [f.bit s.params.statusBits]) := by
  rw [State.clearStatus, clearBit_eq_and]

/-- Two flags set, one after the other, are one write of CMD_STATUS. -/
theorem State.setStatus_setStatus (s : State) (f g : StatusFlag) : (s.setStatus f).setStatus g =
    s.setReg .cmdStatus (s.reg .cmdStatus ||| bitMask [f.bit s.params.statusBits, g.bit s.params.statusBits]) := by
  rw [(s.setStatus f).setStatus_eq_setReg, s.setStatus_eq_setReg, State.setReg_setReg, State.reg_setReg, if_pos rfl,
    or_bitMask_or]
  rfl

/-- Two flags cleared, one after the other, are one write of CMD_STATUS. -/
theorem State.clearStatus_clearStatus (s : State) (f g : StatusFlag) : (s.clearStatus f).clearStatus g =
    s.setReg .cmdStatus (s.reg .cmdStatus &&& ~~~bitMask [f.bit s.params.statusBits, g.bit s.params.statusBits]) := by
  rw [(s.clearStatus f).clearStatus_eq_setReg, s.clearStatus_eq_setReg, State.setReg_setReg, State.reg_setReg,
    if_pos rfl, and_not_bitMask_and]
  rfl

/-- A flag set and then another cleared are one write of CMD_STATUS. -/
theorem State.clearStatus_setStatus (s : State) (f g : StatusFlag) : (s.setStatus f).clearStatus g =
    s.setReg .cmdStatus ((s.reg .cmdStatus ||| bitMask [f.bit s.params.statusBits]) &&&
      ~~~bitMask [g.bit s.params.statusBits]) := by
  rw [(s.setStatus f).clearStatus_eq_setReg, s.setStatus_eq_setReg, State.setReg_setReg, State.reg_setReg, if_pos rfl]
  rfl

section

variable {s : State} {arm : State → State} (hf : s.fault = none)

include hf

/-- A command whose arm writes CMD_STATUS and nothing else. -/
theorem State.command_of_statusArm {st : Word} (h : arm s = s.setReg .cmdStatus st) :
    s.command arm = .next (commanded s st []) := by
  rw [State.command_of_unfaulted hf, h, State.reg_setReg, if_pos rfl]
  simp [commanded]

/-- A command whose arm writes one register other than CMD_STATUS and nothing else. -/
theorem State.command_of_regArm {r : Reg} {v : Word} (hr : r ≠ .cmdStatus) (h : arm s = s.setReg r v) :
    s.command arm = .next (commanded { s with regs := s.regs.set r v } (s.reg .cmdStatus) []) := by
  rw [State.command_of_unfaulted hf, h, State.reg_setReg, if_neg hr.symm]
  rfl

end

/-- Settles O17: the arm of each of the two commands writes DATA. -/
theorem dataCommandResult : Obligations.DataCommandResult := by
  intro s hf
  simp only [exec]
  exact ⟨State.command_of_regArm hf (r := .data) (by decide) rfl,
    State.command_of_regArm hf (r := .data) (by decide) rfl⟩

/-- Settles O18: each arm writes its two flags, which is one write of CMD_STATUS. -/
theorem motorHeadCommandResult : Obligations.MotorHeadCommandResult := by
  intro s hf b
  simp only [exec]
  exact ⟨State.command_of_statusArm hf (s.setStatus_setStatus .mtrNSpin .headRtrct),
    State.command_of_statusArm hf (s.clearStatus_clearStatus .mtrNSpin .headRtrct),
    State.command_of_statusArm hf (s.clearStatus_setStatus .headRtrct .mtrNSpin)⟩

/-- Settles O19: each arm clears one flag of CMD_STATUS, whatever it was. -/
theorem clearFlagCommandResult : Obligations.ClearFlagCommandResult := by
  intro s hf
  simp only [exec]
  exact ⟨State.command_of_statusArm hf (s.clearStatus_eq_setReg .diskChng),
    State.command_of_statusArm hf (s.clearStatus_eq_setReg .rstState)⟩

/-- Bits ORed in that stay clear of a mask leave the bits under it. -/
theorem or_and_of_and_eq_zero {w v m : Word} (h : v &&& m = 0#32) : (w ||| v) &&& m = w &&& m := by
  rw [BitVec.and_comm, BitVec.and_or_distrib_left, BitVec.and_comm m v, h, BitVec.or_zero, BitVec.and_comm]

/-- Settles O20: the arm writes CUR_TK alone; well-formed parameters keep the lock bits clear of the head and track
fields. -/
theorem idxLockRetryResult : Obligations.IdxLockRetryResult := by
  refine ⟨⟨rfl, by decide⟩, fun s hf => ⟨?_, fun hwf => ?_⟩⟩
  · simp only [exec]
    exact State.command_of_regArm hf (r := .curTk) (by decide) rfl
  · obtain ⟨-, -, -, -, -, -, hclear⟩ := hwf
    exact or_and_of_and_eq_zero hclear

/-! ## The seeks -/

/-- A seek's CUR_TK: DATA with `SEEK_OR` (R153, R154). -/
def seekTrack (s : State) : Word := s.reg .data ||| 0x60000000#32

/-- What a seek leaves but for CMD_STATUS: the new CUR_TK, the mode, and the geometry of the new CUR_TK. -/
def sought (mode : Bool) (s : State) : State :=
  { s with
    regs := s.regs.set .curTk (seekTrack s)
    session := { s.session with
      modeRead := mode
      zone := resolveZone (headOf (seekTrack s)) (trackOf (seekTrack s))
      trackByteOffset := BitVec.ofNat 32 (resolveOffset (headOf (seekTrack s)) (trackOf (seekTrack s))) } }

/-- The flags a seek clears are one write of CMD_STATUS, and the geometry it resolves is that of the CUR_TK it wrote. -/
theorem seekArm_eq (mode : Bool) (s : State) :
    seekArm mode s = (sought mode s).setReg .cmdStatus (s.reg .cmdStatus &&& ~~~powerMask s) := by
  rw [seekArm, State.clearStatus_clearStatus]
  rfl

/-- Settles O16: the seek's arm is a write of CMD_STATUS to the state it otherwise leaves; the track field is bits
27..16 of CUR_TK. -/
theorem seekResult : Obligations.SeekResult := by
  intro s hf tk track seeked
  have hseek (mode : Bool) :
      s.command (seekArm mode) = .next (commanded (seeked mode) (s.reg .cmdStatus &&& ~~~powerMask s) []) := by
    have hsought : sought mode s = seeked mode := by
      unfold sought
      rw [trackOf_eq]
      rfl
    rw [State.command_of_unfaulted hf, seekArm_eq, State.reg_setReg, if_pos rfl, hsought]
    simp [commanded]
  exact ⟨hseek true, hseek false⟩

/-! ## The one signal of a command -/

/-- From `s` to `t` the parameters and the fault stay, and the events added are `evs`, none of them a signal: what the
arm of a command does before the epilogue (R150, R151). -/
structure Quiet (evs : List Event) (s t : State) : Prop where
  params : t.params = s.params
  fault  : t.fault = s.fault
  trace  : t.trace = s.trace ++ evs
  silent : .signal ∉ evs

/-- An update that adds no event. -/
theorem Quiet.of_eq {s t : State} (hp : t.params = s.params) (hf : t.fault = s.fault) (ht : t.trace = s.trace) :
    Quiet [] s t :=
  ⟨hp, hf, by rw [ht, List.append_nil], List.not_mem_nil⟩

/-- A GET command's arm adds its clock read and no other event (R176). -/
theorem quiet_getTimeArm (kind : ClockKind) (s : State) : Quiet [.clockRead kind] s (getTimeArm kind s) where
  params := s.params_clockDrawn
  fault := s.fault_clockDrawn
  trace := congrArg (· ++ _) s.trace_clockDrawn
  silent := by simp

/-- A command completes with the epilogue after a quiet arm: MECHA_INT set, the line asserted, and one signal, the last
event (R151). -/
theorem State.command_signals_once {s : State} (hf : s.fault = none) {arm : State → State} {evs : List Event}
    (h : Quiet evs s (arm s)) :
    ∃ t, s.command arm = .next t ∧ (t.reg .cmdStatus).getLsbD s.params.statusBits.mechaInt = true ∧ t.irq = true ∧
      t.fault = none ∧ t.trace = s.trace ++ evs ++ [.signal] := by
  refine ⟨_, State.command_of_unfaulted hf arm, ?_, rfl, h.fault.trans hf, ?_⟩
  · simp [commanded, h.params]
  · simp [commanded, h.trace]

/-- Every well-formed command is an arm and the epilogue, and the arm is quiet: only the GET commands add an event
(R150, R170 to R172). -/
theorem exec_eq_command {s : State} (hf : s.fault = none) {i : Instr} (hc : isCommand i = true)
    (hw : i.wellFormed s.params = true) : ∃ arm evs, exec i s = s.command arm ∧ Quiet evs s (arm s) := by
  cases i <;> simp only [exec]
  case getYearMonth => exact ⟨_, _, rfl, quiet_getTimeArm .yearMonth s⟩
  case getDayHour => exact ⟨_, _, rfl, quiet_getTimeArm .dayHour s⟩
  case getMinSec => exact ⟨_, _, rfl, quiet_getTimeArm .minSec s⟩
  case cmdUnrecognized op => exact ⟨id, [], State.ifWellFormed_of_ok hf hw _, .of_eq rfl rfl rfl⟩
  case regRead | statusRead | regWrite | regWriteRo | bmctlWrite | hardResetWrite | c2Read | c2Write | dsRead | dsWrite
      | msRead | msWrite | iplRead | iplWrite => cases hc
  all_goals exact ⟨_, [], rfl, .of_eq rfl rfl rfl⟩

/-- Every opcode decodes to a well-formed command (R102). -/
theorem decodeCommand_isCommand (p : Params) (op : Half) :
    isCommand (decodeCommand p.opcodes op) = true ∧ (decodeCommand p.opcodes op).wellFormed p = true := by
  obtain ⟨-, hrow⟩ | ⟨hop, heq⟩ := decodeCommand_cases p.opcodes op
  · have hrows : ∀ e ∈ commandTable p.opcodes, isCommand e.2 = true ∧ e.2.wellFormed p = true := by
      simp [commandTable, isCommand, Instr.wellFormed]
    exact hrows _ hrow
  · simp [heq, isCommand, Instr.wellFormed, hop]

/-- Settles O23: the address is that of CMD_STATUS, so the step is a command, whose arm is quiet and whose epilogue
signals once. -/
theorem everyCommandWriteSignalsOnce : Obligations.EveryCommandWriteSignalsOnce := by
  intro s k word mask as hf hbus _ hk hp
  rw [regAddr_of_getElem? hbus hk] at hp
  rw [step_of_decode_ok hf hp (decode_commandWrite hbus word mask)]
  obtain ⟨hc, hw⟩ := decodeCommand_isCommand s.params (commandOp word)
  obtain ⟨arm, evs, hexec, hq⟩ := exec_eq_command (s := s.setPending as) hf hc hw
  obtain ⟨t, ht, hflag, hirq, hfault, htrace⟩ := State.command_signals_once (s := s.setPending as) hf hq
  exact ⟨t, evs, hexec.trans ht, hflag, hirq, hfault, htrace, hq.silent⟩

end Sys2Proof.Machine
end

section
/-! SUPPORT. Proofs of the family of 42_geometry.md: the zone and the track offset against the spec's tables, the laws
of the tables, and that only a seek moves the two (R190 to R201). -/

namespace Sys2Proof.Machine

open Spec

/-! ## The bands -/

/-- The first track of each band of 42_geometry.md R191. -/
def bandStart (base : Fin 8) : Nat := #v[0, 158, 316, 465, 614, 763, 912, 1061][base]

/-- The last 12-bit track of each band (R191, R197). -/
def bandLast (base : Fin 8) : Nat := #v[157, 315, 464, 613, 762, 911, 1060, 4095][base]

/-- The band is the last that starts at or before the track. -/
structure InBand (base : Fin 8) (track : Nat) : Prop where
  start_le : bandStart base ≤ track
  lt_later : ∀ later, base < later → track < bandStart later

theorem bandStart_strictMono : StrictMono bandStart := by
  unfold StrictMono
  decide

/-- A band ends where the next one starts. -/
theorem bandStart_next {base next : Fin 8} (h : next.val = base.val + 1) : bandStart next = bandLast base + 1 := by
  revert base next
  decide

namespace InBand

variable {base later : Fin 8} {track : Nat}

/-- To be in a band it is enough to be before the next one. -/
theorem of_lt_next (hlo : bandStart base ≤ track)
    (hhi : ∀ next : Fin 8, next.val = base.val + 1 → track < bandStart next) : InBand base track where
  start_le := hlo
  lt_later later hlt :=
    calc track < bandStart ⟨base.val + 1, by omega⟩ := hhi _ rfl
      _ ≤ bandStart later := bandStart_strictMono.monotone (Nat.succ_le_of_lt hlt)

/-- A later track is in no earlier band. -/
theorem le_of_le {track' : Nat} (h : InBand base track) (h' : InBand later track') (hle : track ≤ track') :
    base ≤ later := by
  by_contra hlt
  have := h'.lt_later base (not_le.mp hlt)
  have := h.start_le
  omega

theorem unique (h : InBand base track) (h' : InBand later track) : base = later :=
  le_antisymm (h.le_of_le h' le_rfl) (h'.le_of_le h le_rfl)

/-- The bands cover the 12-bit tracks. -/
theorem le_bandLast (h : InBand base track) (ht : track < 4096) : track ≤ bandLast base := by
  by_cases hb : base = 7
  · subst hb
    exact Nat.le_of_lt_succ ht
  · have hlt := h.lt_later ⟨base.val + 1, by omega⟩ (Nat.lt_succ_self _)
    rw [bandStart_next rfl] at hlt
    exact Nat.le_of_lt_succ hlt

/-- From one track to the next, either the band stays or the next band starts. -/
theorem succ (h : InBand base track) : InBand base (track + 1) ∨
    ∃ next : Fin 8, next.val = base.val + 1 ∧ bandStart next = track + 1 := by
  by_cases hnext : ∃ next : Fin 8, next.val = base.val + 1 ∧ bandStart next ≤ track + 1
  · obtain ⟨next, hval, hle⟩ := hnext
    have hlt := h.lt_later next (Fin.lt_def.mpr (by omega))
    exact .inr ⟨next, hval, by omega⟩
  · push Not at hnext
    exact .inl (of_lt_next (Nat.le_succ_of_le h.start_le) hnext)

end InBand

theorem inBand_bandStart (base : Fin 8) : InBand base (bandStart base) :=
  ⟨le_rfl, fun _ h => bandStart_strictMono h⟩

/-- The band table of the spec is the resolver's (R191). -/
theorem bandOf_eq (track : Nat) : bandOf track = ((band track).1.val, (band track).2) := by
  unfold band bands bandOf
  simp only [List.find?]
  split_ifs <;> simp [*]

/-- The row of the spec's band table is the band the track is in (R191). -/
theorem inBand_of_bandOf {base : Fin 8} {start track : Nat} (h : bandOf track = (base.val, start)) :
    InBand base track ∧ start = bandStart base := by
  have enclosed : start ≤ track ∧ start = bandStart base ∧
      ∀ next : Fin 8, next.val = base.val + 1 → track < bandStart next := by
    unfold bandOf at h
    split_ifs at h
    all_goals
      obtain ⟨hbase, rfl⟩ := Prod.mk.inj h
      simp_all [← hbase, bandStart, Fin.forall_fin_succ]
  obtain ⟨hlo, hstart, hhi⟩ := enclosed
  exact ⟨.of_lt_next (hstart ▸ hlo) hhi, hstart⟩

/-- The resolver finds the band of every track (R191). -/
theorem inBand_band (track : Nat) : InBand (band track).1 track ∧ (band track).2 = bandStart (band track).1 :=
  inBand_of_bandOf (bandOf_eq track)

theorem band_of_inBand {base : Fin 8} {track : Nat} (h : InBand base track) : band track = (base, bandStart base) := by
  obtain ⟨hin, hstart⟩ := inBand_band track
  obtain rfl := hin.unique h
  exact Prod.ext rfl hstart

/-! ## Zone and track offset -/

theorem resolveZone_of_inBand {base : Fin 8} {track : Nat} (h : InBand base track) (head : Bool) :
    resolveZone head track = zoneOf base head := by
  rw [resolveZone, band_of_inBand h]

theorem trackSize_eq (z : Fin 16) : trackSize z = sectorSize z * 170 :=
  Nat.mul_assoc _ _ _

/-- A track's offset is its zone's start and the tracks of its band before it (R196, R197). -/
theorem resolveOffset_of_inBand {base : Fin 8} {track : Nat} (h : InBand base track) (head : Bool) :
    resolveOffset head track =
      zoneStart (zoneOf base head) + (track - bandStart base) * (sectorSize (zoneOf base head) * 170) := by
  rw [resolveOffset, resolveZone_of_inBand h, band_of_inBand h, trackSize_eq]

/-- No zone's last 12-bit track starts past the largest offset of R197. -/
theorem zone_last_offset_le (base : Fin 8) (head : Bool) :
    zoneStart (zoneOf base head) + (bandLast base - bandStart base) * (sectorSize (zoneOf base head) * 170) ≤
      0x78607C0 := by
  revert base head
  decide

theorem resolveOffset_le (head : Bool) {track : Nat} (ht : track < 4096) : resolveOffset head track ≤ 0x78607C0 := by
  obtain ⟨hin, -⟩ := inBand_band track
  rw [resolveOffset_of_inBand hin]
  refine le_trans ?_ (zone_last_offset_le (band track).1 head)
  gcongr
  exact hin.le_bandLast ht

/-- The sector size table (R192). -/
theorem sectorSize_eq_table (z : Fin 16) : sectorSize z =
    [232, 216, 208, 192, 176, 160, 144, 128, 216, 208, 192, 176, 160, 144, 128, 112][z.val]! := by
  revert z
  decide

/-- The zone start table (R194). -/
theorem zoneStart_eq_table (z : Fin 16) : zoneStart z =
    [0x0, 0x5F15E0, 0xB79D00, 0x10801A0, 0x1523720, 0x1963D80, 0x1D414C0, 0x20BBCE0, 0x23196E0, 0x28A1E00, 0x2DF5DC0,
      0x3299340, 0x36D99A0, 0x3AB70E0, 0x3E31900, 0x4149200][z.val]! := by
  revert z
  decide

/-- Settles O25: the zone is the index into both tables, and the bound is that of the zone's last track. -/
theorem geometryFollowsTables : Obligations.GeometryFollowsTables := by
  intro head track ht
  have hzone : (resolveZone head track).val = (bandOf track).1 + 8 * head.toNat := by
    rw [bandOf_eq]
    rfl
  have hstart : (bandOf track).2 = (band track).2 := by rw [bandOf_eq]
  refine ⟨hzone, ?_, ?_, resolveOffset_le head ht⟩
  · rw [← hzone, sectorSize_eq_table]
  · rw [← hzone, ← zoneStart_eq_table, hstart, Nat.mul_assoc, ← trackSize_eq]
    rfl

/-! ## The laws of the tables -/

/-- Zones lie one after the other in index order (R201). -/
theorem zoneStart_next {z w : Fin 16} (h : w.val + 1 = z.val) :
    zoneStart z = zoneStart w + tracksPerZone[w] * sectorSize w * 170 := by
  revert z w
  decide

/-- A zone holds as many tracks as its band spans up to the next band, for both heads (R193, R201). -/
theorem tracksPerZone_eq_bandStart_sub {base next : Fin 8} (h : next.val = base.val + 1) (head : Bool) :
    tracksPerZone[zoneOf base head] = bandStart next - bandStart base := by
  revert base next head
  decide

/-- The zone never decreases with the track (R201). -/
theorem resolveZone_mono (head : Bool) : Monotone (resolveZone head) := by
  intro t u hle
  have hband : (band t).1 ≤ (band u).1 := (inBand_band t).1.le_of_le (inBand_band u).1 hle
  exact Nat.add_le_add_right hband _

theorem resolveOffset_bandStart (head : Bool) (base : Fin 8) :
    resolveOffset head (bandStart base) = zoneStart (resolveZone head (bandStart base)) := by
  rw [resolveOffset_of_inBand (inBand_bandStart base), resolveZone_of_inBand (inBand_bandStart base), Nat.sub_self,
    Nat.zero_mul, Nat.add_zero]

/-- Where the next band starts, the next zone starts one track after the last track of the zone before (R201). -/
theorem zoneStart_of_last_track {base next : Fin 8} {track : Nat} (h : next.val = base.val + 1)
    (hlo : bandStart base ≤ track) (hlast : bandStart next = track + 1) (head : Bool) :
    zoneStart (zoneOf next head) = zoneStart (zoneOf base head) +
      (track - bandStart base + 1) * (sectorSize (zoneOf base head) * 170) := by
  have hzone : (zoneOf base head).val + 1 = (zoneOf next head).val := by
    simp only [zoneOf]
    omega
  rw [zoneStart_next hzone, tracksPerZone_eq_bandStart_sub h, hlast, Nat.mul_assoc, Nat.sub_add_comm hlo]

/-- Each track starts one track's size after the one before, across a zone's end too (R201). -/
theorem resolveOffset_succ (head : Bool) (track : Nat) :
    resolveOffset head (track + 1) = resolveOffset head track + sectorSize (resolveZone head track) * 170 := by
  obtain ⟨hin, -⟩ := inBand_band track
  generalize (band track).1 = base at hin
  have hoff : resolveOffset head (track + 1) = zoneStart (zoneOf base head) +
      (track - bandStart base + 1) * (sectorSize (zoneOf base head) * 170) := by
    obtain hsame | ⟨next, hnext, hstart⟩ := hin.succ
    · rw [resolveOffset_of_inBand hsame, Nat.sub_add_comm hin.start_le]
    · rw [← hstart, resolveOffset_bandStart, resolveZone_of_inBand (inBand_bandStart next),
        zoneStart_of_last_track hnext hin.start_le hstart]
  rw [hoff, resolveOffset_of_inBand hin, resolveZone_of_inBand hin, Nat.succ_mul, Nat.add_assoc]

/-- Settles O26: the tables' own laws are finite; those of the resolver follow from the band of each track. -/
theorem geometryTableLaws : Obligations.GeometryTableLaws := by
  refine ⟨fun z w => zoneStart_next, rfl, by decide, fun head t u => (resolveZone_mono head ·), fun head t ht => ?_,
    fun head t _ => ⟨resolveOffset_succ head t, ?_⟩⟩
  · have starts : ∀ t ∈ [0, 158, 316, 465, 614, 763, 912, 1061], ∃ base, bandStart base = t := by decide
    obtain ⟨base, rfl⟩ := starts t ht
    exact resolveOffset_bandStart head base
  · have := sectorSize_pos (resolveZone head t)
    rw [resolveOffset_succ]
    omega

/-! ## What moves the geometry -/

/-- The two outputs of the last resolve (R33, R34). -/
def State.geometry (s : State) : Fin 16 × Word := (s.session.zone, s.session.trackByteOffset)

theorem geometry_pump (s : State) : (pump s).geometry = s.geometry := by
  obtain ⟨-, -, -, -, -, -, hzone, hoff, -⟩ := pump_frame s
  exact Prod.ext hzone hoff

/-- The trailing edge of a BM reset zeroes the geometry under `RESET_CLEARS_SESSION`, and otherwise leaves it (R252). -/
theorem geometry_bmTrailingEdge (s : State) :
    (bmTrailingEdge s).geometry = if s.params.resetClearsSession then (0, 0#32) else s.geometry := by
  by_cases hclears : s.params.resetClearsSession = true
  · simp [bmTrailingEdge, resetSession, State.geometry, hclears]
  · simp [bmTrailingEdge, resetSession, State.geometry, hclears]

theorem geometry_bmReset (word : Word) (s : State) : (bmReset word s).geometry =
    if s.ctlBit word .reset = false ∧ s.session.resetHold = true ∧ s.params.resetClearsSession = true then (0, 0#32)
    else s.geometry := by
  unfold bmReset
  split
  case isTrue hreset => simp [hreset, State.geometry]
  case isFalse hreset =>
    split
    case isTrue hhold => simp [hreset, hhold, geometry_bmTrailingEdge]
    case isFalse hhold => simp [hhold]

theorem geometry_bmMechaRst (word : Word) (s : State) : (bmMechaRst word s).geometry = s.geometry := by
  unfold bmMechaRst
  split <;> rfl

theorem geometry_bmBlkTrans (word : Word) (s : State) : (bmBlkTrans word s).geometry = s.geometry := by
  unfold bmBlkTrans
  split <;> rfl

theorem geometry_setBlock (s : State) (b : Fin 2) : (s.setBlock b).geometry = s.geometry := rfl

theorem geometry_setReg (s : State) (r : Reg) (v : Word) : (s.setReg r v).geometry = s.geometry := rfl

theorem geometry_bmSector (word : Word) (s : State) : (bmSector word s).geometry = s.geometry := by
  rw [bmSector, geometry_setBlock, geometry_setReg]

theorem geometry_bmLineClear (s : State) : (bmLineClear s).geometry = s.geometry := by
  unfold bmLineClear
  split <;> rfl

theorem geometry_bmStart (word : Word) (s : State) : (bmStart word s).geometry = s.geometry := by
  unfold bmStart
  split
  · exact geometry_pump _
  · rfl

/-- Of the seven steps of a BM-control write only the reset reaches the geometry (44_bm_control.md R259). -/
theorem geometry_bmControl (word : Word) (s : State) :
    (bmControl word s).geometry = (bmReset word s).geometry := by
  rw [bmControl, geometry_bmStart, bmPrepare, geometry_bmLineClear, geometry_bmSector, geometry_bmBlkTrans,
    geometry_bmMechaRst]

theorem geometry_statusReadSideEffect (s : State) : (statusReadSideEffect s).geometry = s.geometry := by
  unfold statusReadSideEffect
  split
  · exact geometry_pump _
  · rfl

section

variable {s t : State}

theorem session_of_command {arm : State → State} (h : s.command arm = .next t)
    (ha : (arm s).session = s.session) : t.session = s.session := by
  obtain ⟨-, rfl⟩ := State.command_next.mp h
  exact ha

theorem session_of_writeOp {body : State → State} (h : s.writeOp body = .next t)
    (hb : (body s).session = s.session) : t.session = s.session := by
  obtain ⟨-, rfl⟩ := State.writeOp_next.mp h
  exact hb

theorem session_of_readOp {v : Word} (h : s.readOp v = .next t) : t.session = s.session := by
  obtain ⟨-, rfl⟩ := State.readOp_next.mp h
  rfl

theorem session_of_iplRead {off : Nat} (h : execIplRead off s = .next t) : t.session = s.session := by
  obtain ⟨-, -, h⟩ := State.atOffset_next.mp h
  split at h
  · exact session_of_readOp h
  · split at h
    · cases h
    · exact session_of_readOp h

/-- Every completed operation leaves the session as it was, but a seek, a BM-control write and a status read (R30 to
R35). -/
theorem exec_session {i : Instr} (h : exec i s = .next t) (hread : i ≠ .seekRead) (hwrite : i ≠ .seekWrite)
    (hstatus : i ≠ .statusRead) (hctl : ∀ word, i ≠ .bmctlWrite word) : t.session = s.session := by
  cases i <;> simp only [exec] at h
  case seekRead => exact absurd rfl hread
  case seekWrite => exact absurd rfl hwrite
  case statusRead => exact absurd rfl hstatus
  case bmctlWrite word => exact absurd rfl (hctl word)
  case getYearMonth | getDayHour | getMinSec => exact session_of_command h s.session_clockDrawn
  case cmdUnrecognized op =>
    obtain ⟨-, -, h⟩ := State.ifWellFormed_next.mp h
    exact session_of_command h rfl
  case regRead r =>
    obtain ⟨-, -, h⟩ := State.ifWellFormed_next.mp h
    exact session_of_readOp h
  case regWrite r word mask | regWriteRo r word mask =>
    obtain ⟨-, -, h⟩ := State.ifWellFormed_next.mp h
    exact session_of_writeOp h rfl
  case hardResetWrite word =>
    refine session_of_writeOp h ?_
    split <;> rfl
  case c2Read off | dsRead off | msRead off =>
    obtain ⟨-, -, h⟩ := State.atOffset_next.mp h
    exact session_of_readOp h
  case c2Write off word mask | dsWrite off word mask | msWrite off word mask | iplWrite off word mask =>
    obtain ⟨-, -, h⟩ := State.atOffset_next.mp h
    exact session_of_writeOp h rfl
  case iplRead off => exact session_of_iplRead h
  all_goals exact session_of_command h rfl

/-- A completed BM-control write leaves the geometry that its reset left (44_bm_control.md R251, R252). -/
theorem geometry_of_bmctlWrite {word : Word} (h : exec (.bmctlWrite word) s = .next t) :
    t.geometry = (bmReset word s).geometry := by
  obtain ⟨-, rfl⟩ := State.writeOp_next.mp h
  exact geometry_bmControl word s

/-- A completed status read leaves the geometry as it was: its side effect is a pump at most (R122). -/
theorem geometry_of_statusRead (h : execStatusRead s = .next t) : t.geometry = s.geometry := by
  obtain ⟨-, h⟩ := State.operate_next.mp h
  cases h
  exact geometry_statusReadSideEffect s

/-- Every completed operation but a seek and a BM-control write leaves the geometry as it was (R200). -/
theorem exec_geometry {i : Instr} (h : exec i s = .next t) (hread : i ≠ .seekRead) (hwrite : i ≠ .seekWrite)
    (hctl : ∀ word, i ≠ .bmctlWrite word) : t.geometry = s.geometry := by
  obtain rfl | hstatus := eq_or_ne i .statusRead
  · exact geometry_of_statusRead h
  · rw [State.geometry, exec_session h hread hwrite hstatus hctl, State.geometry]

end

/-- Settles O27: a BM-control write moves the geometry only by the trailing edge of its reset, and no other operation
but a seek moves it. -/
theorem onlySeeksMoveGeometry : Obligations.OnlySeeksMoveGeometry := by
  intro s t i h hread hwrite
  refine ⟨fun hno => Prod.mk.inj (?_ : t.geometry = s.geometry), ?_⟩
  · by_cases hctl : ∃ word, i = .bmctlWrite word
    · obtain ⟨word, rfl⟩ := hctl
      rw [geometry_of_bmctlWrite h, geometry_bmReset]
      exact if_neg fun hedge => hno ⟨word, rfl, hedge⟩
    · exact exec_geometry h hread hwrite (not_exists.mp hctl)
  · rintro word rfl hreset hhold hclears
    refine Prod.mk.inj (?_ : t.geometry = (0, 0#32))
    rw [geometry_of_bmctlWrite h, geometry_bmReset]
    exact if_pos ⟨hreset, hhold, hclears⟩

end Sys2Proof.Machine
end

section
/-! SUPPORT. Proofs of the family of 43_bm_pump.md: the arms of the pump's two branches as closed next states, the IPL
special case, and that RUNNING influences nothing else of the pump (R211 to R230). -/

namespace Sys2Proof.Machine

open Spec

/-! ## The state a pump leaves -/

section

variable (s : State) (k : Nat) (b : Fin 2) (st bm : Word) (evs : List Event)

/-- The pumped state writes CMD_STATUS whole, so an earlier write of it does not show. -/
theorem pumped_setReg_cmdStatus (v : Word) : pumped (s.setReg .cmdStatus v) k b st bm evs = pumped s k b st bm evs := by
  unfold pumped
  rw [State.regs_setReg, Regs.set_comm s.regs (show Reg.cmdStatus ≠ .curSector by decide), Regs.set_set]
  rfl

/-- The pumped state writes BM_STATUS_CTL whole, so an earlier write of it does not show. -/
theorem pumped_setReg_bmStatusCtl (v : Word) :
    pumped (s.setReg .bmStatusCtl v) k b st bm evs = pumped s k b st bm evs := by
  unfold pumped
  rw [State.regs_setReg, Regs.set_comm s.regs (show Reg.bmStatusCtl ≠ .curSector by decide),
    Regs.set_comm _ (show Reg.bmStatusCtl ≠ .cmdStatus by decide), Regs.set_set]
  rfl

@[simp] theorem pumped_setStatus (f : StatusFlag) : pumped (s.setStatus f) k b st bm evs = pumped s k b st bm evs :=
  pumped_setReg_cmdStatus ..

@[simp] theorem pumped_clearStatus (f : StatusFlag) : pumped (s.clearStatus f) k b st bm evs = pumped s k b st bm evs :=
  pumped_setReg_cmdStatus ..

@[simp] theorem pumped_clearBm (f : BmFlag) : pumped (s.clearBm f) k b st bm evs = pumped s k b st bm evs :=
  pumped_setReg_bmStatusCtl ..

@[simp] theorem pumped_setBlock (c : Fin 2) : pumped (s.setBlock c) k b st bm evs = pumped s k b st bm evs := rfl

@[simp] theorem pumped_setSkip89 (v : Bool) : pumped (s.setSkip89 v) k b st bm evs =
    { pumped s k b st bm evs with session := { s.session with currentBlock := b, skip89 := v } } := rfl

@[simp] theorem pumped_zeroC2 : pumped s.zeroC2 k b st bm evs =
    { pumped s k b st bm evs with c2 := s.c2.zeroFill 0 s.params.bus.c2Size } := rfl

@[simp] theorem pumped_emit (e : Event) : pumped (s.emit e) k b st bm evs = pumped s k b st bm (e :: evs) := by
  simp [pumped, State.emit]

end

/-- The epilogue leaves the position it is given, with the block and the two status words that the branch reached
(R230). -/
theorem pumpEpilogue_eq_pumped (k : Nat) (t : State) :
    pumpEpilogue k t = pumped t k t.session.currentBlock (t.reg .cmdStatus) (t.reg .bmStatusCtl) [] := by
  have hbm : (pumpEpilogue k t).regs.set .bmStatusCtl (t.reg .bmStatusCtl) = (pumpEpilogue k t).regs := by
    rw [show t.reg .bmStatusCtl = (pumpEpilogue k t).regs.get .bmStatusCtl by simp [pumpEpilogue, State.reg]]
    exact Regs.set_get_named _ (by simp)
  calc pumpEpilogue k t
      = { pumpEpilogue k t with regs := (pumpEpilogue k t).regs.set .bmStatusCtl (t.reg .bmStatusCtl) } := by rw [hbm]
    _ = pumped t k t.session.currentBlock (t.reg .cmdStatus) (t.reg .bmStatusCtl) [] := by
      rw [pumped, ← setBit_eq_or, List.append_nil]
      rfl

/-! ## From the pump to its branch -/

section

variable {s t : State} {k k' : Nat} {b : Fin 2}

/-- The prologue finds what `At` says: the in-block sector, and the block, which it stores (R212). -/
theorem pumpPrologue_of_at (hat : At s k b) : pumpPrologue s = (k, s.setBlock b) := by
  have hk := inBlock_of_at hat
  unfold At at hat
  rw [← sectorNumber_eq] at hat
  rw [pumpPrologue_eq, hk, Config.block1Base]
  split at hat
  case isTrue h90 => rw [if_pos h90, hat.2]
  case isFalse h90 =>
    rw [if_neg h90, hat.2]
    rfl

/-- Where the branch raised no fault, the pump is its epilogue (R231). -/
theorem pump_of_branch (hat : At s k b) (hbranch : pumpBranch k (s.setBlock b) = (k', t)) (hf : t.fault = none) :
    pump s = pumpEpilogue k' t := by
  rw [pump_eq, pumpPrologue_of_at hat, hbranch, State.andThen_of_none hf]

theorem pump_of_pumpWrite (hat : At s k b) (hmode : s.session.modeRead = false)
    (harm : pumpWrite k (s.setBlock b) = (k', t)) (hf : t.fault = none) : pump s = pumpEpilogue k' t :=
  pump_of_branch hat (by simpa [pumpBranch, hmode] using harm) hf

theorem pump_of_pumpRead (hat : At s k b) (hmode : s.session.modeRead = true)
    (harm : pumpRead k (s.setBlock b) = (k', t)) (hf : t.fault = none) : pump s = pumpEpilogue k' t :=
  pump_of_branch hat (by simpa [pumpBranch, hmode] using harm) hf

end

/-! ## The write branch -/

section

variable (s : State) {k : Nat}

/-- Sector 0 asks for the first sector's data (R214). -/
theorem pumpWrite_zero : pumpWrite 0 s = (1, s.setStatus .dataRq) := rfl

/-- Sectors 1 to 84 commit, advance and ask for more (R215). -/
theorem pumpWrite_of_lt (h0 : 1 ≤ k) (h : k < 85) :
    pumpWrite k s = (k + 1, (commitSector k s).andThen (·.setStatus .dataRq)) := by
  rw [pumpWrite, if_neg (by omega), Config.sectorsPerBlock, if_pos h]

/-- Sector 85 with BLOCK set commits and goes on in the other block (R216). -/
theorem pumpWrite_of_block (h : s.bm .block = true) :
    pumpWrite 85 s = (1, (commitSector 85 s).andThen writeNextBlock) := by
  simp [pumpWrite, Config.sectorsPerBlock, h]

/-- Sector 85 with BLOCK clear commits and ends the transfer (R217). -/
theorem pumpWrite_of_not_block (h : s.bm .block = false) :
    pumpWrite 85 s = (86, (commitSector 85 s).andThen (·.clearBm .running)) := by
  simp [pumpWrite, Config.sectorsPerBlock, h]

/-- From sector 86 on the write branch does nothing (R219). -/
theorem pumpWrite_of_past (h : 86 ≤ k) : pumpWrite k s = (k, s) := by
  rw [pumpWrite, Config.sectorsPerBlock, if_neg (by omega), if_neg (by omega), if_neg (by omega)]

end

/-- By default a commit is its event alone, that of its slot in the block the prologue found, and its arm goes on
(R218). -/
theorem commitSector_andThen {s : State} (hf : s.fault = none) (hp : s.params.writePersist = false) (k : Nat)
    (b : Fin 2) (next : State → State) :
    (commitSector k (s.setBlock b)).andThen next = next ((s.setBlock b).emit (commitEvent s b (k - 1))) := by
  have hpayload : (s.setBlock b).ds.slice 0 (s.setBlock b).sectorBytes = payload s := by
    simp [Memory.slice, payload, State.sectorBytes]
  rw [commitSector_of_no_persist (s := s.setBlock b) hp, hpayload]
  exact State.andThen_of_none (s := (s.setBlock b).emit _) hf next

/-- Settles O42: each arm of the write branch is a short run of named updates, and the epilogue closes it. -/
theorem pumpWriteArms : Obligations.PumpWriteArms := by
  intro s k b hf hat hmode st bm dataRq running block
  refine ⟨?_, fun hk => ?_, fun hp => ⟨fun h0 hk => ?_, ?_, ?_⟩⟩
  · rintro rfl
    rw [pump_of_pumpWrite hat hmode (pumpWrite_zero _) hf, pumpEpilogue_eq_pumped]
    simp [st, bm, dataRq, setBit, StatusFlag.bit]
  · rw [pump_of_pumpWrite hat hmode (pumpWrite_of_past _ hk) hf, pumpEpilogue_eq_pumped]
    simp [st, bm]
  · have harm := pumpWrite_of_lt (s.setBlock b) h0 hk
    rw [commitSector_andThen hf hp] at harm
    rw [pump_of_pumpWrite hat hmode harm hf, pumpEpilogue_eq_pumped]
    simp [st, bm, dataRq, setBit, StatusFlag.bit]
  · rintro rfl hblock
    have harm := pumpWrite_of_block (s.setBlock b) hblock
    rw [commitSector_andThen hf hp] at harm
    rw [pump_of_pumpWrite hat hmode harm hf, pumpEpilogue_eq_pumped]
    simp [writeNextBlock, st, bm, dataRq, block, setBit, clearBit, StatusFlag.bit, BmFlag.bit]
  · rintro rfl hblock
    have harm := pumpWrite_of_not_block (s.setBlock b) hblock
    rw [commitSector_andThen hf hp] at harm
    rw [pump_of_pumpWrite hat hmode harm hf, pumpEpilogue_eq_pumped]
    simp [st, bm, running, clearBit, BmFlag.bit]

/-! ## The read branch -/

/-- The state in which the arms of the read branch run, but for the step-back of sector 89 (R212, R220). -/
def readEntry (s : State) (b : Fin 2) : State := ((s.setBlock b).clearStatus .dataRq).clearStatus .c2Xfer

section

variable (s : State) (b : Fin 2)

@[simp] theorem reg_cmdStatus_readEntry : (readEntry s b).reg .cmdStatus =
    s.reg .cmdStatus &&& ~~~bitMask [s.params.statusBits.dataRq, s.params.statusBits.c2Xfer] := by
  rw [readEntry, State.clearStatus_clearStatus, State.reg_setReg, if_pos rfl]
  rfl

@[simp] theorem reg_bmStatusCtl_readEntry : (readEntry s b).reg .bmStatusCtl = s.reg .bmStatusCtl := by
  simp [readEntry]

theorem bm_readEntry (f : BmFlag) : (readEntry s b).bm f = s.bm f := by
  simp [readEntry]

@[simp] theorem session_readEntry : (readEntry s b).session = { s.session with currentBlock := b } := rfl

@[simp] theorem c2_readEntry : (readEntry s b).c2 = s.c2 := rfl

@[simp] theorem params_readEntry : (readEntry s b).params = s.params := rfl

@[simp] theorem pumped_readEntry (k : Nat) (c : Fin 2) (st bm : Word) (evs : List Event) :
    pumped (readEntry s b) k c st bm evs = pumped s k c st bm evs := by
  simp [readEntry]

/-- The special case is that of the state the pump started from, with the block its prologue found (R222). -/
theorem iplSpecial_readEntry : iplSpecial (readEntry s b) = true ↔ IplCase s b := by
  have htrack : trackOf (s.reg .curTk) = 6 ↔ (s.reg .curTk >>> 16) &&& 0xFFF#32 = 6#32 := by
    rw [trackOf_eq, BitVec.toNat_eq]
    rfl
  simp [iplSpecial, readEntry, Config.iplTrack, htrack, and_assoc]

end

section

variable {s : State} {k : Nat}

/-- In the IPL special case no arm runs (R222). -/
theorem readArms_of_ipl (h : iplSpecial s = true) : readArms k s = (k, s) := if_pos h

variable (hipl : ¬iplSpecial s = true)

include hipl

/-- Sectors 0 to 84 copy, advance and ask the host to take the data (R223). -/
theorem readArms_of_lt (hk : k < 85) : readArms k s = (k + 1, (copySector k s).andThen (·.setStatus .dataRq)) := by
  rw [readArms, if_neg hipl, Config.sectorsPerBlock, if_pos hk]

/-- Sectors 85 to 87 advance (R225). -/
theorem readArms_of_advance (hlo : 85 ≤ k) (hhi : k < 88) : readArms k s = (k + 1, s) := by
  rw [readArms, if_neg hipl, Config.sectorsPerBlock, if_neg (by omega), if_pos (by omega), readEcc, if_neg (by omega)]

/-- Sector 88 advances to 89, zeroes the ECC buffer and asserts C2_XFER (R226). -/
theorem readArms_of_ecc : readArms 88 s = (89, s.zeroC2.setStatus .c2Xfer) := by
  rw [readArms, if_neg hipl]
  rfl

/-- The gap with BLOCK set goes on in the other block (R227). -/
theorem readArms_of_block (hblock : s.bm .block = true) :
    readArms 89 s = (0, (s.setBlock (1 - s.session.currentBlock)).clearBm .block) := by
  rw [readArms, if_neg hipl]
  exact if_pos hblock

/-- The gap with BLOCK clear ends the transfer (R228). -/
theorem readArms_of_not_block (hblock : s.bm .block = false) : readArms 89 s = (89, s.clearBm .running) := by
  rw [readArms, if_neg hipl]
  exact if_neg (Bool.eq_false_iff.mp hblock)

/-- From sector 90 on the read branch does nothing (R229). -/
theorem readArms_of_past (hk : 90 ≤ k) : readArms k s = (k, s) := by
  rw [readArms, if_neg hipl, Config.sectorsPerBlock, if_neg (by omega), if_neg (by omega), if_neg (by omega)]

end

section

variable {s t : State} {k k' : Nat} {b : Fin 2}

/-- A read pump that does not step back is one arm from its entry (R221). -/
theorem pump_of_readArms (hat : At s k b) (hmode : s.session.modeRead = true)
    (hstay : k ≠ 89 ∨ s.session.skip89 = true) (harm : readArms k (readEntry s b) = (k', t)) (hf : t.fault = none) :
    pump s = pumpEpilogue k' t := by
  have hstep : stepBack k (readEntry s b) = (k, readEntry s b) := by
    refine if_neg ?_
    obtain hk | hskip := hstay
    · simp [hk]
    · simp [hskip]
  refine pump_of_pumpRead hat hmode ?_ hf
  rw [pumpRead, ← readEntry, hstep]
  exact harm

/-- The first pump that finds sector 89 is one arm from sector 88, with the skip flag set (R221). -/
theorem pump_of_stepBack (hat : At s 89 b) (hmode : s.session.modeRead = true) (hskip : s.session.skip89 = false)
    (harm : readArms 88 ((readEntry s b).setSkip89 true) = (k', t)) (hf : t.fault = none) :
    pump s = pumpEpilogue k' t := by
  have hstep : stepBack 89 (readEntry s b) = (88, (readEntry s b).setSkip89 true) := by
    simp [stepBack, hskip]
  refine pump_of_pumpRead hat hmode ?_ hf
  rw [pumpRead, ← readEntry, hstep]
  exact harm

end

/-- Settles O45: no arm runs after the entry, nor after the step-back of sector 89. -/
theorem pumpIplCase : Obligations.PumpIplCase := by
  intro s k b hf hat hmode hcase st
  have hipl : iplSpecial (readEntry s b) = true := (iplSpecial_readEntry s b).mpr hcase
  refine ⟨fun hstay => ?_, ?_⟩
  · rw [pump_of_readArms hat hmode hstay (readArms_of_ipl hipl) hf, pumpEpilogue_eq_pumped]
    simp [st]
  · rintro rfl hskip
    rw [pump_of_stepBack hat hmode hskip (readArms_of_ipl hipl) hf, pumpEpilogue_eq_pumped]
    simp [st]

/-- A copy inside the image stores the slot of the block the prologue found at the start of the host buffer, and its
arm goes on (R224). -/
theorem copySector_andThen {s : State} {k : Nat} {b : Fin 2} (hf : s.fault = none)
    (hfits : slot s b k + sectorSize s.session.zone ≤ s.img.size) (next : State → State) :
    (copySector k (readEntry s b)).andThen next = next (readEntry
      { s with ds := s.ds.store 0 (s.img.bytes.slice (slot s b k) (sectorSize s.session.zone)) } b) := by
  rw [copySector_of_le (s := readEntry s b) hfits]
  exact State.andThen_of_none (s := { readEntry s b with ds := _ }) hf next

/-- A run of bytes copied from the start of another memory (R224). -/
theorem Memory.read_store_slice {m : Memory} (h : m.wf) (src : Memory) (off n a : Nat) :
    (m.store 0 (src.slice off n)).read a = if a < n then src.read (off + a) else m.read a := by
  rw [Memory.read_store h, Memory.length_slice]
  by_cases ha : a < n
  · rw [if_pos (by omega), if_pos ha, Nat.sub_zero, Memory.getElem_slice _ _ _ _ ha]
  · rw [if_neg (by omega), if_neg ha]

/-- What the zeroed ECC buffer reads as (R226). -/
theorem Memory.read_zeroFill_zero (m : Memory) (n a : Nat) :
    (m.zeroFill 0 n).read a = if a < n then 0#8 else m.read a := by
  simp [Memory.read_zeroFill]

/-- Settles O44: outside the IPL special case each sector selects one arm of the read branch, and the first 89 that of
88. -/
theorem pumpReadArms : Obligations.PumpReadArms := by
  intro s k b hf hat hmode hds hcase st bm dataRq c2Xfer running block
  have hipl : ¬iplSpecial (readEntry s b) = true := mt (iplSpecial_readEntry s b).mp hcase
  refine ⟨fun hk hfits => ?_, fun hlo hhi => ?_, ?_, ?_, ?_, ?_, fun hk => ?_⟩
  · refine ⟨_, Memory.wf_store hds 0 (s.img.bytes.slice (slot s b k) (sectorSize s.session.zone)),
      Memory.read_store_slice hds _ _ _, ?_⟩
    have harm := readArms_of_lt hipl hk
    rw [copySector_andThen hf hfits] at harm
    rw [pump_of_readArms hat hmode (.inl (by omega)) harm hf, pumpEpilogue_eq_pumped, pumped_setStatus,
      pumped_readEntry, State.reg_setStatus, if_pos rfl, setBit_eq_or, reg_cmdStatus_readEntry, State.reg_setStatus,
      if_neg (by decide), reg_bmStatusCtl_readEntry]
    rfl
  · rw [pump_of_readArms hat hmode (.inl (by omega)) (readArms_of_advance hipl hlo hhi) hf, pumpEpilogue_eq_pumped]
    simp [st, bm]
  · rintro rfl
    refine ⟨_, Memory.read_zeroFill_zero _ _, ?_⟩
    rw [pump_of_readArms hat hmode (.inl (by decide)) (readArms_of_ecc hipl) hf, pumpEpilogue_eq_pumped]
    simp [st, bm, c2Xfer, setBit, StatusFlag.bit]
  · rintro rfl hskip
    refine ⟨_, Memory.read_zeroFill_zero _ _, ?_⟩
    rw [pump_of_stepBack hat hmode hskip (readArms_of_ecc hipl) hf, pumpEpilogue_eq_pumped]
    simp [st, bm, c2Xfer, setBit, StatusFlag.bit]
  · rintro rfl hskip hblock
    have harm := readArms_of_block hipl ((bm_readEntry s b .block).trans hblock)
    rw [pump_of_readArms hat hmode (.inr hskip) harm hf, pumpEpilogue_eq_pumped]
    simp [st, bm, block, clearBit, BmFlag.bit]
  · rintro rfl hskip hblock
    have harm := readArms_of_not_block hipl ((bm_readEntry s b .block).trans hblock)
    rw [pump_of_readArms hat hmode (.inr hskip) harm hf, pumpEpilogue_eq_pumped]
    simp [st, bm, running, clearBit, BmFlag.bit]
  · rw [pump_of_readArms hat hmode (.inl (by omega)) (readArms_of_past hipl hk) hf, pumpEpilogue_eq_pumped]
    simp [st, bm]

/-! ## RUNNING and the pump

Clearing a flag of the BM status commutes with every update a pump is made of; that it commutes with a branch needs in
addition that the flag is not the one the branch tests. -/

section

variable (s : State)

theorem State.setReg_comm {r q : Reg} (h : r ≠ q) (v w : Word) :
    (s.setReg r v).setReg q w = (s.setReg q w).setReg r v := by
  rw [State.setReg, State.regs_setReg, Regs.set_comm s.regs h]
  rfl

/-- A write of another register and a BM-status flag cleared, in either order. -/
theorem State.setReg_clearBm {r : Reg} (hr : r ≠ .bmStatusCtl) (v : Word) (g : BmFlag) :
    (s.clearBm g).setReg r v = (s.setReg r v).clearBm g := by
  rw [State.clearBm, State.setReg_comm s hr.symm, State.clearBm, State.reg_setReg, if_neg hr.symm]
  rfl

theorem State.setStatus_clearBm (f : StatusFlag) (g : BmFlag) :
    (s.clearBm g).setStatus f = (s.setStatus f).clearBm g := by
  rw [State.setStatus, State.reg_clearBm, if_neg (by decide)]
  exact State.setReg_clearBm s (by decide) _ g

theorem State.clearStatus_clearBm (f : StatusFlag) (g : BmFlag) :
    (s.clearBm g).clearStatus f = (s.clearStatus f).clearBm g := by
  rw [State.clearStatus, State.reg_clearBm, if_neg (by decide)]
  exact State.setReg_clearBm s (by decide) _ g

/-- Two BM-status flags cleared, in either order. -/
theorem State.clearBm_comm (f g : BmFlag) : (s.clearBm g).clearBm f = (s.clearBm f).clearBm g := by
  have hand (x : Word) (i j : Nat) : clearBit (clearBit x i) j = clearBit (clearBit x j) i := by
    rw [clearBit, clearBit, BitVec.and_assoc, BitVec.and_comm (~~~_), ← BitVec.and_assoc]
    rfl
  simp [State.clearBm, State.setReg_setReg, hand]

theorem State.setBlock_clearBm (b : Fin 2) (g : BmFlag) : (s.clearBm g).setBlock b = (s.setBlock b).clearBm g := rfl

theorem State.zeroC2_clearBm (g : BmFlag) : (s.clearBm g).zeroC2 = s.zeroC2.clearBm g := rfl

theorem State.signalIrq_clearBm (g : BmFlag) : (s.clearBm g).signalIrq = s.signalIrq.clearBm g := rfl

/-- The fault that decides whether the next line runs is the same with a BM-status flag cleared. -/
theorem State.andThen_clearBm {g : BmFlag} {next : State → State}
    (hnext : ∀ t, next (t.clearBm g) = (next t).clearBm g) :
    (s.clearBm g).andThen next = (s.andThen next).clearBm g := by
  unfold State.andThen
  rw [State.fault_clearBm]
  split
  · exact hnext s
  · rfl

theorem persistCommit_clearBm (off : Nat) (payload : List Byte) (g : BmFlag) :
    persistCommit off payload (s.clearBm g) = (persistCommit off payload s).clearBm g := by
  unfold persistCommit
  rw [State.params_clearBm, State.img_clearBm]
  split_ifs <;> rfl

theorem commitSector_clearBm (k : Nat) (g : BmFlag) :
    commitSector k (s.clearBm g) = (commitSector k s).clearBm g :=
  persistCommit_clearBm (s.emit _) _ _ g

theorem copySector_clearBm (k : Nat) (g : BmFlag) : copySector k (s.clearBm g) = (copySector k s).clearBm g := by
  obtain hfits | hover := le_or_gt (s.slotOffset k + s.sectorBytes) s.img.size
  · rw [copySector_of_le hfits, copySector_of_le (s := s.clearBm g) hfits]
    rfl
  · rw [copySector_of_lt hover, copySector_of_lt (s := s.clearBm g) hover]
    rfl

theorem iplSpecial_clearBm (g : BmFlag) : iplSpecial (s.clearBm g) = iplSpecial s := by
  simp [iplSpecial]

end

/-- A branch's answer with RUNNING cleared in its state. -/
def clearRunning (r : Nat × State) : Nat × State := (r.1, r.2.clearBm .running)

section

variable (s : State) (k : Nat)

theorem writeNextBlock_clearBm : writeNextBlock (s.clearBm .running) = (writeNextBlock s).clearBm .running := by
  unfold writeNextBlock
  rw [State.session_clearBm, State.setBlock_clearBm, State.clearBm_comm, State.setStatus_clearBm]

theorem readEcc_clearBm : readEcc k (s.clearBm .running) = clearRunning (readEcc k s) := by
  unfold readEcc
  split
  · rw [State.zeroC2_clearBm, State.setStatus_clearBm]
    rfl
  · rfl

theorem stepBack_clearBm : stepBack k (s.clearBm .running) = clearRunning (stepBack k s) := by
  unfold stepBack
  rw [State.session_clearBm]
  split <;> rfl

theorem pumpPrologue_clearBm : pumpPrologue (s.clearBm .running) = clearRunning (pumpPrologue s) := by
  rw [pumpPrologue_eq, pumpPrologue_eq, State.reg_clearBm, if_neg (show Reg.curSector ≠ .bmStatusCtl by decide)]
  split <;> rfl

theorem params_pumpPrologue : (pumpPrologue s).2.params = s.params := by
  rw [pumpPrologue_eq]
  dsimp only
  split <;> rfl

theorem params_stepBack : (stepBack k s).2.params = s.params := by
  unfold stepBack
  split <;> rfl

theorem pumpEpilogue_clearBm : pumpEpilogue k (s.clearBm .running) = (pumpEpilogue k s).clearBm .running := by
  unfold pumpEpilogue
  rw [State.session_clearBm, State.setReg_clearBm s (by decide), State.setStatus_clearBm, State.signalIrq_clearBm]

end

section

variable {s : State} (hbits : s.params.bmStatusBits.wf) (k : Nat)

include hbits

/-- Clearing RUNNING leaves BLOCK, the one BM-status flag a pump tests. -/
theorem bm_block_clearBm_running : (s.clearBm .running).bm .block = s.bm .block := by
  simp [BmFlag.running_ne_block hbits]

theorem pumpWrite_clearBm : pumpWrite k (s.clearBm .running) = clearRunning (pumpWrite k s) := by
  unfold pumpWrite
  rw [bm_block_clearBm_running hbits, commitSector_clearBm, State.setStatus_clearBm,
    State.andThen_clearBm _ fun t => t.setStatus_clearBm .dataRq .running,
    State.andThen_clearBm _ writeNextBlock_clearBm, State.andThen_clearBm _ fun t => t.clearBm_comm .running .running]
  split_ifs <;> rfl

theorem readGap_clearBm : readGap k (s.clearBm .running) = clearRunning (readGap k s) := by
  unfold readGap
  rw [bm_block_clearBm_running hbits, State.session_clearBm, State.setBlock_clearBm, State.clearBm_comm]
  split <;> rfl

theorem readArms_clearBm : readArms k (s.clearBm .running) = clearRunning (readArms k s) := by
  unfold readArms
  rw [iplSpecial_clearBm, copySector_clearBm, State.andThen_clearBm _ fun t => t.setStatus_clearBm .dataRq .running,
    readEcc_clearBm, readGap_clearBm hbits]
  split_ifs <;> rfl

theorem pumpRead_clearBm : pumpRead k (s.clearBm .running) = clearRunning (pumpRead k s) := by
  unfold pumpRead
  rw [State.clearStatus_clearBm, State.clearStatus_clearBm, stepBack_clearBm]
  exact readArms_clearBm ((params_stepBack _ k).symm ▸ hbits) _

theorem pumpBranch_clearBm : pumpBranch k (s.clearBm .running) = clearRunning (pumpBranch k s) := by
  unfold pumpBranch
  rw [State.session_clearBm, pumpRead_clearBm hbits, pumpWrite_clearBm hbits]
  split <;> rfl

end

/-- Settles O47: every update of a pump commutes with clearing RUNNING, and the one BM-status flag it tests is BLOCK. -/
theorem pumpIgnoresRunning : Obligations.PumpIgnoresRunning := by
  intro s hbits
  rw [← params_pumpPrologue] at hbits
  rw [pump_eq, pump_eq, pumpPrologue_clearBm, clearRunning, pumpBranch_clearBm hbits, clearRunning,
    State.andThen_clearBm _ fun t => pumpEpilogue_clearBm t _]

end Sys2Proof.Machine
end

section
/-! SUPPORT. Proofs of the family of 44_bm_control.md: the seven steps of a BM-control write in closed form, and the bits
of the word that have an effect (R250 to R259). -/

namespace Sys2Proof.Machine

open Spec

/-! ## Steps 1 and 2: RESET -/

/-- What steps 1 to 5 of a BM-control write can reach, written: the sector register, the BM status, CMD_STATUS and the
session (R251 to R255). -/
def controlled (s : State) (sec bm st : Word) (se : Session) : State :=
  { s with
    regs := ((s.regs.set .curSector sec).set .bmStatusCtl bm).set .cmdStatus st
    session := se }

/-- The word is the trailing edge of a recorded RESET (R252). -/
def resetEdge (w : Word) (s : State) : Bool := !w.getLsbD s.params.bmCtlBits.reset && s.session.resetHold

/-- The session that the trailing edge of RESET leaves (R252). -/
def edgeSession (s : State) : Session :=
  if s.params.resetClearsSession then Session.initial else { s.session with resetHold := false, currentBlock := 0 }

/-- The flags of CMD_STATUS that the trailing edge of RESET clears (R252). -/
def edgeMask (s : State) : Word :=
  bitMask [s.params.statusBits.bmInt, s.params.statusBits.bmErr, s.params.statusBits.dataRq, s.params.statusBits.c2Xfer]

/-- The four flags cleared, one after the other, are one write of CMD_STATUS. -/
theorem clearStatus_edgeMask (s : State) :
    (((s.clearStatus .bmInt).clearStatus .bmErr).clearStatus .dataRq).clearStatus .c2Xfer =
      s.setReg .cmdStatus (s.reg .cmdStatus &&& ~~~edgeMask s) := by
  rw [State.clearStatus_clearStatus, State.clearStatus_clearStatus, State.setReg_setReg, State.reg_setReg, if_pos rfl,
    and_not_bitMask_and]
  rfl

theorem bmTrailingEdge_eq_controlled (s : State) :
    bmTrailingEdge s = controlled s 0#32 0#32 (s.reg .cmdStatus &&& ~~~edgeMask s) (edgeSession s) := by
  rw [bmTrailingEdge, clearStatus_edgeMask, resetSession, edgeSession]
  exact (apply_ite (controlled s 0#32 0#32 _) _ _ _).symm

/-- With no RESET recorded, recording that there is none changes nothing. -/
theorem eq_controlled_of_no_hold {s : State} (h : s.session.resetHold = false) : s =
    controlled s (s.reg .curSector) (s.reg .bmStatusCtl) (s.reg .cmdStatus) { s.session with resetHold := false } := by
  rw [← h]
  rfl

/-- Steps 1 and 2: what the trailing edge of a RESET leaves, or else the RESET bit recorded (R251, R252). -/
theorem bmReset_eq_controlled (w : Word) (s : State) : bmReset w s =
    controlled s (if resetEdge w s then 0#32 else s.reg .curSector)
      (if resetEdge w s then 0#32 else s.reg .bmStatusCtl)
      (if resetEdge w s then s.reg .cmdStatus &&& ~~~edgeMask s else s.reg .cmdStatus)
      (if resetEdge w s then edgeSession s
        else { s.session with resetHold := w.getLsbD s.params.bmCtlBits.reset }) := by
  unfold bmReset resetEdge
  rw [show s.ctlBit w .reset = w.getLsbD s.params.bmCtlBits.reset from rfl]
  split
  case isTrue hreset =>
    rw [hreset]
    rfl
  case isFalse hreset =>
    rw [Bool.eq_false_iff.mpr hreset]
    split
    case isTrue hhold =>
      rw [hhold]
      exact bmTrailingEdge_eq_controlled s
    case isFalse hhold =>
      have hno := Bool.eq_false_iff.mpr hhold
      rw [hno]
      exact eq_controlled_of_no_hold hno

/-! ## Steps 3 to 5 -/

/-- The sector field as the sector register holds it (R255). -/
theorem ofNat_sectorField (w : Word) : BitVec.ofNat 32 (sectorField w * 2 ^ 16) = w &&& 0x00FF0000#32 := by
  have hshift : BitVec.ofNat 32 (sectorField w * 2 ^ 16) = ((w >>> 16) &&& 0xFF#32) <<< 16 := by
    rw [sectorField_eq, BitVec.ofNat_mul, BitVec.ofNat_toNat, BitVec.setWidth_eq, BitVec.shiftLeft_eq_mul_twoPow]
    rfl
  rw [hshift, BitVec.shiftLeft_and_distrib, BitVec.shiftLeft_ushiftRight, BitVec.and_assoc]
  rfl

section

variable (w : Word) (s : State) (sec bm st : Word) (se : Session)

theorem bmMechaRst_controlled : bmMechaRst w (controlled s sec bm st se) = controlled s sec bm
    (if w.getLsbD s.params.bmCtlBits.mechaRst then st &&& ~~~bitMask [s.params.statusBits.mechaInt] else st) se := by
  rw [bmMechaRst, State.clearStatus_eq_setReg]
  exact (apply_ite (controlled s sec bm · se) _ _ _).symm

theorem bmBlkTrans_controlled : bmBlkTrans w (controlled s sec bm st se) = controlled s sec
    (if w.getLsbD s.params.bmCtlBits.blkTrans then bm ||| bitMask [s.params.bmStatusBits.block]
      else bm &&& ~~~bitMask [s.params.bmStatusBits.block]) st se := by
  rw [bmBlkTrans, State.setBm, State.clearBm, setBit_eq_or, clearBit_eq_and]
  exact (apply_ite (controlled s sec · st se) _ _ _).symm

theorem bmSector_controlled : bmSector w (controlled s sec bm st se) = controlled s (w &&& 0x00FF0000#32) bm st
    { se with currentBlock := blockOfSector (sectorField w) } := by
  rw [bmSector, ofNat_sectorField]
  rfl

end

/-! ## Step 6 -/

/-- Masked with a list of bits, a word is zero where it has none of them. -/
theorem and_bitMask_eq_zero (w : Word) (l : List (Fin 32)) :
    w &&& bitMask l = 0#32 ↔ ∀ i ∈ l, testBit w i = false := by
  have hbit (i : Fin 32) : w &&& BitVec.twoPow 32 i = 0#32 ↔ testBit w i = false := by
    have hne : BitVec.twoPow 32 i ≠ 0#32 := fun h => by simpa using congrArg (BitVec.getLsbD · i) h
    rw [BitVec.and_twoPow, ite_eq_right_iff, testBit, Bool.eq_false_iff]
    exact ⟨fun h hset => hne (h hset), fun h hset => absurd hset h⟩
  induction l with
  | nil => simp
  | cons i is ih =>
    simp only [bitMask_cons, BitVec.and_or_distrib_left, BitVec.or_eq_zero_iff, hbit, ih, List.forall_mem_cons]

/-- Neither interrupt flag of CMD_STATUS is set (R256). -/
def quiet (s : State) : Bool :=
  s.reg .cmdStatus &&& bitMask [s.params.statusBits.bmInt, s.params.statusBits.mechaInt] == 0#32

theorem quiet_eq_status (s : State) : quiet s = (!s.status .bmInt && !s.status .mechaInt) := by
  rw [Bool.eq_iff_iff, quiet, beq_iff_eq, and_bitMask_eq_zero]
  simp [State.status, StatusFlag.bit]

/-- The defensive line clear reaches the line and the trace only (R256). -/
theorem bmLineClear_eq (s : State) : bmLineClear s =
    { s with
      irq := if quiet s then false else s.irq
      trace := if quiet s then s.trace ++ [.clear] else s.trace } := by
  rw [bmLineClear, ← quiet_eq_status]
  cases quiet s <;> rfl

/-! ## The whole write -/

/-- The session of the closed form is the one that steps 1, 2 and 5 leave (R251, R252, R255). -/
theorem session_bmPrepared (w : Word) (s : State) : (bmPrepared w s).session =
    { (if resetEdge w s then edgeSession s else { s.session with resetHold := w.getLsbD s.params.bmCtlBits.reset }) with
      currentBlock := blockOfSector (sectorField w) } := by
  rw [blockOfSector, sectorField_eq]
  cases hedge : resetEdge w s with
  | false =>
    unfold resetEdge at hedge
    simp only [bmPrepared, hedge]
    rfl
  | true =>
    obtain ⟨hreset, hhold⟩ : w.getLsbD s.params.bmCtlBits.reset = false ∧ s.session.resetHold = true := by
      simpa [resetEdge] using hedge
    simp only [bmPrepared, hreset, hhold, edgeSession]
    cases s.params.resetClearsSession <;> rfl

theorem bmPrepare_eq_bmPrepared (w : Word) (s : State) : bmPrepare w s = bmPrepared w s := by
  rw [bmPrepare, bmReset_eq_controlled, bmMechaRst_controlled, bmBlkTrans_controlled, bmSector_controlled,
    ← session_bmPrepared, bmLineClear_eq]
  rfl

theorem setBm_running_setSkip89 (s : State) : (s.setBm .running).setSkip89 false = started s := by
  rw [State.setBm, setBit_eq_or]
  rfl

/-- The seven steps from any state, a faulted one too (R259). -/
theorem bmControl_eq (w : Word) (s : State) : bmControl w s =
    if w.getLsbD s.params.bmCtlBits.start then pump (started (bmPrepared w s)) else bmPrepared w s := by
  rw [bmControl, bmPrepare_eq_bmPrepared, bmStart, setBm_running_setSkip89]
  rfl

/-- Settles O39: steps 1 to 5 are each one write of the registers and the session, and 6 and 7 follow in closed form. -/
theorem bmControlResult : Obligations.BmControlResult := by
  intro s w hf
  rw [exec, execBmctlWrite, State.writeOp_of_unfaulted hf, bmControl_eq]

/-! ## The bits that have an effect -/

section

variable {w w' m : Word} (h : w &&& m = w' &&& m)

include h

/-- Words that agree under a mask agree under every part of it. -/
theorem and_eq_and_of_part {n : Word} (hn : m &&& n = n) : w &&& n = w' &&& n := by
  rw [← hn, ← BitVec.and_assoc, h, BitVec.and_assoc]

/-- Words that agree under a mask agree in every bit of it. -/
theorem getLsbD_eq_of_and_eq {i : Nat} (hi : m.getLsbD i = true) : w.getLsbD i = w'.getLsbD i := by
  simpa [hi] using congrArg (BitVec.getLsbD · i) h

end

/-- A mask ORed into another is a part of the result. -/
theorem or_and_right_part (m n : Word) : (m ||| n) &&& n = n := by
  ext i hi
  simp +contextual

/-- The bits of a BM-control word that a rule acts on (R258). -/
def actedBits (c : BmCtlBits) : List (Fin 32) := [c.start, c.reset, c.blkTrans, c.mechaRst]

/-- The seven steps read four bits and the sector field of the word, and nothing else (R258). -/
theorem bmControl_congr {s : State} {w w' : Word}
    (hbits : ∀ i ∈ actedBits s.params.bmCtlBits, w.getLsbD i = w'.getLsbD i)
    (hfield : w &&& 0x00FF0000#32 = w' &&& 0x00FF0000#32) : bmControl w s = bmControl w' s := by
  have hshift (v : Word) : (v >>> 16) &&& 0xFF#32 = (v &&& 0x00FF0000#32) >>> 16 :=
    (BitVec.ushiftRight_and_distrib v 0x00FF0000#32 16).symm
  simp only [actedBits, List.forall_mem_cons] at hbits
  obtain ⟨hstart, hreset, hblk, hmecha, -⟩ := hbits
  simp only [bmControl_eq, bmPrepared, hshift, hstart, hreset, hblk, hmecha, hfield]

/-- Of its body a write operation uses only what it makes of the state the operation starts from. -/
theorem State.writeOp_congr {s : State} {f g : State → State} (h : f s = g s) : s.writeOp f = s.writeOp g := by
  simp only [State.writeOp, State.operate, h]

/-- Words that agree under the mask of what is acted on have one outcome, wherever the four bits are (R258). -/
theorem exec_bmctlWrite_congr {s : State} {w w' : Word}
    (h : w &&& (bitMask (actedBits s.params.bmCtlBits) ||| 0x00FF0000#32) =
      w' &&& (bitMask (actedBits s.params.bmCtlBits) ||| 0x00FF0000#32)) :
    exec (.bmctlWrite w) s = exec (.bmctlWrite w') s := by
  refine State.writeOp_congr (bmControl_congr (fun i hi => getLsbD_eq_of_and_eq h ?_)
    (and_eq_and_of_part h (or_and_right_part _ _)))
  have hmask : (bitMask (actedBits s.params.bmCtlBits)).getLsbD i = true :=
    (testBit_bitMask _ i).trans (decide_eq_true hi)
  rw [BitVec.getLsbD_or, hmask, Bool.true_or]

/-- The default mask: bits 31, 28, 25 and 24 and the sector field (R96, R97). -/
theorem actedBits_default : bitMask (actedBits BmCtlBits.default) ||| 0x00FF0000#32 = 0x93FF0000#32 := rfl

/-- Settles O40: the outcome depends only on what is acted on, which under the default bits is the mask 0x93FF0000. -/
theorem ignoredControlBits : Obligations.IgnoredControlBits := by
  intro s w w' c acted
  refine ⟨exec_bmctlWrite_congr, fun hdef h => exec_bmctlWrite_congr ?_⟩
  rw [show s.params.bmCtlBits = BmCtlBits.default from hdef, actedBits_default, h]

end Sys2Proof.Machine
end

section
/-! SUPPORT. Proofs of the family of 70_reset_and_hazards.md: the state that construction gives, and the BM reset protocol
(R300, R301, R304). -/

namespace Sys2Proof.Machine

open Spec

/-! ## Construction -/

/-- The power-on status word as a mask of the bits it sets (R300). -/
theorem initialStatus_eq_bitMask (b : StatusBits) (diskPresent : Bool) : initialStatus b diskPresent =
    if diskPresent then bitMask [b.mtrNSpin, b.headRtrct, b.diskPres] else bitMask [b.mtrNSpin, b.headRtrct] := by
  have hstopped : setBit (setBit 0#32 b.mtrNSpin) b.headRtrct = bitMask [b.mtrNSpin, b.headRtrct] := by
    rw [setBit_eq_or, setBit_eq_or, or_bitMask_or, BitVec.zero_or]
    rfl
  have hpresent : setBit (bitMask [b.mtrNSpin, b.headRtrct]) b.diskPres =
      bitMask [b.mtrNSpin, b.headRtrct, b.diskPres] := by
    rw [setBit_eq_or, ← bitMask_append]
    rfl
  simp only [initialStatus, StatusFlag.bit, hstopped, hpresent]

theorem reg_cmdStatus_construct (c : Construction) : (State.construct c).reg .cmdStatus =
    if 0 < c.img.size then
      bitMask [c.params.statusBits.mtrNSpin, c.params.statusBits.headRtrct, c.params.statusBits.diskPres]
    else bitMask [c.params.statusBits.mtrNSpin, c.params.statusBits.headRtrct] := by
  refine (initialStatus_eq_bitMask _ _).trans ?_
  simp only [decide_eq_true_eq]

/-- Every register but the two that construction computes holds its unspecified contents (R300, D27). -/
theorem reg_construct_of_ne (c : Construction) {r : Reg} (hstatus : r ≠ .cmdStatus) (hid : r ≠ .idReg) :
    (State.construct c).reg r = c.initRegs.get r := by
  cases r
  case cmdStatus => exact absurd rfl hstatus
  case idReg => exact absurd rfl hid
  all_goals rfl

/-- Settles O51: the status word is a mask of two or three bits, and every other field is the one construction writes. -/
theorem constructionResult : Obligations.ConstructionResult := by
  intro c b
  refine ⟨reg_cmdStatus_construct c, fun hdef => ?_, rfl, rfl, fun _ hstatus hid => reg_construct_of_ne c hstatus hid, rfl,
    rfl, rfl, rfl, rfl, rfl, rfl, rfl, rfl⟩
  rw [reg_cmdStatus_construct, hdef]
  rfl

/-! ## What steps 1 to 6 of a BM-control write leave -/

theorem reg_bmPrepared_of_notMem (w : Word) (s : State) {r : Reg} (h : r ∉ [Reg.bmStatusCtl, .curSector, .cmdStatus]) :
    (bmPrepared w s).reg r = s.reg r := by
  simp only [List.mem_cons, List.not_mem_nil, or_false, not_or] at h
  obtain ⟨hbm, hsec, hstatus⟩ := h
  simp only [bmPrepared, State.reg_mk, Regs.get_set, if_neg hbm, if_neg hsec, if_neg hstatus]
  rfl

theorem reg_curSector_bmPrepared (w : Word) (s : State) : (bmPrepared w s).reg .curSector = w &&& 0x00FF0000#32 := rfl

/-- The line and the trace follow from the flags that steps 1 to 5 leave (R256). -/
theorem irq_bmPrepared (w : Word) (s : State) :
    (bmPrepared w s).irq = if quiet (bmPrepared w s) then false else s.irq := rfl

theorem trace_bmPrepared (w : Word) (s : State) :
    (bmPrepared w s).trace = if quiet (bmPrepared w s) then s.trace ++ [.clear] else s.trace := rfl

/-! ## The write that records a RESET -/

section

variable {w : Word} {s : State} (hreset : w.getLsbD s.params.bmCtlBits.reset = true)

include hreset

theorem resetEdge_of_reset : resetEdge w s = false := by
  rw [resetEdge, hreset]
  rfl

/-- Recording a RESET touches no flag (R251). -/
theorem reg_cmdStatus_bmPrepared_of_reset (hmecha : w.getLsbD s.params.bmCtlBits.mechaRst = false) :
    (bmPrepared w s).reg .cmdStatus = s.reg .cmdStatus := by
  simp only [bmPrepared, hreset, hmecha]
  rfl

theorem session_bmPrepared_of_reset : (bmPrepared w s).session =
    { s.session with resetHold := true, currentBlock := blockOfSector (sectorField w) } := by
  rw [session_bmPrepared, resetEdge_of_reset hreset, hreset]
  rfl

end

/-! ## The zero word that follows it -/

section

variable {s : State} (hhold : s.session.resetHold = true)

include hhold

/-- A zero word is the trailing edge of a recorded RESET (R252). -/
theorem resetEdge_zero : resetEdge 0#32 s = true := by
  simp [resetEdge, hhold]

theorem reg_bmStatusCtl_bmPrepared_zero : (bmPrepared 0#32 s).reg .bmStatusCtl = 0#32 := by
  simp [bmPrepared, hhold]

theorem reg_cmdStatus_bmPrepared_zero :
    (bmPrepared 0#32 s).reg .cmdStatus = s.reg .cmdStatus &&& ~~~edgeMask s := by
  simp [bmPrepared, hhold, edgeMask]

/-- By default the trailing edge resets the block and the hold only (R252, D26). -/
theorem session_bmPrepared_zero (hclears : s.params.resetClearsSession = false) : (bmPrepared 0#32 s).session =
    { s.session with currentBlock := 0, resetHold := false } := by
  rw [session_bmPrepared, resetEdge_zero hhold, if_pos rfl, edgeSession, hclears]
  rfl

end

/-- Outside a mask that is cleared a word keeps its bits. -/
theorem testBit_and_not_bitMask (w : Word) (l : List (Fin 32)) (i : Fin 32) :
    testBit (w &&& ~~~bitMask l) i = (testBit w i && !decide (i ∈ l)) := by
  have hmask : (bitMask l).getLsbD i = decide (i ∈ l) := testBit_bitMask l i
  rw [testBit, BitVec.getLsbD_and, BitVec.getLsbD_not, hmask, decide_eq_true i.isLt, Bool.true_and]
  rfl

/-- MECHA_INT is none of the flags that the trailing edge clears (R304). -/
theorem mechaInt_notMem_edge {b : StatusBits} (h : b.wf) : b.mechaInt ∉ [b.bmInt, b.bmErr, b.dataRq, b.c2Xfer] := by
  intro hmem
  obtain ⟨f, hf, hbit⟩ :=
    List.mem_map.mp (show StatusFlag.mechaInt.bit b ∈ [StatusFlag.bmInt, .bmErr, .dataRq, .c2Xfer].map (·.bit b) from hmem)
  have hused : [StatusFlag.bmInt, .bmErr, .dataRq, .c2Xfer] ⊆ StatusFlag.used := by decide
  obtain rfl := (StatusFlag.bit_inj h (hused hf) (by decide)).mp hbit
  exact absurd hf (by decide)

/-- After the trailing edge, step 6 fires exactly when MECHA_INT is clear (R256, R304). -/
theorem quiet_bmPrepared_zero {s : State} (hhold : s.session.resetHold = true) (hbits : s.params.statusBits.wf) :
    quiet (bmPrepared 0#32 s) = !(s.reg .cmdStatus).getLsbD s.params.statusBits.mechaInt := by
  have hstatus (f : StatusFlag) : (bmPrepared 0#32 s).status f = (s.status f && !decide (f.bit s.params.statusBits ∈
      [s.params.statusBits.bmInt, s.params.statusBits.bmErr, s.params.statusBits.dataRq,
        s.params.statusBits.c2Xfer])) := by
    rw [State.status, reg_cmdStatus_bmPrepared_zero hhold]
    exact testBit_and_not_bitMask ..
  have hint : (bmPrepared 0#32 s).status .bmInt = false := by
    simp [hstatus, StatusFlag.bit]
  have hmecha : (bmPrepared 0#32 s).status .mechaInt = s.status .mechaInt := by
    rw [hstatus, StatusFlag.bit, decide_eq_false (mechaInt_notMem_edge hbits), Bool.not_false, Bool.and_true]
  rw [quiet_eq_status, hint, hmecha]
  rfl

/-! ## The protocol -/

/-- Without START a BM-control write is its steps 1 to 6 (R259). -/
theorem exec_bmctlWrite_of_not_start {w : Word} {s : State} (hf : s.fault = none)
    (hstart : w.getLsbD s.params.bmCtlBits.start = false) :
    exec (.bmctlWrite w) s = .next (answered (bmPrepared w s) none) := by
  rw [bmControlResult s w hf, hstart]
  rfl

/-- Settles O41: the first write records the RESET and moves the sector; the zero word is its trailing edge. -/
theorem bmResetProtocol : Obligations.BmResetProtocol := by
  intro s w hf hbits hclears hreset hstart hmecha b
  have hhold : (answered (bmPrepared w s) none).session.resetHold = true := hreset
  have hstatus : (answered (bmPrepared w s) none).reg .cmdStatus = s.reg .cmdStatus :=
    reg_cmdStatus_bmPrepared_of_reset hreset hmecha
  have hquiet : quiet (bmPrepared 0#32 (answered (bmPrepared w s) none)) =
      !(s.reg .cmdStatus).getLsbD b.mechaInt := hstatus ▸ quiet_bmPrepared_zero hhold hbits
  refine ⟨_, _, exec_bmctlWrite_of_not_start hf hstart, exec_bmctlWrite_of_not_start hf BitVec.getLsbD_zero,
    reg_bmStatusCtl_bmPrepared_zero hhold, reg_curSector_bmPrepared _ _, ?_, ?_, fun r hr => ?_,
    rfl, rfl, rfl, rfl, rfl, hf, fun hset => ?_, fun hclear => ?_⟩
  · exact hstatus ▸ reg_cmdStatus_bmPrepared_zero hhold
  · refine (session_bmPrepared_zero hhold hclears).trans ?_
    rw [show (answered (bmPrepared w s) none).session = _ from session_bmPrepared_of_reset hreset]
  · exact (reg_bmPrepared_of_notMem _ _ hr).trans (reg_bmPrepared_of_notMem w s hr)
  · have hsilent := ne_true_of_eq_false (hquiet.trans (congrArg not hset))
    exact ⟨(irq_bmPrepared _ _).trans (if_neg hsilent), (trace_bmPrepared _ _).trans (if_neg hsilent)⟩
  · have hfires := hquiet.trans (congrArg not hclear)
    exact ⟨(irq_bmPrepared _ _).trans (if_pos hfires), (trace_bmPrepared _ _).trans (if_pos hfires)⟩

end Sys2Proof.Machine
end

section
/-! SUPPORT. Proofs of the encoding's own statements: the default parameters, what an address of a register or of a window
decodes to, and that the decoder and the encoder are inverse to each other (30_encoding.md R90 to R108, 20_memory.md R61,
R64). -/

namespace Sys2Proof

open Machine

/-! ## The defaults -/

/-- Settles O1: each table is the definition's own, and the defaults are well formed whatever the two ID words are. -/
theorem defaultParametersAreTheSpecs : Obligations.DefaultParametersAreTheSpecs :=
  ⟨rfl, rfl, rfl, rfl, rfl, rfl, rfl, rfl, rfl, Params.default_wf⟩

/-- Settles O2: decoding reads the bus map and the opcodes only, so each access is evaluated under the defaults. -/
theorem tableWordsDecode : Obligations.TableWordsDecode := by
  intro p hb ho
  simp only [decode_congr (q := Params.default) hb ho]
  exact ⟨rfl, rfl, rfl, rfl, rfl, rfl, rfl, rfl, rfl, rfl⟩

/-! ## Registers -/

section

variable {p : Params} (hb : p.bus.wf) {r : Reg} (hr : r ∈ p.bus.regMap)

include hb hr

/-- A read of a register's address is the read arm of the register (R91, R122). -/
theorem decode_read_regAddr : decode p (.read (p.bus.regAddr r)) = .ok (decodeRegRead r) := by
  obtain ⟨hl, ha⟩ := locate_regAddr hb hr
  simp only [decode, hl, ha]

/-- A write of a register's address is the write arm of the register (R91, R125). -/
theorem decode_write_regAddr (word mask : Word) :
    decode p (.write (p.bus.regAddr r) word mask) = .ok (decodeRegWrite p r word mask) := by
  obtain ⟨hl, ha⟩ := locate_regAddr hb hr
  simp only [decode, hl, ha]

end

/-- Settles O7: the address is that of the register at the index, and the register decides the arm. -/
theorem configuredRegisterMapDecodes : Obligations.ConfiguredRegisterMapDecodes := by
  intro p k r word mask hb hk
  have hr := List.mem_of_getElem? hk
  rw [regAddr_of_getElem? hb hk, decode_read_regAddr hb hr, decode_write_regAddr hb hr]
  simp [decodeRegRead, decodeRegWrite, commandOp]

/-- Which indices of the default map are read-only, and where the three registers with write behaviour of their own stand
(R90, R92). -/
theorem default_regMap_arms : ∀ e ∈ BusMap.default.regMap.zipIdx,
    (e.1 ∈ BusMap.default.readOnlyRegs ↔ e.2 ∈ [3, 5, 7, 9, 11, 13, 14, 15, 16]) ∧
    (e.1 = .cmdStatus ↔ e.2 = 2) ∧ (e.1 = .bmStatusCtl ↔ e.2 = 4) ∧ (e.1 = .hardReset ↔ e.2 = 8) := by
  decide

/-- Settles O6: the default map is a configured map whose arms the index alone decides. -/
theorem registerAddressSelectsRegister : Obligations.RegisterAddressSelectsRegister := by
  intro p k r word mask hdef hk
  have hb : p.bus.wf := hdef ▸ Params.default_wf.1
  obtain ⟨hro, hstatus, hctl, hhard⟩ := default_regMap_arms (r, k) (List.mk_mem_zipIdx_iff_getElem?.mpr hk)
  have h := configuredRegisterMapDecodes p k r word mask hb (by rw [hdef]; exact hk)
  simp only [hdef, hro, hstatus, hctl, hhard] at h
  exact h

/-! ## Windows -/

/-- Settles O8: the address is located in its window at the offset, whatever the access. -/
theorem windowAddressesDecode : Obligations.WindowAddressesDecode := by
  intro p o word mask hb hal
  refine ⟨fun hin => ?_, fun hin => ?_, fun hin => ?_, fun hin => ?_⟩
  · simp only [decode, locate_window hb (c2_mem_windows p.bus) ⟨hal, hin⟩, and_self]
  · simp only [decode, locate_window hb (ds_mem_windows p.bus) ⟨hal, hin⟩, and_self]
  · simp only [decode, locate_window hb (ms_mem_windows p.bus) ⟨hal, hin⟩, and_self]
  · simp only [decode, locate_window hb (ipl_mem_windows p.bus) ⟨hal, hin⟩, and_self]

/-! ## Decoding what was encoded -/

section

variable {p : Params} (hb : p.bus.wf)

include hb

/-- The access of an opcode decodes to the command of the opcode (R108). -/
theorem decode_commandAccess (op : Half) : decode p (commandAccess p.bus op) = .ok (decodeCommand p.opcodes op) := by
  rw [commandAccess, decode_commandWrite hb, commandOp_append]

/-- The access of a row's number decodes to the row's command (R101, R108). -/
theorem decode_commandAccess_of_row (ho : p.opcodes.wf) {op : Half} {i : Instr} (hrow : (op, i) ∈ commandTable p.opcodes) :
    decode p (commandAccess p.bus op) = .ok i := by
  rw [decode_commandAccess hb, decodeCommand_of_mem ho hrow]

end

theorem decodeRegRead_of_ne {r : Reg} (h : r ≠ .cmdStatus) : decodeRegRead r = .regRead r := if_neg h

/-- A register with generic writes has the generic write arm (R130). -/
theorem decodeRegWrite_of_generic {p : Params} {r : Reg} (h : p.bus.isGeneric r = true) (word mask : Word) :
    decodeRegWrite p r word mask = .regWrite r word mask := by
  simp only [BusMap.isGeneric, Bool.and_eq_true, Bool.not_eq_true', bne_iff_ne] at h
  obtain ⟨⟨⟨⟨-, hro⟩, hstatus⟩, hctl⟩, hhard⟩ := h
  simp only [decodeRegWrite, hro, hstatus, hctl, hhard, if_false, Bool.false_eq_true]

/-- A read-only register has the ignored write arm (R126). -/
theorem decodeRegWrite_of_readOnly {p : Params} {r : Reg} (h : p.bus.isReadOnly r = true) (word mask : Word) :
    decodeRegWrite p r word mask = .regWriteRo r word mask := by
  obtain ⟨-, hro⟩ := Bool.and_eq_true_iff.mp h
  rw [decodeRegWrite, if_pos hro]

/-- A write to CMD_STATUS is the command of its opcode (R94). -/
theorem decodeRegWrite_cmdStatus {p : Params} (hb : p.bus.wf) (word mask : Word) :
    decodeRegWrite p .cmdStatus word mask = decodeCommand p.opcodes (commandOp word) := by
  have hro : .cmdStatus ∉ p.bus.readOnlyRegs := hb.2.2.2.2.2.2.1
  simp [decodeRegWrite, hro]

/-- BM_STATUS_CTL has a write arm of its own (R128). -/
theorem decodeRegWrite_bmStatusCtl {p : Params} (hb : p.bus.wf) (word mask : Word) :
    decodeRegWrite p .bmStatusCtl word mask = .bmctlWrite word := by
  have hro : .bmStatusCtl ∉ p.bus.readOnlyRegs := hb.2.2.2.2.2.2.2.1
  simp [decodeRegWrite, hro]

/-- HARD_RESET has a write arm of its own (R129). -/
theorem decodeRegWrite_hardReset {p : Params} (hb : p.bus.wf) (word mask : Word) :
    decodeRegWrite p .hardReset word mask = .hardResetWrite word := by
  have hro : .hardReset ∉ p.bus.readOnlyRegs := hb.2.2.2.2.2.2.2.2
  simp [decodeRegWrite, hro]

theorem mem_regMap_of_isGeneric {b : BusMap} {r : Reg} (h : b.isGeneric r = true) : r ∈ b.regMap := by
  simp only [BusMap.isGeneric, Bool.and_eq_true, List.contains_iff_mem] at h
  obtain ⟨⟨⟨⟨hr, -⟩, -⟩, -⟩, -⟩ := h
  exact hr

theorem mem_regMap_of_isReadOnly {b : BusMap} {r : Reg} (h : b.isReadOnly r = true) : r ∈ b.regMap :=
  List.contains_iff_mem.mp (Bool.and_eq_true_iff.mp h).1

/-- Settles O3: a command's number is its row's, a register's address selects the register and its arm, and a window's
address is located there. -/
theorem decodeOfEncode : Obligations.DecodeOfEncode := by
  intro p i hb ho hw
  have windows {off : Nat} (word mask : Word) (hal : off % 4 = 0) := windowAddressesDecode p off word mask hb hal
  cases i
  case cmdUnrecognized op =>
    have hop : op ∉ p.opcodes.numbers := by simpa [Instr.wellFormed] using hw
    rw [encode, decode_commandAccess hb, decodeCommand_of_not_mem hop]
  case regRead r =>
    obtain ⟨hr, hne⟩ : r ∈ p.bus.regMap ∧ r ≠ .cmdStatus := by simpa [Instr.wellFormed] using hw
    rw [encode, decode_read_regAddr hb hr, decodeRegRead_of_ne hne]
  case statusRead => exact decode_read_regAddr hb (sourceRegs_mem hb (by decide))
  case regWrite r word mask =>
    rw [encode, decode_write_regAddr hb (mem_regMap_of_isGeneric hw), decodeRegWrite_of_generic hw]
  case regWriteRo r word mask =>
    rw [encode, decode_write_regAddr hb (mem_regMap_of_isReadOnly hw), decodeRegWrite_of_readOnly hw]
  case bmctlWrite word =>
    rw [encode, decode_write_regAddr hb (sourceRegs_mem hb (by decide)), decodeRegWrite_bmStatusCtl hb]
  case hardResetWrite word =>
    rw [encode, decode_write_regAddr hb (sourceRegs_mem hb (by decide)), decodeRegWrite_hardReset hb]
  case c2Read off =>
    obtain ⟨hal, hin⟩ := offsetOk_iff.mp hw
    exact ((windows 0 0 hal).1 hin).1
  case c2Write off word mask =>
    obtain ⟨hal, hin⟩ := offsetOk_iff.mp hw
    exact ((windows word mask hal).1 hin).2
  case dsRead off =>
    obtain ⟨hal, hin⟩ := offsetOk_iff.mp hw
    exact ((windows 0 0 hal).2.1 hin).1
  case dsWrite off word mask =>
    obtain ⟨hal, hin⟩ := offsetOk_iff.mp hw
    exact ((windows word mask hal).2.1 hin).2
  case msRead off =>
    obtain ⟨hal, hin⟩ := offsetOk_iff.mp hw
    exact ((windows 0 0 hal).2.2.1 hin).1
  case msWrite off word mask =>
    obtain ⟨hal, hin⟩ := offsetOk_iff.mp hw
    exact ((windows word mask hal).2.2.1 hin).2
  case iplRead off =>
    obtain ⟨hal, hin⟩ := offsetOk_iff.mp hw
    exact ((windows 0 0 hal).2.2.2 hin).1
  case iplWrite off word mask =>
    obtain ⟨hal, hin⟩ := offsetOk_iff.mp hw
    exact ((windows word mask hal).2.2.2 hin).2
  all_goals exact decode_commandAccess_of_row hb ho (by simp [commandTable])

/-! ## Encoding what was decoded -/

/-- A window has one base and one size. -/
theorem window_unique {b : BusMap} {win : Window} {base size base' size' : Nat} (h : (win, base, size) ∈ b.windows)
    (h' : (win, base', size') ∈ b.windows) : base = base' ∧ size = size' := by
  have hkeys : (b.windows.map Prod.fst).Nodup := by simp [BusMap.windows]
  simpa using List.inj_on_of_nodup_map hkeys h h' rfl

/-- A located address is the one the encoder gives the offset, which is a whole aligned word of the window. -/
theorem addr_of_locate {b : BusMap} {addr : Word} {win : Window} {base size off : Nat}
    (hl : locate b addr = .ok (win, off)) (hm : (win, base, size) ∈ b.windows) :
    offsetOk size off = true ∧ BitVec.ofNat 32 (base + off) = addr := by
  obtain ⟨base', size', hm', rfl, hlo, hal, hin⟩ := locate_eq_ok hl
  obtain ⟨rfl, rfl⟩ := window_unique hm hm'
  refine ⟨offsetOk_iff.mpr ⟨hal, hin⟩, ?_⟩
  rw [Nat.add_sub_cancel' hlo, BitVec.ofNat_toNat, BitVec.setWidth_eq]

section

variable {p : Params} (hb : p.bus.wf)

include hb

/-- Registers of the map at one address are one register (R90, R91). -/
theorem regAddr_inj {r q : Reg} (hr : r ∈ p.bus.regMap) (hq : q ∈ p.bus.regMap) :
    p.bus.regAddr r = p.bus.regAddr q ↔ r = q := by
  refine ⟨fun h => ?_, congrArg _⟩
  obtain ⟨hlr, har⟩ := locate_regAddr hb hr
  obtain ⟨hlq, haq⟩ := locate_regAddr hb hq
  have hoff : 4 * p.bus.regIndex r = 4 * p.bus.regIndex q := by simpa [h, hlq] using hlr.symm
  simpa [hoff, haq] using har.symm

/-- The canonical form of a register's write: the register decides which bits no rule reads (R94, R97, D20). -/
theorem canonical_write_regAddr {r : Reg} (hr : r ∈ p.bus.regMap) (word mask : Word) :
    (Access.write (p.bus.regAddr r) word mask).canonical p.bus =
      if r = .cmdStatus then commandAccess p.bus (commandOp word)
      else if r = .bmStatusCtl ∨ r = .hardReset then .write (p.bus.regAddr r) word Word.fullMask
      else .write (p.bus.regAddr r) word mask := by
  have source {q : Reg} (hq : q ∈ BusMap.sourceRegs) := regAddr_inj hb hr (sourceRegs_mem hb hq)
  simp only [Access.canonical, source (q := .cmdStatus) (by decide), source (q := .bmStatusCtl) (by decide),
    source (q := .hardReset) (by decide)]

/-- A write outside the register window is canonical: every bit of it is read. -/
theorem canonical_write_of_window {addr : Word} {win : Window} {off : Nat} (hl : locate p.bus addr = .ok (win, off))
    (hwin : win ≠ .reg) (word mask : Word) : (Access.write addr word mask).canonical p.bus = .write addr word mask := by
  have away {q : Reg} (hq : q ∈ BusMap.sourceRegs) : addr ≠ p.bus.regAddr q := by
    rintro rfl
    have := (locate_regAddr hb (sourceRegs_mem hb hq)).1
    rw [hl] at this
    cases this
    exact hwin rfl
  simp only [Access.canonical, away (q := .cmdStatus) (by decide), away (q := .bmStatusCtl) (by decide),
    away (q := .hardReset) (by decide), if_false, or_self]

end

/-- The command of an opcode encodes to the access of the opcode (R108). -/
theorem encode_decodeCommand (p : Params) (op : Half) :
    encode p (decodeCommand p.opcodes op) = commandAccess p.bus op := by
  obtain ⟨-, hrow⟩ | ⟨-, heq⟩ := decodeCommand_cases p.opcodes op
  · have hrows : ∀ e ∈ commandTable p.opcodes, encode p e.2 = commandAccess p.bus e.1 := by simp [commandTable, encode]
    exact hrows _ hrow
  · rw [heq, encode]

/-- The read arm of a register of the map is well formed and encodes to a read of its address. -/
theorem encode_decodeRegRead {p : Params} {r : Reg} (hr : r ∈ p.bus.regMap) :
    (decodeRegRead r).wellFormed p = true ∧ encode p (decodeRegRead r) = .read (p.bus.regAddr r) := by
  unfold decodeRegRead
  split
  case isTrue h => exact ⟨rfl, by rw [encode, h]⟩
  case isFalse h => exact ⟨by simp [Instr.wellFormed, hr, h], rfl⟩

/-- The write arm of a register of the map is well formed and encodes to the canonical write of its address. -/
theorem encode_decodeRegWrite {p : Params} (hb : p.bus.wf) {r : Reg} (hr : r ∈ p.bus.regMap) (word mask : Word) :
    (decodeRegWrite p r word mask).wellFormed p = true ∧
      encode p (decodeRegWrite p r word mask) = (Access.write (p.bus.regAddr r) word mask).canonical p.bus := by
  rw [canonical_write_regAddr hb hr]
  obtain rfl | hstatus := eq_or_ne r .cmdStatus
  · rw [decodeRegWrite_cmdStatus hb, encode_decodeCommand]
    exact ⟨(decodeCommand_isCommand p _).2, rfl⟩
  obtain rfl | hctl := eq_or_ne r .bmStatusCtl
  · rw [decodeRegWrite_bmStatusCtl hb]
    exact ⟨rfl, rfl⟩
  obtain rfl | hhard := eq_or_ne r .hardReset
  · rw [decodeRegWrite_hardReset hb]
    exact ⟨rfl, rfl⟩
  rw [if_neg hstatus, if_neg (not_or.mpr ⟨hctl, hhard⟩)]
  by_cases hro : r ∈ p.bus.readOnlyRegs
  · have h : p.bus.isReadOnly r = true := by simp [BusMap.isReadOnly, hr, hro]
    rw [decodeRegWrite_of_readOnly h]
    exact ⟨h, rfl⟩
  · have h : p.bus.isGeneric r = true := by simp [BusMap.isGeneric, hr, hro, hstatus, hctl, hhard]
    rw [decodeRegWrite_of_generic h]
    exact ⟨h, rfl⟩

/-- A decoded read is well formed and encodes to itself. -/
theorem encode_of_decode_read {p : Params} (hb : p.bus.wf) {addr : Word} {i : Instr}
    (h : decode p (.read addr) = .ok i) : i.wellFormed p = true ∧ encode p i = .read addr := by
  cases hl : locate p.bus addr with
  | error why => simp [decode, hl] at h
  | ok e =>
    obtain ⟨win, off⟩ := e
    have window {base size : Nat} (hm : (win, base, size) ∈ p.bus.windows) := addr_of_locate hl hm
    cases win <;> simp only [decode, hl] at h
    case reg =>
      cases ha : regAt p.bus off with
      | error why => simp [ha] at h
      | ok r =>
        obtain ⟨hr, rfl⟩ := addr_of_regAt hb hl ha
        simp only [ha] at h
        cases h
        exact encode_decodeRegRead hr
    case c2 =>
      cases h
      exact (window (c2_mem_windows _)).imp_right (congrArg Access.read)
    case ds =>
      cases h
      exact (window (ds_mem_windows _)).imp_right (congrArg Access.read)
    case ms =>
      cases h
      exact (window (ms_mem_windows _)).imp_right (congrArg Access.read)
    case ipl =>
      cases h
      exact (window (ipl_mem_windows _)).imp_right (congrArg Access.read)

/-- A decoded write is well formed and encodes to its canonical form. -/
theorem encode_of_decode_write {p : Params} (hb : p.bus.wf) {addr word mask : Word} {i : Instr}
    (h : decode p (.write addr word mask) = .ok i) :
    i.wellFormed p = true ∧ encode p i = (Access.write addr word mask).canonical p.bus := by
  cases hl : locate p.bus addr with
  | error why => simp [decode, hl] at h
  | ok e =>
    obtain ⟨win, off⟩ := e
    have window {base size : Nat} (hm : (win, base, size) ∈ p.bus.windows) := addr_of_locate hl hm
    cases win <;> simp only [decode, hl] at h
    case reg =>
      cases ha : regAt p.bus off with
      | error why => simp [ha] at h
      | ok r =>
        obtain ⟨hr, rfl⟩ := addr_of_regAt hb hl ha
        simp only [ha] at h
        cases h
        exact encode_decodeRegWrite hb hr word mask
    all_goals rw [canonical_write_of_window hb hl (by decide)]
    case c2 =>
      cases h
      exact (window (c2_mem_windows _)).imp_right (congrArg (Access.write · word mask))
    case ds =>
      cases h
      exact (window (ds_mem_windows _)).imp_right (congrArg (Access.write · word mask))
    case ms =>
      cases h
      exact (window (ms_mem_windows _)).imp_right (congrArg (Access.write · word mask))
    case ipl =>
      cases h
      exact (window (ipl_mem_windows _)).imp_right (congrArg (Access.write · word mask))

/-- Settles O4: a decoded address is that of its register or of its window's offset, and the canonical form keeps the bits
the register's arm reads. -/
theorem encodeOfDecode : Obligations.EncodeOfDecode := by
  intro p a i hb _ h
  cases a with
  | read addr => exact encode_of_decode_read hb h
  | write addr word mask => exact encode_of_decode_write hb h

end Sys2Proof
end

section
/-! SUPPORT. Proofs of the statements about one step and about the completion of an operation: the step of a pending access,
the idle step, the numbers of the opcode table, and that every well-formed operation completes (R14, R70, R320, R321). -/

namespace Sys2Proof.Machine

/-! ## The step -/

/-- Settles O9: taking the access off the queue leaves the state with the rest of the queue. -/
theorem stepRunsDecodedAccess : Obligations.StepRunsDecodedAccess :=
  fun _ _ _ _ hf hp hd => step_of_decode_ok hf hp hd

/-- Settles O10: with an empty queue there is no access to take. -/
theorem idleStepChangesNothing : Obligations.IdleStepChangesNothing := by
  intro s hf hp
  simp [step, hf, State.takeAccess, hp]

/-- A number that decodes is the number of an access that decodes. -/
theorem decode_of_decodeNumber {p : Params} {nbits w : Nat} {i : Instr} (h : decodeNumber p nbits w = some i) :
    decode p (tableAccess p.bus nbits w) = .ok i := by
  unfold decodeNumber at h
  split at h
  case h_1 hd => rw [hd, Option.some.inj h]
  case h_2 => cases h

/-- Settles O12: the placed access is the next one, and taking it leaves the state it was placed in. -/
theorem fetchWordRunsItsOperation : Obligations.FetchWordRunsItsOperation := by
  intro s nbits w i hf h
  have hnumber : decodeNumber s.params nbits w = some i := by
    obtain h | ⟨hdef, h⟩ := h
    · exact h
    · rw [hdef]
      exact h
  exact step_of_decode_ok (s := s.withFetchWord nbits w) hf rfl (decode_of_decodeNumber hnumber)

/-! ## Completion -/

/-- Settles O14: an unfaulted state, a well-formed operand and, for an IPL read, a word inside the image are all that an
operation asks for. -/
theorem everyOperationCompletes : Obligations.EveryOperationCompletes := by
  intro s i hf hw hrom
  cases i <;> simp only [exec]
  case cmdUnrecognized op => exact ⟨_, (State.ifWellFormed_of_ok hf hw _).trans (State.command_of_unfaulted hf _)⟩
  case regRead r => exact ⟨_, (State.ifWellFormed_of_ok hf hw _).trans (State.readOp_of_unfaulted hf _)⟩
  case statusRead => exact ⟨_, execStatusRead_of_unfaulted hf⟩
  case regWrite r word mask | regWriteRo r word mask =>
    exact ⟨_, (State.ifWellFormed_of_ok hf hw _).trans (State.writeOp_of_unfaulted hf _)⟩
  case bmctlWrite word | hardResetWrite word => exact ⟨_, State.writeOp_of_unfaulted hf _⟩
  case c2Read off | dsRead off | msRead off =>
    obtain ⟨hal, hin⟩ := offsetOk_iff.mp hw
    exact ⟨_, State.atOffset_readOp hf hal hin _⟩
  case c2Write off word mask | dsWrite off word mask | msWrite off word mask | iplWrite off word mask =>
    obtain ⟨hal, hin⟩ := offsetOk_iff.mp hw
    exact ⟨_, State.atOffset_writeOp hf hal hin _⟩
  case iplRead off =>
    obtain ⟨hal, hin⟩ := offsetOk_iff.mp hw
    cases hr : s.ipl with
    | none => exact ⟨_, execIplRead_of_none hf hr hal hin⟩
    | some rom => exact ⟨_, execIplRead_of_inside hf hr hal hin (hrom off rom rfl hr)⟩
  all_goals exact ⟨_, State.command_of_unfaulted hf _⟩

end Sys2Proof.Machine
end

section
/-! SUPPORT. Proofs of the statements about the state's own representation and about plain writes: memories and register files
in canonical form, and the idempotent writes (20_memory.md R66). -/

namespace Sys2Proof.Machine

/-! ## Canonical forms -/

/-- Settles O37: the laws of a memory. -/
theorem memoryIsCanonical : Obligations.MemoryIsCanonical :=
  ⟨fun _ a b v h => ⟨Memory.wf_write h a v, Memory.read_write h a b v⟩, fun _ _ => Memory.ext_of_wf⟩

/-- Settles O38: the laws of the register file. -/
theorem registerFileIsCanonical : Obligations.RegisterFileIsCanonical :=
  ⟨fun rs r q v => ⟨Regs.get_set rs r q v, fun h => Regs.wf_set h r v⟩, fun _ _ => Regs.ext_get⟩

/-! ## Writing twice -/

/-- The masked-write rule applied to its own result changes nothing (R130). -/
theorem Word.masked_masked (old word mask : Word) :
    (old.masked word mask).masked word mask = old.masked word mask := by
  unfold Word.masked
  ext i hi
  simp only [BitVec.getElem_or, BitVec.getElem_and, BitVec.getElem_not]
  cases word[i] <;> cases mask[i] <;> simp

/-- Of two puts of one word at one offset the second changes nothing. -/
theorem Memory.putWord_putWord {m : Memory} (h : m.wf) (o : Nat) (w : Word) :
    (m.putWord o w).putWord o w = m.putWord o w := by
  have hw : (m.putWord o w).wf := Memory.wf_store h o _
  refine Memory.ext_of_wf (Memory.wf_store hw o _) hw fun a => ?_
  rw [Memory.read_putWord hw, ite_eq_right_iff, Memory.read_putWord h]
  exact fun ha => (if_pos ha).symm

theorem Memory.putMasked_putMasked {m : Memory} (h : m.wf) (o : Nat) (word mask : Word) :
    (m.putMasked o word mask).putMasked o word mask = m.putMasked o word mask := by
  simp only [Memory.putMasked, Memory.wordAt_putWord h, Word.masked_masked, Memory.putWord_putWord h]

section

variable {s t : State} {body : State → State}

/-- A write operation is idempotent where its body is. -/
theorem State.writeOp_idem (h : s.writeOp body = .next t) (hfault : (body s).fault = s.fault)
    (hbody : body ((body s).reply none) = (body s).reply none) : t.writeOp body = .next t := by
  obtain ⟨hf, rfl⟩ := State.writeOp_next.mp h
  refine State.writeOp_next.mpr ⟨hfault.trans hf, ?_⟩
  rw [hbody]
  rfl

/-- A write to a window is idempotent where its body is. -/
theorem State.atOffset_writeOp_idem {size : State → Nat} {o : Nat}
    (h : (s.atOffset (size s) o fun s => s.writeOp body) = .next t) (hfault : (body s).fault = s.fault)
    (hsize : size ((body s).reply none) = size s) (hbody : body ((body s).reply none) = (body s).reply none) :
    (t.atOffset (size t) o fun s => s.writeOp body) = .next t := by
  obtain ⟨hf, hin, h⟩ := State.atOffset_next.mp h
  have hidem := State.writeOp_idem h hfault hbody
  obtain ⟨-, rfl⟩ := State.writeOp_next.mp h
  exact State.atOffset_next.mpr ⟨hfault.trans hf, hsize ▸ hin, hidem⟩

end

/-- Settles O36: the masked-write rule is idempotent, on a register and on a canonical buffer. -/
theorem plainWriteIdempotent : Obligations.PlainWriteIdempotent := by
  intro s t r o word mask i hi hc2 hds hms h
  simp only [List.mem_cons, List.not_mem_nil, or_false] at hi
  obtain rfl | rfl | rfl | rfl := hi <;> simp only [exec] at h ⊢
  · obtain ⟨hf, hok, h⟩ := State.ifWellFormed_next.mp h
    have hidem := State.writeOp_idem h rfl (by simp [State.setReg, State.reply, State.reg, Word.masked_masked])
    obtain ⟨-, rfl⟩ := State.writeOp_next.mp h
    exact State.ifWellFormed_next.mpr ⟨hf, hok, hidem⟩
  · exact State.atOffset_writeOp_idem (size := fun s => s.params.bus.c2Size) h rfl rfl
      (by simp [State.reply, Memory.putMasked_putMasked hc2])
  · exact State.atOffset_writeOp_idem (size := fun s => s.params.bus.dsSize) h rfl rfl
      (by simp [State.reply, Memory.putMasked_putMasked hds])
  · exact State.atOffset_writeOp_idem (size := fun s => s.params.bus.msSize) h rfl rfl
      (by simp [State.reply, Memory.putMasked_putMasked hms])

end Sys2Proof.Machine
end

section
/-! SUPPORT. Proofs of the statements about the commands as a family: the result of the GET commands, and what every command
leaves unchanged (41_commands.md R170 to R178). -/

namespace Sys2Proof.Machine

open Spec

/-! ## The clock -/

/-- The record a GET command draws, and what the draw leaves: the next injected one, or else a free one (R176). -/
def Draws (s : State) (c : ClockTime) (p : Port) : Prop :=
  (∃ cs, s.port.clockFeed = c :: cs ∧ p = { s.port with clockFeed := cs }) ∨
    (s.port.clockFeed = [] ∧ c = Config.clockDraw s.port.clockDraws ∧
      p = { s.port with clockDraws := s.port.clockDraws + 1 })

theorem clock_of_draws {s : State} {c : ClockTime} {p : Port} (h : Draws s c p) :
    s.clockNow = c ∧ s.clockDrawn = { s with port := p } := by
  unfold State.clockNow State.clockDrawn
  obtain ⟨cs, hfeed, rfl⟩ | ⟨hfeed, rfl, rfl⟩ := h <;> rw [hfeed] <;> exact ⟨rfl, rfl⟩

/-- A GET command writes the drawn record's word into DATA, and its clock read comes before the signal (R170 to R172). -/
theorem command_getTimeArm {s : State} (hf : s.fault = none) {c : ClockTime} {p : Port} (h : Draws s c p)
    (kind : ClockKind) : s.command (getTimeArm kind) =
      .next (commanded { s with regs := s.regs.set .data (clockWord kind c), port := p } (s.reg .cmdStatus)
        [.clockRead kind]) := by
  obtain ⟨hnow, hdrawn⟩ := clock_of_draws h
  rw [State.command_of_unfaulted hf, getTimeArm, hnow, hdrawn]
  simp [commanded, State.setReg, State.emit, State.reg]

/-- Settles O21: the three commands differ in the fields of the record alone. -/
theorem getClockResult : Obligations.GetClockResult := by
  intro s c p hf h got
  exact ⟨command_getTimeArm hf h .yearMonth, command_getTimeArm hf h .dayHour, command_getTimeArm hf h .minSec⟩

/-! ## What a command leaves unchanged -/

theorem Word.ext_testBit {v w : Word} (h : ∀ j : Fin 32, testBit v j = testBit w j) : v = w :=
  BitVec.eq_of_getLsbD_eq fun j hj => h ⟨j, hj⟩

theorem testBit_or_bitMask (w : Word) (l : List (Fin 32)) (i : Fin 32) :
    testBit (w ||| bitMask l) i = (testBit w i || decide (i ∈ l)) := by
  rw [← testBit_bitMask]
  exact BitVec.getLsbD_or

section

variable {l m : List (Fin 32)} (h : l ⊆ m) (w : Word)

include h

/-- Bits set inside a mask do not show outside it. -/
theorem or_bitMask_and_not_of_subset : (w ||| bitMask l) &&& ~~~bitMask m = w &&& ~~~bitMask m := by
  refine Word.ext_testBit fun j => ?_
  rw [testBit_and_not_bitMask, testBit_and_not_bitMask, testBit_or_bitMask]
  by_cases hj : j ∈ l
  · simp [h hj]
  · simp [hj]

/-- Bits cleared inside a mask do not show outside it. -/
theorem and_not_bitMask_and_not_of_subset : (w &&& ~~~bitMask l) &&& ~~~bitMask m = w &&& ~~~bitMask m := by
  refine Word.ext_testBit fun j => ?_
  simp only [testBit_and_not_bitMask]
  by_cases hj : j ∈ l
  · simp [h hj]
  · simp [hj]

end

/-- The flags of CMD_STATUS that a command can write (R177). -/
def commandFlags (b : StatusBits) : List (Fin 32) := [b.mechaInt, b.rstState, b.mtrNSpin, b.headRtrct, b.diskChng]

/-- From `s` to `t` only CMD_STATUS in the flags of the commands, DATA, CUR_TK, what only a seek writes of the session,
the line, the trace and the host's side can have changed (R177, R178). -/
structure CommandKept (s t : State) : Prop where
  params : t.params = s.params
  reg    : ∀ r, r ∉ [Reg.cmdStatus, .data, .curTk] → t.reg r = s.reg r
  status : t.reg .cmdStatus &&& ~~~bitMask (commandFlags s.params.statusBits) =
    s.reg .cmdStatus &&& ~~~bitMask (commandFlags s.params.statusBits)
  block  : t.session.currentBlock = s.session.currentBlock
  skip   : t.session.skip89 = s.session.skip89
  hold   : t.session.resetHold = s.session.resetHold
  c2     : t.c2 = s.c2
  ds     : t.ds = s.ds
  ms     : t.ms = s.ms
  img    : t.img = s.img
  ipl    : t.ipl = s.ipl
  fault  : t.fault = s.fault

namespace CommandKept

theorem refl (s : State) : CommandKept s s :=
  ⟨rfl, fun _ _ => rfl, rfl, rfl, rfl, rfl, rfl, rfl, rfl, rfl, rfl, rfl⟩

/-- A write of DATA or CUR_TK, what a seek writes of the session, and a draw of the clock. -/
theorem written (s : State) {r : Reg} (hr : r = .data ∨ r = .curTk) (v : Word) (mode : Bool) (z : Fin 16) (off : Word)
    (p : Port) : CommandKept s
      { s with
        regs := s.regs.set r v
        session := { s.session with modeRead := mode, zone := z, trackByteOffset := off }
        port := p } where
  params := rfl
  reg q hq := by
    have hne : q ≠ r := by
      rintro rfl
      obtain rfl | rfl := hr <;> simp at hq
    simp [hne, State.reg]
  status := by
    have hne : Reg.cmdStatus ≠ r := by
      rintro rfl
      simp at hr
    simp [hne, State.reg]
  block := rfl
  skip := rfl
  hold := rfl
  c2 := rfl
  ds := rfl
  ms := rfl
  img := rfl
  ipl := rfl
  fault := rfl

/-- The state a command leaves, where its arm wrote flags of the commands only. -/
theorem commanded {s t : State} (h : CommandKept s t) {st : Word} (evs : List Event)
    (hst : st &&& ~~~bitMask (commandFlags s.params.statusBits) =
      s.reg .cmdStatus &&& ~~~bitMask (commandFlags s.params.statusBits)) :
    CommandKept s (commanded t st evs) :=
  { h with
    reg := fun r hr => by
      have hne : r ≠ .cmdStatus := by
        rintro rfl
        simp at hr
      simpa [State.reg, Spec.commanded, hne] using h.reg r hr
    status := by
      have hint : [s.params.statusBits.mechaInt] ⊆ commandFlags s.params.statusBits := by simp [commandFlags]
      refine Eq.trans ?_ hst
      rw [← or_bitMask_and_not_of_subset hint st, ← h.params]
      rfl }

end CommandKept

theorem exists_draws (s : State) : ∃ c p, Draws s c p := by
  cases hfeed : s.port.clockFeed with
  | nil => exact ⟨_, _, .inr ⟨hfeed, rfl, rfl⟩⟩
  | cons c cs => exact ⟨_, _, .inl ⟨cs, hfeed, rfl⟩⟩

/-- Every completed command leaves a commanded state, that of the command's result (R152 to R174). -/
theorem commandKept_of_exec {s t : State} {i : Instr} (hc : isCommand i = true) (h : exec i s = .next t) :
    CommandKept s t := by
  have hf := exec_next_unfaulted h
  have left {u : State} (hu : exec i s = .next u) (hk : CommandKept s u) : CommandKept s t := by
    rw [h] at hu
    cases hu
    exact hk
  have clears {l : List (Fin 32)} (hl : l ⊆ commandFlags s.params.statusBits) :=
    and_not_bitMask_and_not_of_subset hl (s.reg .cmdStatus)
  have sets {l : List (Fin 32)} (hl : l ⊆ commandFlags s.params.statusBits) :=
    or_bitMask_and_not_of_subset hl (s.reg .cmdStatus)
  have idle := (CommandKept.refl s).commanded [] rfl
  have stored {r : Reg} (hr : r = .data ∨ r = .curTk) (v : Word) (p : Port) (evs : List Event) :=
    (CommandKept.written s hr v s.session.modeRead s.session.zone s.session.trackByteOffset p).commanded evs rfl
  cases i
  case noop | setStandby | setSleep | readVersion | setDiskType | requestStatus | setYearMonth | setDayHour | setMinSec =>
    exact left (epilogueOnlyCommands s _ hf (.inl (by simp))) idle
  case cmdUnrecognized op =>
    have hcmd : execCmdUnrecognized op s = .next t := h
    obtain ⟨-, hop, -⟩ := State.ifWellFormed_next.mp hcmd
    have hrows := forall_opcodeRows_ne_iff.mpr (show op ∉ s.params.opcodes.numbers by simpa [Instr.wellFormed] using hop)
    exact left (epilogueOnlyCommands s _ hf (.inr ⟨op, rfl, .inl hrows⟩)) idle
  case seekRead =>
    exact left (seekResult s hf).1 ((CommandKept.written s (.inr rfl) ..).commanded _ (clears (by simp [commandFlags])))
  case seekWrite =>
    exact left (seekResult s hf).2 ((CommandKept.written s (.inr rfl) ..).commanded _ (clears (by simp [commandFlags])))
  case recalibrate => exact left (dataCommandResult s hf).1 (stored (.inl rfl) ..)
  case featureInq => exact left (dataCommandResult s hf).2 (stored (.inl rfl) ..)
  case idxLockRetry => exact left (idxLockRetryResult.2 s hf).1 (stored (.inr rfl) ..)
  case sleep =>
    exact left (motorHeadCommandResult s hf).1 ((CommandKept.refl s).commanded _ (sets (by simp [commandFlags])))
  case start =>
    exact left (motorHeadCommandResult s hf).2.1 ((CommandKept.refl s).commanded _ (clears (by simp [commandFlags])))
  case standby =>
    refine left (motorHeadCommandResult s hf).2.2 ((CommandKept.refl s).commanded _ ?_)
    exact (and_not_bitMask_and_not_of_subset (by simp [commandFlags]) _).trans (sets (by simp [commandFlags]))
  case clrDskChng =>
    exact left (clearFlagCommandResult s hf).1 ((CommandKept.refl s).commanded _ (clears (by simp [commandFlags])))
  case clrReset =>
    exact left (clearFlagCommandResult s hf).2 ((CommandKept.refl s).commanded _ (clears (by simp [commandFlags])))
  case getYearMonth | getDayHour | getMinSec =>
    obtain ⟨c, p, hdraws⟩ := exists_draws s
    exact left (command_getTimeArm hf hdraws _) (stored (.inl rfl) ..)
  all_goals cases hc

/-- Settles O24: what every command leaves unchanged is what the states of the commands' results have in common. -/
theorem commandFrame : Obligations.CommandFrame := by
  intro s t i hc h b written
  have k := commandKept_of_exec hc h
  exact ⟨k.reg, k.status, k.block, k.skip, k.hold, k.c2, k.ds, k.ms, k.img, k.ipl, k.fault⟩

end Sys2Proof.Machine
end

section
/-! SUPPORT. Proofs of the statements about runs of the pump: the commit that persists, the copy past the image, status reads
in the gap, and the transfers of one block (43_bm_pump.md R218 to R234, 70_reset_and_hazards.md R314). -/

namespace Sys2Proof.Machine

open Spec

/-! ## The fields of a pumped state -/

section

variable (s : State) (k : Nat) (b : Fin 2) (st bm : Word) (evs : List Event)

@[simp] theorem reg_curSector_pumped : (pumped s k b st bm evs).reg .curSector = sectorWord k b := by
  simp [pumped, sectorWord, Config.block1Base]

@[simp] theorem reg_cmdStatus_pumped :
    (pumped s k b st bm evs).reg .cmdStatus = st ||| bitMask [s.params.statusBits.bmInt] := by
  simp [pumped]

@[simp] theorem reg_bmStatusCtl_pumped : (pumped s k b st bm evs).reg .bmStatusCtl = bm := by
  simp [pumped]

@[simp] theorem reg_curTk_pumped : (pumped s k b st bm evs).reg .curTk = s.reg .curTk := by
  simp [pumped, State.reg]

@[simp] theorem session_pumped : (pumped s k b st bm evs).session = { s.session with currentBlock := b } := by
  rw [pumped]

@[simp] theorem ipl_pumped : (pumped s k b st bm evs).ipl = s.ipl := by rw [pumped]

@[simp] theorem params_pumped : (pumped s k b st bm evs).params = s.params := by rw [pumped]

theorem iplCase_pumped (c : Fin 2) : IplCase (pumped s k b st bm evs) c ↔ IplCase s c := by
  simp [IplCase]

end

/-! ## Branches that fault -/

section

variable {s : State} {k : Nat} {b : Fin 2}

/-- Where the branch raised a fault, the pump ends there (R270). -/
theorem pump_of_faulted {f : Fault} (hat : At s k b) (h : (pumpBranch k (s.setBlock b)).2.fault = some f) :
    pump s = (pumpBranch k (s.setBlock b)).2 := by
  rw [pump_eq, pumpPrologue_of_at hat, State.andThen_of_some h]

theorem pumpBranch_of_write (hmode : s.session.modeRead = false) :
    pumpBranch k (s.setBlock b) = pumpWrite k (s.setBlock b) := by
  simp [pumpBranch, hmode]

/-- A read branch that does not step back is one arm from its entry (R221). -/
theorem pumpBranch_of_read (hmode : s.session.modeRead = true) (hstay : k ≠ 89 ∨ s.session.skip89 = true) :
    pumpBranch k (s.setBlock b) = readArms k (readEntry s b) := by
  have hstep : stepBack k (readEntry s b) = (k, readEntry s b) := by
    refine if_neg ?_
    obtain hk | hskip := hstay
    · simp [hk]
    · simp [hskip]
  rw [pumpBranch, if_pos (show (s.setBlock b).session.modeRead = true from hmode), pumpRead, ← readEntry, hstep]

end

theorem fault_readEntry (s : State) (b : Fin 2) : (readEntry s b).fault = s.fault := by
  rw [readEntry, State.fault_clearStatus, State.fault_clearStatus, State.fault_setBlock]

/-- Settles O46: the copy raises the fault in the branch's entry, and neither its arm nor the epilogue goes on. -/
theorem copyBeyondImageFaults : Obligations.CopyBeyondImageFaults := by
  intro s k b hf hat hmode hcase hk hover
  have hipl : ¬iplSpecial (readEntry s b) = true := mt (iplSpecial_readEntry s b).mp hcase
  have hcopy : copySector k (readEntry s b) =
      (readEntry s b).raise (.diskRange (slot s b k) (sectorSize s.session.zone)) :=
    copySector_of_lt (s := readEntry s b) hover
  have hbranch : (pumpBranch k (s.setBlock b)).2 =
      (readEntry s b).raise (.diskRange (slot s b k) (sectorSize s.session.zone)) := by
    rw [pumpBranch_of_read hmode (.inl (by omega)), readArms_of_lt hipl hk, hcopy,
      State.andThen_of_some (State.fault_raise _ _)]
  rw [pump_of_faulted hat (hbranch ▸ State.fault_raise _ _), hbranch, readEntry, State.clearStatus_clearStatus]
  rfl

/-! ## The commit that persists -/

section

variable {s : State} (hp : s.params.writePersist = true) (k : Nat) (b : Fin 2)

/-- The state with the payload stored in the image from a slot on (R218). -/
def persisted (s : State) (b : Fin 2) (j : Nat) : State :=
  { s with img := { s.img with bytes := s.img.bytes.store (slot s b j) (payload s) } }

@[simp] theorem fault_persisted (s : State) (b : Fin 2) (j : Nat) : (persisted s b j).fault = s.fault := by
  simp only [persisted]

@[simp] theorem reg_persisted (s : State) (b : Fin 2) (j : Nat) (r : Reg) : (persisted s b j).reg r = s.reg r := rfl

@[simp] theorem params_persisted (s : State) (b : Fin 2) (j : Nat) : (persisted s b j).params = s.params := rfl

@[simp] theorem pumped_persisted (s : State) (b : Fin 2) (j k : Nat) (c : Fin 2) (st bm : Word) (evs : List Event) :
    pumped (persisted s b j) k c st bm evs = { pumped s k c st bm evs with
      img := { s.img with bytes := s.img.bytes.store (slot s b j) (payload s) } } := rfl

theorem length_payload (s : State) : (payload s).length = sectorSize s.session.zone := by
  simp [payload]

theorem getElem_payload {i : Nat} (h : i < sectorSize s.session.zone) : (payload s)[i]! = s.ds.read i := by
  simp [payload, h]

theorem payload_eq_slice (s : State) : payload s = s.ds.slice 0 (sectorSize s.session.zone) := by
  simp [payload, Memory.slice]

include hp

/-- Under `WRITE_PERSIST` a commit whose slot fits the image is its event and the payload stored (R218). -/
theorem commitSector_of_fits (h : slot s b (k - 1) + sectorSize s.session.zone ≤ s.img.size) :
    commitSector k (s.setBlock b) = ((persisted s b (k - 1)).setBlock b).emit (commitEvent s b (k - 1)) := by
  have hslice : (s.setBlock b).ds.slice 0 (s.setBlock b).sectorBytes = payload s := (payload_eq_slice s).symm
  have hslot : (s.setBlock b).slotOffset (k - 1) = slot s b (k - 1) := rfl
  rw [commitSector, hslice, hslot, persistCommit, State.params_emit, State.params_setBlock, if_pos hp, length_payload,
    if_neg (by simpa using h)]
  rfl

/-- Under `WRITE_PERSIST` a commit whose slot reaches past the image is its event and the fault (R218). -/
theorem commitSector_of_beyond (h : s.img.size < slot s b (k - 1) + sectorSize s.session.zone) :
    commitSector k (s.setBlock b) = ((s.setBlock b).emit (commitEvent s b (k - 1))).raise
      (.diskRange (slot s b (k - 1)) (sectorSize s.session.zone)) := by
  have hslice : (s.setBlock b).ds.slice 0 (s.setBlock b).sectorBytes = payload s := (payload_eq_slice s).symm
  have hslot : (s.setBlock b).slotOffset (k - 1) = slot s b (k - 1) := rfl
  rw [commitSector, hslice, hslot, persistCommit, State.params_emit, State.params_setBlock, if_pos hp, length_payload,
    if_pos (by simpa using h)]
  rfl

end

/-- A commit that faults ends the write branch (R218, R270). -/
theorem pumpWrite_of_commit_fault {s : State} {k : Nat} {f : Fault} (h0 : 1 ≤ k) (hk : k ≤ 85)
    (h : (commitSector k s).fault = some f) : (pumpWrite k s).2 = commitSector k s := by
  obtain hlt | rfl := Nat.lt_or_eq_of_le hk
  · rw [pumpWrite_of_lt s h0 hlt, State.andThen_of_some h]
  · cases hblock : s.bm .block with
    | true => rw [pumpWrite_of_block s hblock, State.andThen_of_some h]
    | false => rw [pumpWrite_of_not_block s hblock, State.andThen_of_some h]

theorem fault_writeNextBlock (s : State) : (writeNextBlock s).fault = s.fault := by
  rw [writeNextBlock, State.fault_setStatus, State.fault_clearBm, State.fault_setBlock]

/-- Settles O43: the commit either stores its payload and its arm goes on, or raises the fault that ends the pump. -/
theorem persistentCommit : Obligations.PersistentCommit := by
  intro s k b hf hat hmode hp himg h0 hk85 st bm dataRq running block
  refine ⟨fun hfits => ?_, fun hover => ?_⟩
  · have hnone : (((persisted s b (k - 1)).setBlock b).emit (commitEvent s b (k - 1))).fault = none := by
      rw [State.fault_emit, State.fault_setBlock, fault_persisted, hf]
    have hcommit (next : State → State) : (commitSector k (s.setBlock b)).andThen next =
        next (((persisted s b (k - 1)).setBlock b).emit (commitEvent s b (k - 1))) := by
      rw [commitSector_of_fits hp k b hfits, State.andThen_of_none hnone]
    refine ⟨_, Memory.wf_store himg (slot s b (k - 1)) (payload s), fun a => ?_, fun hk => ?_, ?_, ?_⟩
    · rw [Memory.read_store himg, length_payload]
      split
      case isTrue ha => exact getElem_payload (by omega)
      case isFalse => rfl
    · have harm := pumpWrite_of_lt (s.setBlock b) h0 hk
      rw [hcommit] at harm
      rw [pump_of_pumpWrite hat hmode harm ((State.fault_setStatus _ _).trans hnone), pumpEpilogue_eq_pumped]
      simp [st, bm, dataRq, setBit, StatusFlag.bit]
    · rintro rfl hblock
      have harm := pumpWrite_of_block (s.setBlock b) hblock
      rw [hcommit] at harm
      rw [pump_of_pumpWrite hat hmode harm (by rw [fault_writeNextBlock, hnone]), pumpEpilogue_eq_pumped]
      simp [writeNextBlock, st, bm, dataRq, block, setBit, clearBit, StatusFlag.bit, BmFlag.bit]
    · rintro rfl hblock
      have harm := pumpWrite_of_not_block (s.setBlock b) hblock
      rw [hcommit] at harm
      rw [pump_of_pumpWrite hat hmode harm ((State.fault_clearBm _ _).trans hnone), pumpEpilogue_eq_pumped]
      simp [st, bm, running, clearBit, BmFlag.bit]
  · have hcommit := commitSector_of_beyond hp k b hover
    have hbranch : (pumpBranch k (s.setBlock b)).2 = commitSector k (s.setBlock b) := by
      rw [pumpBranch_of_write hmode]
      exact pumpWrite_of_commit_fault h0 hk85 (hcommit ▸ State.fault_raise _ _)
    rw [hcommit] at hbranch
    rw [pump_of_faulted hat (hbranch ▸ State.fault_raise _ _), hbranch]
    rfl

/-! ## Status reads in the gap -/

/-- From `s` to `t` nothing was copied, committed or signalled, and no fault raised. -/
structure Still (s t : State) : Prop where
  fault : t.fault = s.fault
  trace : t.trace = s.trace
  ds    : t.ds = s.ds
  img   : t.img = s.img

theorem Still.trans {s t u : State} (h : Still s t) (h' : Still t u) : Still s u :=
  ⟨h'.fault.trans h.fault, h'.trace.trans h.trace, h'.ds.trans h.ds, h'.img.trans h.img⟩

/-- Past the sectors the arms of the read branch copy nothing (R222, R225 to R229). -/
theorem still_readArms {k : Nat} (hk : 85 ≤ k) (s : State) : Still s (readArms k s).2 := by
  unfold readArms readEcc readGap
  rw [if_neg (show ¬k < Config.sectorsPerBlock from Nat.not_lt.mpr hk)]
  split_ifs <;> exact ⟨rfl, rfl, rfl, rfl⟩

theorem le_stepBack {k : Nat} (hk : 85 ≤ k) (s : State) : 85 ≤ (stepBack k s).1 := by
  unfold stepBack
  split
  · exact Nat.le_of_ble_eq_true rfl
  · exact hk

theorem still_stepBack (k : Nat) (s : State) : Still s (stepBack k s).2 := by
  unfold stepBack
  split <;> exact ⟨rfl, rfl, rfl, rfl⟩

/-- Past the sectors neither branch copies, commits, signals or faults (R219, R231). -/
theorem still_pumpBranch {k : Nat} (hk : 85 < k) (s : State) : Still s (pumpBranch k s).2 := by
  unfold pumpBranch
  split
  · exact Still.trans (t := (s.clearStatus .dataRq).clearStatus .c2Xfer) ⟨rfl, rfl, rfl, rfl⟩
      ((still_stepBack k _).trans (still_readArms (le_stepBack hk.le _) _))
  · rw [pumpWrite_of_past s hk]
    exact ⟨rfl, rfl, rfl, rfl⟩

/-- Past the sectors a pump raises no fault and adds one signal; it leaves BM_INT set and the line asserted, and it copies
and commits nothing (R230, R231). -/
theorem pump_past_sectors {s : State} {k : Nat} {b : Fin 2} (hf : s.fault = none) (hat : At s k b) (hk : 85 < k) :
    (pump s).fault = none ∧ (pump s).trace = s.trace ++ [.signal] ∧ (pump s).irq = true ∧
      (pump s).status .bmInt = true ∧ (pump s).ds = s.ds ∧ (pump s).img = s.img := by
  obtain ⟨k', t, hbranch⟩ : ∃ k' t, pumpBranch k (s.setBlock b) = (k', t) := ⟨_, _, rfl⟩
  have hstill : Still (s.setBlock b) t := by simpa [hbranch] using still_pumpBranch hk (s.setBlock b)
  have hset (t : State) : (t.setStatus .bmInt).signalIrq.status .bmInt = true := by simp
  rw [pump_of_branch hat hbranch (hstill.fault.trans hf), pumpEpilogue]
  refine ⟨?_, ?_, State.irq_signalIrq _, hset _, ?_, ?_⟩
  · rw [State.fault_signalIrq, State.fault_setStatus, State.fault_setReg, hstill.fault, State.fault_setBlock, hf]
  · rw [State.trace_signalIrq, State.trace_setStatus, State.trace_setReg, hstill.trace, State.trace_setBlock]
  · rw [State.ds_signalIrq, State.ds_setStatus, State.ds_setReg, hstill.ds, State.ds_setBlock]
  · rw [State.img_signalIrq, State.img_setStatus, State.img_setReg, hstill.img, State.img_setBlock]

theorem at_congr {s t : State} (hreg : t.reg .curSector = s.reg .curSector)
    (hblock : t.session.currentBlock = s.session.currentBlock) (k : Nat) (b : Fin 2) : At t k b ↔ At s k b := by
  unfold At
  rw [hreg, hblock]

/-- The state whose pump is the side effect of a status read (R122). -/
def gapEntry (s : State) : State := (s.clearStatus .bmInt).clearIrq

section

variable (s : State)

@[simp] theorem fault_gapEntry : (gapEntry s).fault = s.fault := by
  rw [gapEntry, State.fault_clearIrq, State.fault_clearStatus]

@[simp] theorem trace_gapEntry : (gapEntry s).trace = s.trace ++ [.clear] := by
  rw [gapEntry, State.trace_clearIrq, State.trace_clearStatus]

@[simp] theorem ds_gapEntry : (gapEntry s).ds = s.ds := by rw [gapEntry, State.ds_clearIrq, State.ds_clearStatus]

@[simp] theorem img_gapEntry : (gapEntry s).img = s.img := by rw [gapEntry, State.img_clearIrq, State.img_clearStatus]

@[simp] theorem ipl_gapEntry : (gapEntry s).ipl = s.ipl := by rw [gapEntry, State.ipl_clearIrq, State.ipl_clearStatus]

@[simp] theorem params_gapEntry : (gapEntry s).params = s.params := by
  rw [gapEntry, State.params_clearIrq, State.params_clearStatus]

@[simp] theorem session_gapEntry : (gapEntry s).session = s.session := by
  rw [gapEntry, State.session_clearIrq, State.session_clearStatus]

@[simp] theorem reg_gapEntry {r : Reg} (hr : r ≠ .cmdStatus) : (gapEntry s).reg r = s.reg r := by
  rw [gapEntry, State.reg_clearIrq, State.reg_clearStatus, if_neg hr]

@[simp] theorem bm_gapEntry (f : BmFlag) : (gapEntry s).bm f = s.bm f := by
  rw [gapEntry, State.bm_clearIrq, State.bm_clearStatus]

@[simp] theorem at_gapEntry (k : Nat) (b : Fin 2) : At (gapEntry s) k b ↔ At s k b :=
  at_congr (reg_gapEntry s (by decide)) (by rw [session_gapEntry]) k b

theorem iplCase_gapEntry (b : Fin 2) : IplCase (gapEntry s) b ↔ IplCase s b := by
  rw [IplCase, reg_gapEntry s (by decide), ipl_gapEntry]

end

/-- A status read in the gap clears the flag and the line and pumps (R122). -/
theorem exec_statusRead_of_gap {s : State} {k : Nat} {b : Fin 2} (hf : s.fault = none) (hat : At s k b)
    (hint : s.status .bmInt = true) (hk : 85 < k) :
    exec .statusRead s = .next ((pump (gapEntry s)).reply (some (s.reg .cmdStatus))) := by
  rw [exec, execStatusRead_of_unfaulted hf, statusReadSideEffect_of_gap hint (by rwa [inBlock_of_at hat])]
  rfl

/-- Settles O29: the side effect is a clear and a pump past the sectors. -/
theorem statusReadNeverFaults : Obligations.StatusReadNeverFaults := by
  intro s k b hf hat hint hk
  obtain ⟨hparams, -⟩ := pump_frame (gapEntry s)
  obtain ⟨hfault, htrace, hirq, hset, hds, himg⟩ :=
    pump_past_sectors ((fault_gapEntry s).trans hf) ((at_gapEntry s k b).mpr hat) hk
  rw [State.status, hparams, params_gapEntry] at hset
  refine ⟨_, exec_statusRead_of_gap hf hat hint hk, hfault, ?_, hirq, hset, hds.trans (ds_gapEntry s),
    himg.trans (img_gapEntry s)⟩
  rw [State.trace_reply, htrace, trace_gapEntry, List.append_assoc]
  rfl

/-- The position a pump writes is the one the next pump finds (R212, R230). -/
theorem at_pumped (s : State) {k : Nat} {b : Fin 2} (hk : k < 90) (st bm : Word) (evs : List Event) :
    At (pumped s k b st bm evs) k b := by
  have hnumber : ((pumped s k b st bm evs).reg .curSector >>> 16).toNat = k + 90 * b.val := by
    rw [← sectorNumber_eq, reg_curSector_pumped]
    exact sectorNumber_sectorWord (by omega)
  unfold At
  rw [hnumber]
  split
  case isTrue h => exact ⟨by omega, by omega⟩
  case isFalse h => exact ⟨by omega, rfl⟩

/-- The end of a transfer, where status reads find it (R314): sector 86 of a write, and sector 89 of a read past its
step-back with BLOCK clear and outside the IPL special case. -/
def TransferEnded (s : State) (b : Fin 2) : Prop :=
  (s.session.modeRead = false ∧ At s 86 b) ∨
    (s.session.modeRead = true ∧ At s 89 b ∧ s.session.skip89 = true ∧ s.bm .block = false ∧ ¬IplCase s b)

/-- A pump at the end of a transfer stays there: it clears RUNNING at most (R219, R228). -/
theorem pump_of_ended {s : State} {b : Fin 2} (hf : s.fault = none) (h : TransferEnded s b) :
    ∃ k st bm, pump s = pumped s k b st bm [] ∧ TransferEnded (pump s) b := by
  obtain ⟨hmode, hat⟩ | ⟨hmode, hat, hskip, hblock, hcase⟩ := h
  · have hpump := (pumpWriteArms s 86 b hf hat hmode).2.1 le_rfl
    refine ⟨_, _, _, hpump, ?_⟩
    rw [hpump, TransferEnded, session_pumped]
    exact .inl ⟨hmode, at_pumped s (by decide) ..⟩
  · have hipl : ¬iplSpecial (readEntry s b) = true := mt (iplSpecial_readEntry s b).mp hcase
    have harm := readArms_of_not_block hipl ((bm_readEntry s b .block).trans hblock)
    have hnone : ((readEntry s b).clearBm .running).fault = none := by rw [State.fault_clearBm, fault_readEntry, hf]
    have hpump := (pump_of_readArms hat hmode (.inr hskip) harm hnone).trans (pumpEpilogue_eq_pumped _ _)
    rw [pumped_clearBm, pumped_readEntry, State.reg_clearBm .., State.reg_clearBm .., if_pos rfl,
      reg_bmStatusCtl_readEntry, params_readEntry] at hpump
    have hclear : testBit (clearBit (s.reg .bmStatusCtl) (BmFlag.running.bit s.params.bmStatusBits))
        (BmFlag.block.bit s.params.bmStatusBits) = false := by
      rw [testBit_clearBit, show testBit _ _ = false from hblock, Bool.false_and]
    refine ⟨_, _, _, hpump, ?_⟩
    rw [hpump, TransferEnded, State.bm, session_pumped, reg_bmStatusCtl_pumped, params_pumped, iplCase_pumped]
    exact .inr ⟨hmode, at_pumped s (by decide) .., hskip, hclear, hcase⟩

/-- Settles O30: the side effect sets BM_INT again and leaves the transfer ended. -/
theorem statusReadsNeverDrainInterrupt : Obligations.StatusReadsNeverDrainInterrupt := by
  intro s b hf hint hend
  have hended : TransferEnded (gapEntry s) b := by
    simp only [TransferEnded, session_gapEntry, at_gapEntry, bm_gapEntry, iplCase_gapEntry]
    exact hend
  obtain ⟨k, hat, hk⟩ : ∃ k, At s k b ∧ 85 < k := by
    obtain ⟨-, hat⟩ | ⟨-, hat, -⟩ := hend
    · exact ⟨_, hat, by decide⟩
    · exact ⟨_, hat, by decide⟩
  obtain ⟨t, hread, hfault, htrace, -, hset, -⟩ := statusReadNeverFaults s k b hf hat hint hk
  have hleft := exec_statusRead_of_gap hf hat hint hk
  rw [hread] at hleft
  obtain rfl := Host.Outcome.next.inj hleft
  obtain ⟨hparams, -, -, -, -, hmode, -⟩ := pump_frame (gapEntry s)
  obtain ⟨-, -, -, -, hafter⟩ := pump_of_ended ((fault_gapEntry s).trans hf) hended
  rw [session_gapEntry] at hmode
  rw [TransferEnded, State.bm, hmode, hparams, params_gapEntry] at hafter
  refine ⟨_, hread, hfault, hset, htrace, hmode, fun hwrite => ?_, fun hread => ?_⟩
  · obtain ⟨-, hat⟩ | ⟨hread, -⟩ := hafter
    · exact hat
    · cases hwrite.symm.trans hread
  · obtain ⟨hwrite, -⟩ | ⟨-, hended⟩ := hafter
    · cases hwrite.symm.trans hread
    · exact hended

end Sys2Proof.Machine
end

section
/-! SUPPORT. Proofs of the statements about the transfers of one block: a write's 86 pumps and a read's 91, each as a run
whose state after every pump is given (43_bm_pump.md R233, R234). -/

namespace Sys2Proof.Machine

open Spec

/-- A pump from a pumped state overwrites what the pump before it wrote, and its events come after the signal. -/
theorem pumped_pumped (s : State) (k k' : Nat) (b b' : Fin 2) (st st' bm bm' : Word) (evs evs' : List Event) :
    pumped (pumped s k b st bm evs) k' b' st' bm' evs' = pumped s k' b' st' bm' (evs ++ .signal :: evs') := by
  simp only [pumped, List.append_assoc, List.singleton_append]
  rfl

/-- In-block sector 0 of block 0 is found only where the block is 0 (R212). -/
theorem currentBlock_of_at_zero {s : State} (h : At s 0 0) : s.session.currentBlock = 0 := by
  unfold At at h
  split at h
  case isTrue => exact absurd h.2 (by decide)
  case isFalse => exact h.2.symm

/-! ## A one-block write -/

/-- The events of `n` commits, from slot 0 on, each after the signal of the pump before it (R234). -/
def commits (s : State) (n : Nat) : List Event := (List.range n).flatMap fun j => [.signal, commitEvent s 0 j]

theorem commits_succ (s : State) (n : Nat) : commits s (n + 1) = commits s n ++ [.signal, commitEvent s 0 n] := by
  simp [commits, List.range_succ]

/-- The same events with each commit's own signal after it, and the first pump's before them all. -/
theorem commits_signal (s : State) (n : Nat) :
    commits s n ++ [.signal] = [.signal] ++ (List.range n).flatMap fun j => [commitEvent s 0 j, .signal] := by
  induction n with
  | zero => rfl
  | succ n ih =>
    rw [List.range_succ, List.flatMap_append, ← List.append_assoc, ← ih, commits_succ]
    simp

/-- The commit events of a pumped state are those of the state it was pumped from. -/
theorem commitEvent_pumped (s : State) (k : Nat) (b : Fin 2) (st bm : Word) (evs : List Event) (c : Fin 2) (j : Nat) :
    commitEvent (pumped s k b st bm evs) c j = commitEvent s c j := by
  have hds : (pumped s k b st bm evs).ds = s.ds := by rw [pumped]
  simp only [commitEvent, slot, payload, session_pumped, hds]

/-- The state of a one-block write after pump `n + 1`: sector `n + 1`, DATA_RQ set, and RUNNING clear after the last
(R214, R215, R217). -/
def WriteRun (s : State) (n : Nat) (t : State) : Prop :=
  ∃ st bm, t = pumped s (n + 1) 0 st bm (commits s n) ∧ testBit st s.params.statusBits.dataRq = true ∧
    testBit bm s.params.bmStatusBits.block = false ∧ testBit bm s.params.bmStatusBits.running = decide (n < 85)

section

variable {s : State} (hf : s.fault = none) (hmode : s.session.modeRead = false)
  (hblock : (s.reg .bmStatusCtl).getLsbD s.params.bmStatusBits.block = false)

include hf hmode hblock

/-- The first pump asks for data and commits nothing (R214). -/
theorem writeRun_pump (hat : At s 0 0) (hrun : (s.reg .bmStatusCtl).getLsbD s.params.bmStatusBits.running = true) :
    WriteRun s 0 (pump s) := by
  refine ⟨_, _, (pumpWriteArms s 0 0 hf hat hmode).1 rfl, ?_, hblock, hrun⟩
  rw [testBit_or_bitMask]
  simp

omit hblock in
/-- Each further pump commits the slot before the sector it finds; the one at sector 85 is the last (R215, R217). -/
theorem WriteRun.next (hp : s.params.writePersist = false) {n : Nat} {t : State} (hn : n < 85) (h : WriteRun s n t) :
    WriteRun s (n + 1) (pump t) := by
  obtain ⟨st, bm, rfl, hst, hblock, hrun⟩ := h
  have hf' : (pumped s (n + 1) 0 st bm (commits s n)).fault = none := by rw [pumped, hf]
  have hat := at_pumped s (show n + 1 < 90 by omega) (b := 0) st bm (commits s n)
  obtain ⟨-, -, harms⟩ := pumpWriteArms _ (n + 1) 0 hf' hat (by rw [session_pumped, hmode])
  obtain ⟨hadvance, -, hend⟩ := harms (by rw [params_pumped, hp])
  rw [reg_cmdStatus_pumped, reg_bmStatusCtl_pumped, params_pumped, commitEvent_pumped] at hadvance hend
  obtain hlt | rfl := Nat.lt_or_eq_of_le (Nat.le_of_lt_succ hn)
  · rw [hadvance (by omega) (by omega), pumped_pumped]
    refine ⟨_, _, congrArg (pumped s (n + 2) 0 _ _) (commits_succ s n).symm, ?_, hblock, ?_⟩
    · rw [testBit_or_bitMask]
      simp
    · rw [hrun, decide_eq_true hn, decide_eq_true (by omega)]
  · rw [hend rfl hblock, pumped_pumped]
    refine ⟨_, _, congrArg (pumped s 86 0 _ _) (commits_succ s 84).symm, ?_, ?_, ?_⟩
    · rw [testBit_or_bitMask, hst, Bool.true_or]
    · rw [testBit_and_not_bitMask, hblock, Bool.false_and]
    · rw [testBit_and_not_bitMask]
      simp

end

/-- Settles O49: the run after the first pump is given by induction, and its events are the commits in order. -/
theorem writeTransferTakes86Pumps : Obligations.WriteTransferTakes86Pumps := by
  intro s hf hat hmode hp hblock hrun p
  have run (n : Nat) (hn : n ≤ 85) : WriteRun s n (p (n + 1)) := by
    induction n with
    | zero => exact writeRun_pump hf hmode hblock hat hrun
    | succ n ih =>
      rw [show p (n + 1 + 1) = pump (p (n + 1)) from Function.iterate_succ_apply' pump _ s]
      exact (ih (by omega)).next hf hmode hp (by omega)
  refine ⟨fun n hn => ?_, fun n h1 hn => ?_, fun n hn => ?_, ?_, ?_, ?_⟩
  · cases n with
    | zero => exact ⟨hf, hat⟩
    | succ n =>
      obtain ⟨st, bm, ht, -⟩ := run n (by omega)
      rw [ht]
      exact ⟨by rw [pumped, hf], at_pumped s (by omega) ..⟩
  · obtain ⟨n, rfl⟩ : ∃ m, n = m + 1 := ⟨n - 1, by omega⟩
    obtain ⟨st, bm, ht, hst, -⟩ := run n (by omega)
    rw [ht, reg_cmdStatus_pumped]
    exact (testBit_or_bitMask ..).trans (by rw [hst, Bool.true_or])
  · cases n with
    | zero => exact iff_of_true hrun (Nat.zero_le _)
    | succ n =>
      obtain ⟨st, bm, ht, -, -, hbm⟩ := run n (by omega)
      rw [ht, reg_bmStatusCtl_pumped, show bm.getLsbD _ = decide (n < 85) from hbm, decide_eq_true_iff]
      exact Nat.lt_iff_add_one_le
  all_goals
    obtain ⟨st, bm, ht, -⟩ := run 85 le_rfl
    rw [ht, pumped]
  rw [List.append_assoc, commits_signal, List.append_assoc]

/-! ## A one-block read -/

/-- The flags of CMD_STATUS that pump `n + 1` of a one-block read sets beside BM_INT: DATA_RQ with each copy, C2_XFER with
the two that reach sector 89 (R223, R226). -/
def readFlags (b : StatusBits) (n : Nat) : List (Fin 32) :=
  if n < 85 then [b.dataRq] else if n = 88 ∨ n = 89 then [b.c2Xfer] else []

/-- CMD_STATUS as pump `n + 1` of a one-block read leaves it, but for BM_INT (R220, R223, R226). -/
def readStatus (t : State) (n : Nat) : Word :=
  (t.reg .cmdStatus &&& ~~~bitMask [t.params.statusBits.dataRq, t.params.statusBits.c2Xfer]) |||
    bitMask (readFlags t.params.statusBits n)

/-- The BM status as pump `n + 1` of a one-block read leaves it: the gap clears RUNNING (R228). -/
def readBm (t : State) (n : Nat) : Word :=
  if n = 90 then t.reg .bmStatusCtl &&& ~~~bitMask [t.params.bmStatusBits.running] else t.reg .bmStatusCtl

/-- What pump `n + 1` of a one-block read leaves of the state `t` before it, where the two buffers then hold `ds` and `c2`
(R221 to R228). -/
def readPumped (t : State) (n : Nat) (ds c2 : Memory) : State :=
  { pumped t (min (n + 1) 89) 0 (readStatus t n) (readBm t n) [] with
    ds := ds
    c2 := c2
    session := { t.session with currentBlock := 0, skip89 := decide (90 ≤ n + 1) } }

theorem eq_readPumped {t : State} {n k : Nat} {ds c2 : Memory} {st bm : Word} {skip : Bool} (hk : k = min (n + 1) 89)
    (hst : st = readStatus t n) (hbm : bm = readBm t n) (hskip : skip = decide (90 ≤ n + 1)) :
    { pumped t k 0 st bm [] with
      ds := ds, c2 := c2, session := { t.session with currentBlock := 0, skip89 := skip } } = readPumped t n ds c2 := by
  rw [hk, hst, hbm, hskip, readPumped]

theorem reg_readPumped (t : State) (n : Nat) (ds c2 : Memory) (r : Reg) : (readPumped t n ds c2).reg r =
    (pumped t (min (n + 1) 89) 0 (readStatus t n) (readBm t n) []).reg r := rfl

theorem testBit_readBm (t : State) (n : Nat) (i : Fin 32) : testBit (readBm t n) i =
    (testBit (t.reg .bmStatusCtl) i && !decide (n = 90 ∧ i = t.params.bmStatusBits.running)) := by
  unfold readBm
  split
  case isTrue h =>
    rw [testBit_and_not_bitMask]
    simp [h]
  case isFalse h => simp [h]

theorem readBm_of_ne {t : State} {n : Nat} (h : n ≠ 90) : readBm t n = t.reg .bmStatusCtl := if_neg h

/-- The state of a one-block read after `n` pumps from `s`, but for what the host finds in CMD_STATUS and the buffers. -/
structure ReadRun (s : State) (n : Nat) (t : State) : Prop where
  fault   : t.fault = none
  pos     : At t (min n 89) 0
  params  : t.params = s.params
  img     : t.img = s.img
  special : ¬IplCase t 0
  session : t.session = { s.session with currentBlock := 0, skip89 := decide (90 ≤ n) }
  block   : testBit (t.reg .bmStatusCtl) s.params.bmStatusBits.block = false
  running : testBit (t.reg .bmStatusCtl) s.params.bmStatusBits.running = decide (n ≤ 90)
  ds      : t.ds.wf
  trace   : t.trace = s.trace ++ List.replicate n .signal

namespace ReadRun

variable {s t : State} {n : Nat}

theorem slot_eq (h : ReadRun s n t) (j : Nat) : slot t 0 j = slot s 0 j := by
  simp only [slot, h.session]

/-- Each pump of the run does one arm, and the copies bring the slots in order (R223 to R228). -/
theorem pump_eq_readPumped (h : ReadRun s n t) (hmode : s.session.modeRead = true)
    (hfits : slot s 0 84 + sectorSize s.session.zone ≤ s.img.size) (hn : n < 91) :
    ∃ ds c2, ds.wf ∧ pump t = readPumped t n ds c2 ∧
      (n < 85 → ∀ i, i < sectorSize s.session.zone → ds.read i = s.img.bytes.read (slot s 0 n + i)) := by
  have hmode' : t.session.modeRead = true := by rw [h.session, hmode]
  have hskip : t.session.skip89 = decide (90 ≤ n) := by rw [h.session]
  have hblock : (t.reg .bmStatusCtl).getLsbD t.params.bmStatusBits.block = false := h.params ▸ h.block
  obtain ⟨hcopy, hadvance, hecc, hback, -, hgap, -⟩ :=
    pumpReadArms t (min n 89) 0 h.fault h.pos hmode' h.ds h.special
  have hcases : n < 85 ∨ (85 ≤ n ∧ n < 88) ∨ n = 88 ∨ n = 89 ∨ n = 90 := by omega
  obtain hlt | ⟨hlo, hhi⟩ | h88 | h89 | h90 := hcases
  · have hmin : min n 89 = n := by omega
    have hzone : t.session.zone = s.session.zone := by rw [h.session]
    have hinside : slot t 0 n + sectorSize t.session.zone ≤ t.img.size := by
      have hle : slot s 0 n ≤ slot s 0 84 := by
        unfold slot
        gcongr
        omega
      rw [h.slot_eq, hzone, h.img]
      omega
    rw [hmin] at hcopy
    obtain ⟨ds, hds, hread, hpump⟩ := hcopy hlt hinside
    refine ⟨ds, t.c2, hds, hpump.trans (eq_readPumped (by omega) ?_ (readBm_of_ne (by omega)).symm ?_), fun _ i hi => ?_⟩
    · simp [readStatus, readFlags, hlt]
    · rw [hskip, decide_eq_decide]
      omega
    · rw [hread, hzone, if_pos hi, h.img, h.slot_eq]
  · have hmin : min n 89 = n := by omega
    have hpump := hadvance (by omega) (by omega)
    rw [hmin] at hpump
    refine ⟨t.ds, t.c2, h.ds, hpump.trans (eq_readPumped (by omega) ?_ (readBm_of_ne (by omega)).symm ?_),
      fun hlt => by omega⟩
    · simp [readStatus, readFlags, show ¬n < 85 by omega, show ¬(n = 88 ∨ n = 89) by omega]
    · rw [hskip, decide_eq_decide]
      omega
  · obtain ⟨c2, -, hpump⟩ := hecc (by omega)
    rw [show 89 = min (n + 1) 89 by omega] at hpump
    refine ⟨t.ds, c2, h.ds, hpump.trans (eq_readPumped rfl ?_ (readBm_of_ne (by omega)).symm ?_), fun hlt => by omega⟩
    · simp [readStatus, readFlags, h88]
    · rw [hskip, decide_eq_decide]
      omega
  · obtain ⟨c2, -, hpump⟩ := hback (by omega) (by rw [hskip, decide_eq_false (by omega)])
    rw [show 89 = min (n + 1) 89 by omega] at hpump
    refine ⟨t.ds, c2, h.ds, hpump.trans (eq_readPumped rfl ?_ (readBm_of_ne (by omega)).symm ?_), fun hlt => by omega⟩
    · simp [readStatus, readFlags, h89]
    · rw [decide_eq_true (by omega)]
  · have hpump := hgap (by omega) (by rw [hskip, decide_eq_true (by omega)]) hblock
    rw [show 89 = min (n + 1) 89 by omega] at hpump
    refine ⟨t.ds, t.c2, h.ds, hpump.trans (eq_readPumped rfl ?_ (if_pos h90).symm ?_), fun hlt => by omega⟩
    · simp [readStatus, readFlags, h90]
    · rw [hskip, decide_eq_decide]
      omega

theorem next (h : ReadRun s n t) {ds c2 : Memory} (hds : ds.wf) : ReadRun s (n + 1) (readPumped t n ds c2) where
  fault := by rw [readPumped, pumped, h.fault]
  pos := by
    have hat := at_pumped t (show min (n + 1) 89 < 90 by omega) (b := 0) (readStatus t n) (readBm t n) []
    exact (at_congr (reg_readPumped ..) (by rw [session_pumped, readPumped]) _ _).mpr hat
  params := by rw [readPumped, pumped, h.params]
  img := by rw [readPumped, pumped, h.img]
  special := by
    have hipl : (readPumped t n ds c2).ipl = t.ipl := by rw [readPumped, pumped]
    rw [IplCase, reg_readPumped, reg_curTk_pumped, hipl]
    exact h.special
  session := by rw [readPumped, h.session]
  block := by
    rw [reg_readPumped, reg_bmStatusCtl_pumped, testBit_readBm, h.block, Bool.false_and]
  running := by
    rw [reg_readPumped, reg_bmStatusCtl_pumped, testBit_readBm, h.running, h.params, ← decide_not, ← Bool.decide_and,
      decide_eq_decide]
    simp only [and_true]
    omega
  ds := hds
  trace := by
    rw [readPumped, pumped, h.trace, List.replicate_succ']
    simp
end ReadRun

/-- A one-block read, pump after pump: the run, and the pump that continues it. -/
theorem readRun_iterate {s : State} (hf : s.fault = none) (hat : At s 0 0) (hmode : s.session.modeRead = true)
    (hskip : s.session.skip89 = false) (hblock : (s.reg .bmStatusCtl).getLsbD s.params.bmStatusBits.block = false)
    (hrun : (s.reg .bmStatusCtl).getLsbD s.params.bmStatusBits.running = true) (hds : s.ds.wf) (hcase : ¬IplCase s 0)
    (hfits : slot s 0 84 + sectorSize s.session.zone ≤ s.img.size) {n : Nat} (hn : n ≤ 91) :
    ReadRun s n (pump^[n] s) := by
  induction n with
  | zero =>
    have hsession : s.session = { s.session with currentBlock := 0, skip89 := false } := by
      rw [← hskip, ← currentBlock_of_at_zero hat]
    exact ⟨hf, hat, rfl, rfl, hcase, hsession, hblock, hrun, hds, (List.append_nil _).symm⟩
  | succ n ih =>
    obtain ⟨ds, c2, hwf, hpump, -⟩ := (ih (by omega)).pump_eq_readPumped hmode hfits (by omega)
    rw [Function.iterate_succ_apply', hpump]
    exact (ih (by omega)).next hwf

section

variable {b : StatusBits} (hbits : b.wf) (n : Nat)

include hbits

theorem dataRq_mem_readFlags : b.dataRq ∈ readFlags b n ↔ n < 85 := by
  have hne : b.dataRq ≠ b.c2Xfer := mt (StatusFlag.bit_inj hbits (f := .dataRq) (g := .c2Xfer) (by decide) (by decide)).mp
    (by decide)
  unfold readFlags
  split_ifs <;> simp [*]

theorem c2Xfer_mem_readFlags : b.c2Xfer ∈ readFlags b n ↔ n = 88 ∨ n = 89 := by
  have hne : b.c2Xfer ≠ b.dataRq := mt (StatusFlag.bit_inj hbits (f := .c2Xfer) (g := .dataRq) (by decide) (by decide)).mp
    (by decide)
  unfold readFlags
  split_ifs
  · simp only [List.mem_singleton, hne, false_iff]
    omega
  · simp [*]
  · simp [*]

end

/-- A flag that the read branch clears first shows in CMD_STATUS whether its arm set it (R220). -/
theorem testBit_readStatus {t : State} {n : Nat} (hbits : t.params.statusBits.wf) {f : StatusFlag}
    (hf : f ∈ [StatusFlag.dataRq, .c2Xfer]) :
    testBit (readStatus t n ||| bitMask [t.params.statusBits.bmInt]) (f.bit t.params.statusBits) = true ↔
      f.bit t.params.statusBits ∈ readFlags t.params.statusBits n := by
  have hused : [StatusFlag.dataRq, .c2Xfer] ⊆ StatusFlag.used := by decide
  have hint : f.bit t.params.statusBits ≠ t.params.statusBits.bmInt := by
    rintro h
    obtain rfl := (StatusFlag.bit_inj hbits (g := .bmInt) (hused hf) (by decide)).mp h
    exact absurd hf (by decide)
  have hcleared : f.bit t.params.statusBits ∈ [t.params.statusBits.dataRq, t.params.statusBits.c2Xfer] :=
    List.mem_map_of_mem (f := fun g => StatusFlag.bit g t.params.statusBits) hf
  rw [testBit_or_bitMask, readStatus, testBit_or_bitMask, testBit_and_not_bitMask, decide_eq_true hcleared]
  simp [hint]

/-- Settles O48: each pump of the run is one arm of the read branch, which says what the host finds after it. -/
theorem readTransferTakes91Pumps : Obligations.ReadTransferTakes91Pumps := by
  intro s hf hbits hat hmode hskip hblock hrun hds hcase hfits p
  have run {n : Nat} (hn : n ≤ 91) : ReadRun s n (p n) :=
    readRun_iterate hf hat hmode hskip hblock hrun hds hcase hfits hn
  have left {n : Nat} (hn : n < 91) : ∃ ds c2, p (n + 1) = readPumped (p n) n ds c2 ∧
      (n < 85 → ∀ i, i < sectorSize s.session.zone → ds.read i = s.img.bytes.read (slot s 0 n + i)) := by
    obtain ⟨ds, c2, -, hpump, hread⟩ := (run hn.le).pump_eq_readPumped hmode hfits hn
    exact ⟨ds, c2, (Function.iterate_succ_apply' pump n s).trans hpump, hread⟩
  have status {n : Nat} (hn : n < 91) {f : StatusFlag} (h : f ∈ [StatusFlag.dataRq, .c2Xfer]) :
      testBit ((p (n + 1)).reg .cmdStatus) (f.bit s.params.statusBits) = true ↔
        f.bit s.params.statusBits ∈ readFlags s.params.statusBits n := by
    obtain ⟨ds, c2, hp, -⟩ := left hn
    have hparams := (run hn.le).params
    rw [hp, reg_readPumped, reg_cmdStatus_pumped, ← hparams]
    exact testBit_readStatus (hparams ▸ hbits) h
  have dataRq {n : Nat} (hn : n < 91) := (status hn (f := .dataRq) (by decide)).trans (dataRq_mem_readFlags hbits n)
  have c2Xfer {n : Nat} (hn : n < 91) := (status hn (f := .c2Xfer) (by decide)).trans (c2Xfer_mem_readFlags hbits n)
  refine ⟨fun n hn => ⟨(run hn).fault, ?_⟩, fun n hn => ⟨(dataRq (by omega)).mpr hn, ?_⟩, fun n hlo hn => ?_,
    fun n hn => c2Xfer hn, fun n hn => ?_, fun n hn => ?_, (run le_rfl).trace⟩
  · exact Nat.min_def ▸ (run hn).pos
  · obtain ⟨ds, c2, hp, hread⟩ := left (show n < 91 by omega)
    rw [hp]
    exact hread hn
  · exact Bool.eq_false_iff.mpr fun h => absurd ((dataRq hn).mp h) (by omega)
  · exact (Bool.eq_iff_iff.mp (run hn).running).trans decide_eq_true_iff
  · rw [(run hn).session]
    exact decide_eq_true_iff

end Sys2Proof.Machine
end

section
/-! SUPPORT. What an operation can do, by its kind: a command, a plain access, a status read or a BM-control write; and the
proofs of what follows: the faults, what moves a transfer, and the trace (10_state.md R22, R36, R40, 60_exceptions.md R271). -/

namespace Sys2Proof.Machine

open Spec

/-! ## The kinds of operation -/

/-- What an access that is neither a command nor reaches the buffer manager does before it answers: nothing, a generic
register write, a buffer write, or the hard-reset fault (40_mmio_dispatch.md R121 to R135). -/
inductive PlainUpdate (s : State) : Instr → State → Prop where
  | keep (i : Instr) : PlainUpdate s i s
  | reg (r : Reg) (word mask : Word) (h : s.params.bus.isGeneric r = true) :
    PlainUpdate s (.regWrite r word mask) (s.setReg r ((s.reg r).masked word mask))
  | c2 (i : Instr) (m : Memory) : PlainUpdate s i { s with c2 := m }
  | ds (i : Instr) (m : Memory) : PlainUpdate s i { s with ds := m }
  | ms (i : Instr) (m : Memory) : PlainUpdate s i { s with ms := m }
  | hardReset (word : Word) (h : word ≠ s.params.hardResetMagic) :
    PlainUpdate s (.hardResetWrite word) (s.raise (.hardResetWord word))

/-- A completed plain access is a plain update and the answer. -/
def PlainAccess (s : State) (i : Instr) (t : State) : Prop := ∃ u v, PlainUpdate s i u ∧ t = u.reply v

section

variable {s t : State} {i : Instr}

theorem plainAccess_of_readOp {v : Word} (h : s.readOp v = .next t) : PlainAccess s i t :=
  ⟨s, some v, .keep i, (State.readOp_next.mp h).2⟩

theorem plainAccess_of_writeOp {body : State → State} (h : s.writeOp body = .next t) (hb : PlainUpdate s i (body s)) :
    PlainAccess s i t :=
  ⟨body s, none, hb, (State.writeOp_next.mp h).2⟩

theorem plainAccess_of_iplRead {off : Nat} (h : execIplRead off s = .next t) : PlainAccess s i t := by
  obtain ⟨-, -, h⟩ := State.atOffset_next.mp h
  split at h
  · exact plainAccess_of_readOp h
  · split at h
    · cases h
    · exact plainAccess_of_readOp h

theorem plainUpdate_hardReset (s : State) (word : Word) : PlainUpdate s (.hardResetWrite word)
    (if word = s.params.hardResetMagic then s else s.raise (.hardResetWord word)) := by
  split
  · exact .keep _
  case isFalse h => exact .hardReset word h

/-- Every completed operation is of one of four kinds. -/
theorem exec_kinds (h : exec i s = .next t) :
    isCommand i = true ∨ PlainAccess s i t ∨
      (i = .statusRead ∧ t = (statusReadSideEffect s).reply (some (s.reg .cmdStatus))) ∨
      ∃ word, i = .bmctlWrite word ∧ t = (bmControl word s).reply none := by
  cases i <;> simp only [exec] at h
  case regRead r =>
    obtain ⟨-, -, h⟩ := State.ifWellFormed_next.mp h
    exact .inr (.inl (plainAccess_of_readOp h))
  case statusRead =>
    obtain ⟨-, h⟩ := State.operate_next.mp h
    exact .inr (.inr (.inl ⟨rfl, (Host.Outcome.next.inj h).symm⟩))
  case regWrite r word mask =>
    obtain ⟨-, hr, h⟩ := State.ifWellFormed_next.mp h
    exact .inr (.inl (plainAccess_of_writeOp h (.reg r word mask hr)))
  case regWriteRo r word mask =>
    obtain ⟨-, -, h⟩ := State.ifWellFormed_next.mp h
    exact .inr (.inl (plainAccess_of_writeOp h (.keep _)))
  case bmctlWrite word => exact .inr (.inr (.inr ⟨word, rfl, (State.writeOp_next.mp h).2⟩))
  case hardResetWrite word => exact .inr (.inl (plainAccess_of_writeOp h (plainUpdate_hardReset s word)))
  case c2Read off | dsRead off | msRead off =>
    obtain ⟨-, -, h⟩ := State.atOffset_next.mp h
    exact .inr (.inl (plainAccess_of_readOp h))
  case c2Write off word mask =>
    obtain ⟨-, -, h⟩ := State.atOffset_next.mp h
    exact .inr (.inl (plainAccess_of_writeOp h (.c2 _ _)))
  case dsWrite off word mask =>
    obtain ⟨-, -, h⟩ := State.atOffset_next.mp h
    exact .inr (.inl (plainAccess_of_writeOp h (.ds _ _)))
  case msWrite off word mask =>
    obtain ⟨-, -, h⟩ := State.atOffset_next.mp h
    exact .inr (.inl (plainAccess_of_writeOp h (.ms _ _)))
  case iplRead off => exact .inr (.inl (plainAccess_of_iplRead h))
  case iplWrite off word mask =>
    obtain ⟨-, -, h⟩ := State.atOffset_next.mp h
    exact .inr (.inl (plainAccess_of_writeOp h (.keep _)))
  all_goals exact .inl rfl

end

/-! ## What moves a transfer -/

/-- A plain access moves nothing of the transfer but the sector register, and that only as a generic write of it. -/
theorem transfer_of_plainAccess {s t : State} {i : Instr} (h : PlainAccess s i t) :
    ((t.reg .curSector = s.reg .curSector) ∨
      (s.params.bus.isGeneric .curSector = true ∧ ∃ word mask, i = .regWrite .curSector word mask)) ∧
    t.reg .bmStatusCtl = s.reg .bmStatusCtl ∧ t.session = s.session ∧ t.img = s.img := by
  obtain ⟨u, v, hu, rfl⟩ := h
  simp only [State.reg_reply, State.session_reply, State.img_reply]
  cases hu with
  | reg r word mask h =>
    have hctl : Reg.bmStatusCtl ≠ r := by
      rintro rfl
      simp [BusMap.isGeneric] at h
    refine ⟨?_, by rw [State.reg_setReg, if_neg hctl], rfl, rfl⟩
    obtain rfl | hne := eq_or_ne r .curSector
    · exact .inr ⟨h, word, mask, rfl⟩
    · exact .inl (by rw [State.reg_setReg, if_neg hne.symm])
  | _ => exact ⟨.inl rfl, rfl, rfl, rfl⟩

theorem notMem_readOnlyRegs_of_isGeneric {b : BusMap} {r : Reg} (h : b.isGeneric r = true) : r ∉ b.readOnlyRegs := by
  intro hro
  simp [BusMap.isGeneric, hro] at h

/-- Settles O57: a command keeps all of the transfer, and a plain access all but a sector register that the host can
write. -/
theorem onlyTwoOperationsMoveTransfer : Obligations.OnlyTwoOperationsMoveTransfer := by
  intro s t i h hstatus hctl
  obtain hc | hplain | ⟨hread, -⟩ | ⟨word, hwrite, -⟩ := exec_kinds h
  · have k := commandKept_of_exec hc h
    have hsector := k.reg .curSector (by decide)
    exact ⟨fun _ => hsector, fun _ => hsector, k.reg .bmStatusCtl (by decide), k.block, k.skip, k.hold, k.img⟩
  · obtain ⟨hsector, hbm, hsession, himg⟩ := transfer_of_plainAccess hplain
    refine ⟨fun hno => ?_, fun hro => ?_, hbm, by rw [hsession], by rw [hsession], by rw [hsession], himg⟩
    · obtain hsame | ⟨-, word, mask, rfl⟩ := hsector
      · exact hsame
      · exact absurd rfl (hno word mask)
    · obtain hsame | ⟨hgeneric, -⟩ := hsector
      · exact hsame
      · exact absurd hro (notMem_readOnlyRegs_of_isGeneric hgeneric)
  · exact absurd hread hstatus
  · exact absurd hwrite (hctl word)

/-! ## The faults -/

/-- A plain access faults only as a hard-reset write of another word than the magic one (R129). -/
theorem fault_of_plainAccess {s t : State} {i : Instr} (h : PlainAccess s i t) :
    t.fault = s.fault ∨
      ∃ word, i = .hardResetWrite word ∧ word ≠ s.params.hardResetMagic ∧ t.fault = some (.hardResetWord word) := by
  obtain ⟨u, v, hu, rfl⟩ := h
  rw [State.fault_reply]
  cases hu with
  | hardReset word h => exact .inr ⟨word, rfl, h, rfl⟩
  | _ => exact .inl rfl

/-- From some state a pump finds a position. -/
theorem exists_at (s : State) : ∃ k b, At s k b := by
  unfold At
  split
  · exact ⟨_, _, rfl, rfl⟩
  · exact ⟨_, _, rfl, rfl⟩

/-- In write mode without `WRITE_PERSIST` a pump raises no fault (R218). -/
theorem fault_pump_of_no_persist {s : State} (hf : s.fault = none) (hmode : s.session.modeRead = false)
    (hp : s.params.writePersist = false) : (pump s).fault = none := by
  obtain ⟨k, b, hat⟩ := exists_at s
  have hpumped (k' : Nat) (b' : Fin 2) (st bm : Word) (evs : List Event) : (pumped s k' b' st bm evs).fault = none := by
    rw [pumped, hf]
  obtain ⟨hzero, hpast, harms⟩ := pumpWriteArms s k b hf hat hmode
  obtain ⟨hadvance, hblock, hend⟩ := harms hp
  obtain h | ⟨h0, h85⟩ | h | h : k = 0 ∨ (1 ≤ k ∧ k < 85) ∨ k = 85 ∨ 86 ≤ k := by omega
  · rw [hzero h, hpumped]
  · rw [hadvance h0 h85, hpumped]
  · cases hbit : (s.reg .bmStatusCtl).getLsbD s.params.bmStatusBits.block with
    | true => rw [hblock h hbit, hpumped]
    | false => rw [hend h hbit, hpumped]
  · rw [hpast h, hpumped]

/-- A commit is its event, and under `WRITE_PERSIST` the payload stored where it fits the image or else the fault
(R218). -/
theorem commitSector_cases (k : Nat) (s : State) :
    let off := s.slotOffset (k - 1)
    let payload := s.ds.slice 0 s.sectorBytes
    let told := s.emit (.commit (BitVec.ofNat 32 off) payload)
    commitSector k s = told ∨
      (off + payload.length ≤ s.img.size ∧
        commitSector k s = { told with img := { s.img with bytes := s.img.bytes.store off payload } }) ∨
      (s.img.size < off + payload.length ∧ commitSector k s = told.raise (.diskRange off payload.length)) := by
  intro off payload told
  rw [commitSector, persistCommit]
  split_ifs with hp hover
  · exact .inr (.inr ⟨hover, rfl⟩)
  · exact .inr (.inl ⟨Nat.not_lt.mp hover, rfl⟩)
  · exact .inl rfl

/-- The fault of a pump is a range of the disk image that reaches past its end (R218, R224). -/
def PumpFault (s : State) (f : Fault) : Prop := ∃ off len, f = .diskRange off len ∧ off + len > s.img.size

/-- What faults a pump can leave recorded (R271). -/
theorem fault_pump {s : State} (hf : s.fault = none) : ∀ f, (pump s).fault = some f → PumpFault s f := by
  have both : (pump s).img.size = s.img.size ∧ ∀ f, (pump s).fault = some f → PumpFault s f := by
    apply pump_ind (P := fun t => t.img.size = s.img.size ∧ ∀ f, t.fault = some f → PumpFault s f)
    case hs => exact ⟨rfl, fun f h => by rw [hf] at h; cases h⟩
    case commit =>
      rintro k t ⟨hsize, hfault⟩
      obtain h | ⟨-, h⟩ | ⟨hover, h⟩ := commitSector_cases k t <;> rw [h]
      · exact ⟨hsize, hfault⟩
      · exact ⟨hsize, hfault⟩
      · exact ⟨hsize, fun f hf => ⟨_, _, (Option.some.inj hf).symm, hsize ▸ hover⟩⟩
    case copy =>
      rintro k t ⟨hsize, hfault⟩
      obtain hfits | hover := le_or_gt (t.slotOffset k + t.sectorBytes) t.img.size
      · rw [copySector_of_le hfits]
        exact ⟨hsize, hfault⟩
      · rw [copySector_of_lt hover]
        exact ⟨hsize, fun f hf => ⟨_, _, (Option.some.inj hf).symm, hsize ▸ hover⟩⟩
    case sector =>
      intro t k b h
      rwa [State.img_setReg, State.fault_setReg]
    all_goals intros; assumption
  exact both.2

/-- Steps 1 to 6 of a BM-control write raise no fault, do not touch the image and turn no write transfer into a read
(R259). -/
theorem bmPrepared_frame (w : Word) (s : State) :
    (started (bmPrepared w s)).fault = s.fault ∧ (started (bmPrepared w s)).img = s.img ∧
      (started (bmPrepared w s)).params = s.params ∧
      ((started (bmPrepared w s)).session.modeRead = true → s.session.modeRead = true) := by
  refine ⟨rfl, rfl, rfl, fun h => ?_⟩
  have hmode : (bmPrepared w s).session.modeRead = true := h
  rw [session_bmPrepared] at hmode
  unfold edgeSession at hmode
  split_ifs at hmode
  · cases hmode
  · exact hmode
  · exact hmode

/-- A status read pumps past the sectors, or has no side effect (R122). -/
theorem statusReadSideEffect_cases (s : State) : statusReadSideEffect s = s ∨
    ∃ k b, At s k b ∧ 85 < k ∧ statusReadSideEffect s = pump (gapEntry s) := by
  obtain ⟨k, b, hat⟩ := exists_at s
  by_cases hgap : s.status .bmInt = true ∧ 85 < k
  · exact .inr ⟨k, b, hat, hgap.2, statusReadSideEffect_of_gap hgap.1 (by rw [inBlock_of_at hat]; exact hgap.2)⟩
  · refine .inl (statusReadSideEffect_of_no_gap ?_)
    rw [inBlock_of_at hat, ← Bool.not_eq_true, ← Nat.not_lt]
    exact not_and_or.mp hgap

/-- Settles O55: only the hard-reset write and the pump record a fault, and a pump past the sectors, which is all that a
status read does, records none. -/
theorem onlyTwoOperationsFault : Obligations.OnlyTwoOperationsFault := by
  intro s t i f h hfault
  have hf := exec_next_unfaulted h
  have clean {u : State} (hu : u.fault = s.fault) (hleft : u.fault = some f) : False := by
    rw [hu, hf] at hleft
    cases hleft
  obtain hc | hplain | ⟨-, rfl⟩ | ⟨word, rfl, rfl⟩ := exec_kinds h
  · exact (clean (commandKept_of_exec hc h).fault hfault).elim
  · obtain hsame | ⟨word, rfl, hword, hraised⟩ := fault_of_plainAccess hplain
    · exact (clean hsame hfault).elim
    · exact .inl ⟨word, rfl, hword, Option.some.inj (hfault.symm.trans hraised)⟩
  · rw [State.fault_reply] at hfault
    obtain hsame | ⟨k, b, hat, hk, hpump⟩ := statusReadSideEffect_cases s
    · exact (clean (by rw [hsame]) hfault).elim
    · obtain ⟨hnone, -⟩ := pump_past_sectors ((fault_gapEntry s).trans hf) ((at_gapEntry s k b).mpr hat) hk
      rw [hpump, hnone] at hfault
      cases hfault
  · right
    rw [State.fault_reply, bmControl_eq] at hfault
    obtain ⟨hsame, himg, hparams, hmode⟩ := bmPrepared_frame word s
    split at hfault
    case isFalse => exact (clean (u := bmPrepared word s) rfl hfault).elim
    case isTrue hstart =>
      obtain ⟨off, len, rfl, hover⟩ := fault_pump (hsame.trans hf) f hfault
      refine ⟨word, off, len, rfl, hstart, rfl, himg ▸ hover, ?_⟩
      by_contra hno
      obtain ⟨hwrite, hp⟩ := not_or.mp hno
      have hnone := fault_pump_of_no_persist (hsame.trans hf) (Bool.eq_false_iff.mpr fun h => hwrite (hmode h))
        (by rw [hparams]; exact Bool.eq_false_iff.mpr hp)
      rw [hnone] at hfault
      cases hfault

/-! ## The trace -/

theorem trace_bmTrailingEdge (s : State) : (bmTrailingEdge s).trace = s.trace := by
  rw [bmTrailingEdge_eq_controlled, controlled]

/-- A pump only appends to the trace (R218, R230). -/
theorem prefix_trace_pump {tr : List Event} {s : State} (h : tr <+: s.trace) : tr <+: (pump s).trace := by
  apply pump_ind (P := fun t => tr <+: t.trace)
  case hs => exact h
  case commit =>
    intro k t ht
    obtain h | ⟨-, h⟩ | ⟨-, h⟩ := commitSector_cases k t <;> rw [h] <;> exact ht.trans (List.prefix_append ..)
  case copy =>
    intro k t ht
    obtain hfits | hover := le_or_gt (t.slotOffset k + t.sectorBytes) t.img.size
    · rw [copySector_of_le hfits]
      exact ht
    · rw [copySector_of_lt hover]
      exact ht
  case signal =>
    intro t ht
    exact ht.trans (List.prefix_append ..)
  case sector =>
    intro t k b ht
    rwa [State.trace_setReg]
  all_goals intros; assumption

/-- Every update that operations are made of only appends to the trace (R40). -/
theorem kept_prefix_trace (tr : List Event) : Kept fun t => tr <+: t.trace := by
  constructor
  case pump => exact fun _ => prefix_trace_pump
  case edge =>
    intro t ht
    rwa [trace_bmTrailingEdge]
  case clock =>
    intro t kind ht
    rw [State.trace_emit, State.trace_clockDrawn]
    exact ht.trans (List.prefix_append ..)
  case sector =>
    intro t w ht
    rwa [bmSector, State.trace_setBlock, State.trace_setReg]
  case signal | release =>
    intro t ht
    exact ht.trans (List.prefix_append ..)
  all_goals intros; assumption

/-- Settles O56: every update of a step only appends to the trace. -/
theorem traceOnlyGrows : Obligations.TraceOnlyGrows :=
  fun s _ h => (kept_prefix_trace s.trace).step h (List.prefix_refl _)

end Sys2Proof.Machine
end

section
/-! SUPPORT. Proofs of the statements about the invariant of the controller: it holds at construction and at reset, and each of
its parts is kept by every step (10_state.md R23 to R44, 30_encoding.md R92, R99). -/

namespace Sys2Proof.Machine

open Safety Spec

/-! ## Construction -/

theorem bitMask_and_not_of_subset {l m : List (Fin 32)} (h : l ⊆ m) : bitMask l &&& ~~~bitMask m = 0#32 := by
  have hzero := or_bitMask_and_not_of_subset h 0#32
  rwa [BitVec.zero_or, BitVec.zero_and] at hzero

/-- The power-on status word sets flags that a rule may set (R23, R300). -/
theorem neverSetClear_construct (c : Construction) : NeverSetClear (State.construct c) := by
  rw [NeverSetClear, reg_cmdStatus_construct]
  split
  · exact bitMask_and_not_of_subset (by simp [settable, State.construct])
  · exact bitMask_and_not_of_subset (by simp [settable, State.construct])

/-- The power-on status word shows whether a disk is present: DISK_PRES is neither of the other two flags (R44, R93). -/
theorem diskPresOk_construct {c : Construction} (hbits : c.params.statusBits.wf) : DiskPresOk (State.construct c) := by
  have other {f : StatusFlag} (hf : f ∈ StatusFlag.used) (hne : StatusFlag.diskPres ≠ f) :
      c.params.statusBits.diskPres ≠ f.bit c.params.statusBits :=
    mt (StatusFlag.bit_inj hbits (f := .diskPres) (by decide) hf).mp hne
  have hmtr := other (f := .mtrNSpin) (by decide) (by decide)
  have hhead := other (f := .headRtrct) (by decide) (by decide)
  rw [DiskPresOk, State.status, reg_cmdStatus_construct]
  split
  case isTrue h =>
    refine (testBit_bitMask _ _).trans ?_
    rw [decide_eq_decide]
    simp [StatusFlag.bit, State.construct, h]
  case isFalse h =>
    refine (testBit_bitMask _ _).trans ?_
    rw [decide_eq_decide]
    simp only [StatusFlag.bit] at hmtr hhead
    simp [StatusFlag.bit, State.construct, h, hmtr, hhead]

/-- Settles O52: the register of the block-0 sector agrees with block 0, and every other part is the construction's own. -/
theorem constructionMeetsInvariant : Obligations.ConstructionMeetsInvariant := by
  rintro c ⟨hwf, hc2, hds, hms, himg, hrom, hothers, hword, hsector⟩
  refine ⟨hwf, ⟨hc2, hds, hms, himg, hrom⟩, hothers, fun _ => ⟨?_, hword⟩, neverSetClear_construct c,
    diskPresOk_construct hwf.2.1, fun _ => rfl⟩
  exact (if_neg (Nat.not_le.mpr hsector)).symm

/-- Settles O50: the bare construction is canonical. -/
theorem resetMeetsInvariant : Obligations.ResetMeetsInvariant :=
  constructionMeetsInvariant Construction.bare ⟨Params.default_wf, by decide⟩

/-! ## Memories -/

/-- The memories are in canonical form and in bounds, under a bus map whose host buffer holds the largest sector (D9). -/
def BuffersOk (s : State) : Prop := 232 ≤ s.params.bus.dsSize ∧ MemoriesOk s

/-- A masked write of a word inside a buffer keeps it canonical and in bounds (R133). -/
theorem putMasked_ok {m : Memory} {size off : Nat} (h : m.wf ∧ m.within size) (hoff : off + 4 ≤ size) (w mask : Word) :
    (m.putMasked off w mask).wf ∧ (m.putMasked off w mask).within size :=
  ⟨Memory.wf_putMasked h.1 _ _ _, Memory.within_store h.2 _ _ hoff⟩

theorem store_ok {m : Memory} {size off : Nat} {bs : List Byte} (h : m.wf ∧ m.within size)
    (hin : off + bs.length ≤ size) :
    (m.store off bs).wf ∧ (m.store off bs).within size :=
  ⟨Memory.wf_store h.1 _ _, Memory.within_store h.2 _ _ hin⟩

/-- A register write reaches no memory. -/
theorem buffersOk_setReg {s : State} (h : BuffersOk s) (r : Reg) (v : Word) : BuffersOk (s.setReg r v) := h

theorem buffersOk_setBlock {s : State} (h : BuffersOk s) (b : Fin 2) : BuffersOk (s.setBlock b) := h

theorem buffersOk_pump {s : State} (h : BuffersOk s) : BuffersOk (pump s) := by
  apply pump_ind (P := BuffersOk)
  case hs => exact h
  case commit =>
    rintro k t ⟨hsize, hc2, hds, hms, himg, hrom⟩
    obtain h | ⟨hfits, h⟩ | ⟨-, h⟩ := commitSector_cases k t <;> rw [h]
    · exact ⟨hsize, hc2, hds, hms, himg, hrom⟩
    · exact ⟨hsize, hc2, hds, hms, store_ok himg hfits, hrom⟩
    · exact ⟨hsize, hc2, hds, hms, himg, hrom⟩
  case copy =>
    rintro k t ⟨hsize, hc2, hds, hms, himg, hrom⟩
    obtain hfits | hover := le_or_gt (t.slotOffset k + t.sectorBytes) t.img.size
    · rw [copySector_of_le hfits]
      have hin : 0 + (t.img.bytes.slice (t.slotOffset k) t.sectorBytes).length ≤ t.params.bus.dsSize := by
        rw [Memory.length_slice, Nat.zero_add]
        exact (sectorSize_le _).trans hsize
      exact ⟨hsize, hc2, store_ok hds hin, hms, himg, hrom⟩
    · rw [copySector_of_lt hover]
      exact ⟨hsize, hc2, hds, hms, himg, hrom⟩
  case zero =>
    rintro t ⟨hsize, hc2, hrest⟩
    exact ⟨hsize, ⟨Memory.wf_zeroFill hc2.1 _ _, Memory.within_zeroFill hc2.2 _ _⟩, hrest⟩
  case sector => exact fun _ _ _ h => buffersOk_setReg h _ _
  all_goals intros; assumption

theorem kept_buffersOk : Kept BuffersOk := by
  constructor
  case pump => exact fun _ => buffersOk_pump
  case edge =>
    intro t ht
    rw [bmTrailingEdge_eq_controlled]
    exact ht
  case sector =>
    intro t w ht
    rw [bmSector]
    exact buffersOk_setBlock (buffersOk_setReg ht .curSector _) _
  case clock =>
    intro t kind ht
    unfold State.clockDrawn
    split <;> exact ht
  case c2 =>
    rintro t off w m hoff ⟨hsize, hc2, hrest⟩
    exact ⟨hsize, putMasked_ok hc2 hoff w m, hrest⟩
  case ds =>
    rintro t off w m hoff ⟨hsize, hc2, hds, hrest⟩
    exact ⟨hsize, hc2, putMasked_ok hds hoff w m, hrest⟩
  case ms =>
    rintro t off w m hoff ⟨hsize, hc2, hds, hms, hrest⟩
    exact ⟨hsize, hc2, hds, putMasked_ok hms hoff w m, hrest⟩
  all_goals intros; assumption

/-! ## Further registers -/

theorem regsOk_setReg {s : State} (h : RegsOk s) (r : Reg) (v : Word) : RegsOk (s.setReg r v) := Regs.wf_set h r v

/-- What a pump and an operation are made of writes registers by name, or none (R20). -/
theorem regsOk_pump {s : State} (h : RegsOk s) : RegsOk (pump s) := by
  apply pump_ind (P := fun t => RegsOk t)
  case hs => exact h
  case set | clear | clearBm => exact fun _ _ _ h => regsOk_setReg h _ _
  case sector => exact fun _ _ _ h => regsOk_setReg h _ _
  case commit =>
    intro k t ht
    obtain h | ⟨-, h⟩ | ⟨-, h⟩ := commitSector_cases k t <;> rw [h] <;> exact ht
  case copy =>
    intro k t ht
    obtain hfits | hover := le_or_gt (t.slotOffset k + t.sectorBytes) t.img.size
    · rw [copySector_of_le hfits]
      exact ht
    · rw [copySector_of_lt hover]
      exact ht
  all_goals intros; assumption

theorem kept_regsOk : Kept fun t => RegsOk t := by
  constructor
  case data | track | sector => exact fun _ _ h => regsOk_setReg h _ _
  case plain => exact fun _ _ _ _ h => regsOk_setReg h _ _
  case set | clear => exact fun _ _ _ h => regsOk_setReg h _ _
  case setBm | clearBm => exact fun _ _ h => regsOk_setReg h _ _
  case pump => exact fun _ => regsOk_pump
  case edge =>
    intro t ht
    rw [bmTrailingEdge_eq_controlled]
    exact Regs.wf_set (Regs.wf_set (Regs.wf_set ht _ _) _ _) _ _
  case clock =>
    intro t kind ht
    unfold State.clockDrawn
    split <;> exact ht
  all_goals intros; assumption

/-! ## The status register -/

/-- The status word has no flag that no rule sets, and shows whether a disk is present (R23, R24). -/
def StatusOk (s : State) : Prop := s.params.statusBits.wf ∧ NeverSetClear s ∧ DiskPresOk s

/-- The flags that a rule sets after construction (R23). -/
def settableFlags : List StatusFlag := [.dataRq, .c2Xfer, .bmInt, .mechaInt, .mtrNSpin, .headRtrct]

/-- DISK_PRES is none of the flags that the trailing edge of RESET clears (R252). -/
theorem diskPres_notMem_edge {b : StatusBits} (h : b.wf) : b.diskPres ∉ [b.bmInt, b.bmErr, b.dataRq, b.c2Xfer] := by
  intro hmem
  have hflag : StatusFlag.diskPres.bit b ∈ [StatusFlag.bmInt, .bmErr, .dataRq, .c2Xfer].map (·.bit b) := hmem
  obtain ⟨f, hf, hbit⟩ := List.mem_map.mp hflag
  have hused : [StatusFlag.bmInt, .bmErr, .dataRq, .c2Xfer] ⊆ StatusFlag.used := by decide
  obtain rfl := (StatusFlag.bit_inj h (hused hf) (by decide)).mp hbit
  exact absurd hf (by decide)

section

variable {s t : State} (h : StatusOk s)

include h

theorem statusOk_congr (hp : t.params = s.params) (hr : t.reg .cmdStatus = s.reg .cmdStatus)
    (hi : t.img.size = s.img.size) : StatusOk t := by
  simpa only [StatusOk, NeverSetClear, DiskPresOk, State.status, hp, hr, hi] using h

theorem statusOk_setReg {r : Reg} (hr : r ≠ .cmdStatus) (v : Word) : StatusOk (s.setReg r v) :=
  statusOk_congr h rfl (by rw [State.reg_setReg, if_neg hr.symm]) rfl

/-- Setting a flag that a rule sets keeps the status word well formed: it is not DISK_PRES. -/
theorem statusOk_setStatus {f : StatusFlag} (hf : f ∈ settableFlags) : StatusOk (s.setStatus f) := by
  obtain ⟨hbits, hclear, hdisk⟩ := h
  have hused : settableFlags ⊆ StatusFlag.used := by decide
  have hne : f.bit s.params.statusBits ≠ StatusFlag.diskPres.bit s.params.statusBits := by
    rw [Ne, StatusFlag.bit_inj hbits (hused hf) (by decide)]
    rintro rfl
    exact absurd hf (by decide)
  have hsettable : [f.bit s.params.statusBits] ⊆ settable s.params.statusBits := by
    have hmem := List.mem_map_of_mem (f := fun g => StatusFlag.bit g s.params.statusBits) hf
    have hsub : settableFlags.map (fun g => StatusFlag.bit g s.params.statusBits) ⊆ settable s.params.statusBits := by
      simp [settableFlags, settable, StatusFlag.bit]
    exact List.cons_subset.mpr ⟨hsub hmem, List.nil_subset _⟩
  refine ⟨hbits, ?_, ?_⟩
  · rw [NeverSetClear, State.reg_setStatus, if_pos rfl, State.params_setStatus, setBit_eq_or,
      or_bitMask_and_not_of_subset hsettable]
    exact hclear
  · rw [DiskPresOk, State.status_setStatus, decide_eq_false hne, Bool.or_false, State.img_setStatus]
    exact hdisk

/-- Clearing flags other than DISK_PRES keeps the status word well formed. -/
theorem statusOk_clear {l : List (Fin 32)} (hl : s.params.statusBits.diskPres ∉ l) :
    StatusOk (s.setReg .cmdStatus (s.reg .cmdStatus &&& ~~~bitMask l)) := by
  obtain ⟨hbits, hclear, hdisk⟩ := h
  refine ⟨hbits, ?_, ?_⟩
  · rw [NeverSetClear, State.reg_setReg, if_pos rfl, State.params_setReg, BitVec.and_assoc,
      BitVec.and_comm (~~~bitMask l), ← BitVec.and_assoc, hclear, BitVec.zero_and]
  · rw [DiskPresOk, State.status, State.reg_setReg, if_pos rfl, State.params_setReg, State.img_setReg,
      testBit_and_not_bitMask, decide_eq_false (show StatusFlag.diskPres.bit s.params.statusBits ∉ l from hl),
      Bool.not_false, Bool.and_true]
    exact hdisk

theorem statusOk_clearStatus {f : StatusFlag} (hf : f ∈ StatusFlag.used) (hne : f ≠ .diskPres) :
    StatusOk (s.clearStatus f) := by
  rw [State.clearStatus_eq_setReg]
  refine statusOk_clear h ?_
  rw [List.mem_singleton]
  exact mt (StatusFlag.bit_inj h.1 (f := .diskPres) (by decide) hf).mp hne.symm

theorem statusOk_pump : StatusOk (pump s) := by
  apply pump_ind (P := StatusOk)
  case hs => exact h
  case set =>
    rintro t f hf ht
    exact statusOk_setStatus ht (by obtain rfl | rfl | rfl := hf <;> decide)
  case clear =>
    rintro t f hf ht
    obtain rfl | rfl := hf
    · exact statusOk_clearStatus ht (by decide) (by decide)
    · exact statusOk_clearStatus ht (by decide) (by decide)
  case clearBm => exact fun _ _ _ ht => statusOk_setReg ht (by decide) _
  case sector => exact fun _ _ _ ht => statusOk_setReg ht (by decide) _
  case commit =>
    intro k t ht
    obtain h | ⟨-, h⟩ | ⟨-, h⟩ := commitSector_cases k t <;> rw [h] <;> exact statusOk_congr ht rfl rfl rfl
  case copy =>
    intro k t ht
    obtain hfits | hover := le_or_gt (t.slotOffset k + t.sectorBytes) t.img.size
    · rw [copySector_of_le hfits]
      exact statusOk_congr ht rfl rfl rfl
    · rw [copySector_of_lt hover]
      exact statusOk_congr ht rfl rfl rfl
  all_goals intros; exact statusOk_congr ‹_› rfl rfl rfl

/-- The trailing edge of RESET clears flags of which none is DISK_PRES (R252). -/
theorem statusOk_bmTrailingEdge : StatusOk (bmTrailingEdge s) := by
  rw [bmTrailingEdge_eq_controlled]
  refine statusOk_congr (statusOk_clear h (diskPres_notMem_edge h.1)) rfl ?_ rfl
  rw [controlled, State.reg_mk, Regs.get_set, if_pos rfl, State.reg_setReg, if_pos rfl, edgeMask]

end

theorem kept_statusOk : Kept StatusOk := by
  constructor
  case data | track => exact fun _ _ h => statusOk_setReg h (by decide) _
  case plain =>
    intro t r v hr ht
    refine statusOk_setReg ht ?_ v
    rintro rfl
    simp [BusMap.isGeneric] at hr
  case set =>
    rintro t f hf ht
    exact statusOk_setStatus ht (by obtain rfl | rfl | rfl := hf <;> decide)
  case clear =>
    rintro t f hf ht
    have hmem : f ∈ [StatusFlag.mtrNSpin, .headRtrct, .diskChng, .rstState, .mechaInt, .bmInt] := by simpa using hf
    have hused : ∀ f ∈ [StatusFlag.mtrNSpin, .headRtrct, .diskChng, .rstState, .mechaInt, .bmInt],
        f ∈ StatusFlag.used ∧ f ≠ .diskPres := by decide
    exact statusOk_clearStatus ht (hused f hmem).1 (hused f hmem).2
  case setBm | clearBm => exact fun _ _ h => statusOk_setReg h (by decide) _
  case sector =>
    intro t w h
    refine statusOk_congr h ?_ ?_ ?_ <;> rw [bmSector]
    · rw [State.params_setBlock, State.params_setReg]
    · rw [State.reg_setBlock, State.reg_setReg, if_neg (by decide)]
    · rw [State.img_setBlock, State.img_setReg]
  case pump => exact fun _ => statusOk_pump
  case edge => exact fun _ => statusOk_bmTrailingEdge
  case clock =>
    intro t kind ht
    exact statusOk_congr ht t.params_clockDrawn (t.reg_clockDrawn _) (by rw [State.img_emit, State.img_clockDrawn])
  all_goals intros; exact statusOk_congr ‹_› rfl rfl rfl

/-! ## The ID register -/

/-- Where the host cannot write the ID register, it holds the word its construction chose (R29, R92). -/
def IdKept (s : State) : Prop := .idReg ∈ s.params.bus.readOnlyRegs → IdOk s

theorem idKept_congr {s t : State} (h : IdKept s) (hp : t.params = s.params) (hi : t.ipl = s.ipl)
    (hr : t.reg .idReg = s.reg .idReg) : IdKept t := by
  simpa only [IdKept, IdOk, hp, hi, hr] using h

theorem idKept_setReg {s : State} (h : IdKept s) {r : Reg} (hr : .idReg ≠ r) (v : Word) : IdKept (s.setReg r v) :=
  idKept_congr h rfl rfl (by rw [State.reg_setReg, if_neg hr])

theorem kept_idKept : Kept IdKept := by
  constructor
  case data | track => exact fun _ _ h => idKept_setReg h (by decide) _
  case plain =>
    intro t r v hr h
    obtain rfl | hne := eq_or_ne r .idReg
    · exact fun hro => absurd hro (notMem_readOnlyRegs_of_isGeneric hr)
    · exact idKept_setReg h hne.symm v
  case set | clear => exact fun _ _ _ h => idKept_setReg h (by decide) _
  case setBm | clearBm => exact fun _ _ h => idKept_setReg h (by decide) _
  case sector =>
    intro t w h
    refine idKept_congr h ?_ ?_ ?_ <;> rw [bmSector]
    · rw [State.params_setBlock, State.params_setReg]
    · rw [State.ipl_setBlock, State.ipl_setReg]
    · rw [State.reg_setBlock, State.reg_setReg, if_neg (by decide)]
  case pump =>
    intro t h
    obtain ⟨hp, -, hi, -⟩ := pump_frame t
    exact idKept_congr h hp hi (pump_reg t (by decide) (by decide) (by decide))
  case edge =>
    intro t h
    rw [bmTrailingEdge_eq_controlled]
    refine idKept_congr h rfl rfl ?_
    rw [controlled, State.reg_mk, Regs.get_set, if_neg (by decide), Regs.get_set, if_neg (by decide), Regs.get_set,
      if_neg (by decide), State.reg]
  case clock =>
    intro t kind h
    refine idKept_congr h ?_ ?_ ?_
    · rw [State.params_emit, State.params_clockDrawn]
    · rw [State.ipl_emit, State.ipl_clockDrawn]
    · rw [State.reg_emit, State.reg_clockDrawn]
  all_goals intros; exact idKept_congr ‹_› rfl rfl rfl

/-! ## The block and the sector register -/

/-- The block is that of the sector register, which holds an 8-bit sector number and nothing else (R36, R99). -/
def SectorOk (s : State) : Prop := BlockAgrees s ∧ SectorWordOk s

theorem sectorOk_congr {s t : State} (h : SectorOk s) (hr : t.reg .curSector = s.reg .curSector)
    (hb : t.session.currentBlock = s.session.currentBlock) : SectorOk t := by
  simpa only [SectorOk, BlockAgrees, SectorWordOk, hr, hb] using h

theorem sectorField_ofNat {n : Nat} (hn : n < 256) : sectorField (BitVec.ofNat 32 (n * 2 ^ 16)) = n := by
  rw [sectorField, BitVec.extractLsb'_toNat, BitVec.toNat_ofNat, Nat.shiftRight_eq_div_pow]
  omega

theorem sectorNumber_ofNat {n : Nat} (hn : n < 256) : sectorNumber (BitVec.ofNat 32 (n * 2 ^ 16)) = n :=
  sectorNumber_sectorWord (k := n) (b := 0) (by omega)

/-- A word is a sector register's in range exactly if it is its own sector field. -/
theorem sectorWordOk_iff {w : Word} : w &&& 0xFF00FFFF#32 = 0#32 ↔ w = BitVec.ofNat 32 (sectorField w * 2 ^ 16) := by
  rw [ofNat_sectorField]
  constructor
  · intro h
    calc w = w &&& (0xFF00FFFF#32 ||| 0x00FF0000#32) := (BitVec.and_allOnes (x := w)).symm
      _ = w &&& 0x00FF0000#32 := by rw [BitVec.and_or_distrib_left, h, BitVec.zero_or]
  · intro h
    rw [h, BitVec.and_assoc]
    exact BitVec.and_zero

/-- The block of a number below 256 in the sector register is the one that the register's word denotes. -/
theorem sectorOk_of_number {s : State} {n : Nat} (hn : n < 256) (hr : s.reg .curSector = BitVec.ofNat 32 (n * 2 ^ 16))
    (hb : s.session.currentBlock = blockOfSector n) : SectorOk s := by
  refine ⟨?_, ?_⟩
  · rw [BlockAgrees, hb, hr, sectorNumber_ofNat hn]
  · rw [SectorWordOk, sectorWordOk_iff, hr, sectorField_ofNat hn]

/-- Steps 1 to 6 of a BM-control write leave the sector register and the block in agreement, whatever they were (R255). -/
theorem sectorOk_bmPrepared (w : Word) (s : State) : SectorOk (bmPrepared w s) := by
  refine sectorOk_of_number (sectorField_lt w) ?_ ?_
  · rw [reg_curSector_bmPrepared, ofNat_sectorField]
  · rw [session_bmPrepared]

/-! ## The position a pump leaves -/

/-- In-block sector `k` of block `b` has an 8-bit sector number that denotes block `b` (R99). -/
def Placed (k : Nat) (b : Fin 2) : Prop := k + 90 * b.val < 256 ∧ (b = 0 → k < 90)

theorem placed_of_lt {k : Nat} (h : k < 90) (b : Fin 2) : Placed k b := ⟨by omega, fun _ => h⟩

theorem sectorOk_of_placed {s : State} {k : Nat} {b : Fin 2} (h : Placed k b) (hr : s.reg .curSector = sectorWord k b)
    (hb : s.session.currentBlock = b) : SectorOk s := by
  obtain ⟨hrange, hzero⟩ := h
  refine sectorOk_of_number (n := k + 90 * b.val) hrange hr ?_
  rw [hb, blockOfSector, Config.block1Base]
  split
  · omega
  · omega

/-- Where the block and the sector register agree, the pump finds the block as it is (R212). -/
theorem exists_placed {s : State} (h : SectorOk s) :
    ∃ k, At s k s.session.currentBlock ∧ Placed k s.session.currentBlock := by
  obtain ⟨hblock, hword⟩ := h
  have hn : sectorNumber (s.reg .curSector) < 256 := by
    rw [sectorWordOk_iff.mp hword, sectorNumber_ofNat (sectorField_lt _)]
    exact sectorField_lt _
  unfold At Placed
  rw [← sectorNumber_eq, hblock, blockOfSector, Config.block1Base]
  split
  · exact ⟨_, ⟨rfl, rfl⟩, by omega, by omega⟩
  · exact ⟨_, ⟨rfl, rfl⟩, by omega, by omega⟩

/-- What a branch of the pump leaves: the sector register as it was and a placed position, or where it faulted the block
as it was. -/
structure BranchPlaced (s : State) (r : Nat × State) : Prop where
  sector : r.2.reg .curSector = s.reg .curSector
  placed : r.2.fault = none → Placed r.1 r.2.session.currentBlock
  block  : r.2.fault ≠ none → r.2.session.currentBlock = s.session.currentBlock

section

variable {s t : State} {k : Nat}

/-- An arm that raises no fault. -/
theorem branchPlaced_of_clean (hf : t.fault = none) (hr : t.reg .curSector = s.reg .curSector)
    (hp : Placed k t.session.currentBlock) : BranchPlaced s (k, t) :=
  ⟨hr, fun _ => hp, fun h => absurd hf h⟩

/-- An arm that copies or commits, and goes on where that raised no fault. -/
theorem branchPlaced_andThen {next : State → State} (hk : k < 90) (hr : t.reg .curSector = s.reg .curSector)
    (hb : t.session.currentBlock = s.session.currentBlock) (hnr : (next t).reg .curSector = t.reg .curSector)
    (hnf : (next t).fault = t.fault) : BranchPlaced s (k, t.andThen next) := by
  cases hf : t.fault with
  | none =>
    rw [State.andThen_of_none hf]
    exact branchPlaced_of_clean (hnf.trans hf) (hnr.trans hr) (placed_of_lt hk _)
  | some f =>
    rw [State.andThen_of_some hf]
    exact ⟨hr, fun _ => placed_of_lt hk _, fun _ => hb⟩

theorem reg_commitSector (k : Nat) (s : State) (r : Reg) : (commitSector k s).reg r = s.reg r := by
  obtain h | ⟨-, h⟩ | ⟨-, h⟩ := commitSector_cases k s <;> rw [h]
  all_goals rfl

theorem session_commitSector (k : Nat) (s : State) : (commitSector k s).session = s.session := by
  obtain h | ⟨-, h⟩ | ⟨-, h⟩ := commitSector_cases k s <;> rw [h]
  all_goals rfl

theorem reg_copySector (k : Nat) (s : State) (r : Reg) : (copySector k s).reg r = s.reg r := by
  unfold copySector
  dsimp only
  split <;> rfl

theorem session_copySector (k : Nat) (s : State) : (copySector k s).session = s.session := by
  unfold copySector
  dsimp only
  split <;> rfl

/-- The arms of the write branch (R214 to R219). -/
theorem branchPlaced_pumpWrite (hf : s.fault = none) (hp : Placed k s.session.currentBlock) :
    BranchPlaced s (pumpWrite k s) := by
  have commits (k' : Nat) (hk : k' < 90) {next : State → State}
      (hnr : ∀ t : State, (next t).reg .curSector = t.reg .curSector) (hnf : ∀ t : State, (next t).fault = t.fault) :
      BranchPlaced s (k', (commitSector k s).andThen next) :=
    branchPlaced_andThen hk (reg_commitSector ..) (by rw [session_commitSector]) (hnr _) (hnf _)
  have hset (t : State) : (t.setStatus .dataRq).reg .curSector = t.reg .curSector := by
    rw [State.reg_setStatus, if_neg (by decide)]
  unfold pumpWrite
  rw [Config.sectorsPerBlock]
  split_ifs
  · exact branchPlaced_of_clean hf (hset s) (placed_of_lt (by omega) _)
  · exact commits _ (by omega) hset fun t => t.fault_setStatus _
  · refine commits 1 (by omega) (fun t => ?_) fault_writeNextBlock
    rw [writeNextBlock, hset, State.reg_clearBm, if_neg (by decide), State.reg_setBlock]
  · refine commits _ (by omega) (fun t => ?_) fun t => t.fault_clearBm _
    rw [State.reg_clearBm, if_neg (by decide)]
  · exact branchPlaced_of_clean hf rfl hp

/-- The arms of the read branch (R222 to R229). -/
theorem branchPlaced_readArms (hf : s.fault = none) (hp : Placed k s.session.currentBlock) :
    BranchPlaced s (readArms k s) := by
  have hset (f : StatusFlag) (t : State) : (t.setStatus f).reg .curSector = t.reg .curSector := by
    rw [State.reg_setStatus, if_neg (by decide)]
  have hclear (f : BmFlag) (t : State) : (t.clearBm f).reg .curSector = t.reg .curSector := by
    rw [State.reg_clearBm, if_neg (by decide)]
  unfold readArms readEcc readGap
  rw [Config.sectorsPerBlock]
  split_ifs
  · exact branchPlaced_of_clean hf rfl hp
  · exact branchPlaced_andThen (by omega) (reg_copySector ..) (by rw [session_copySector]) (hset ..)
      (State.fault_setStatus ..)
  · exact branchPlaced_of_clean hf (hset ..) (placed_of_lt (by omega) _)
  · exact branchPlaced_of_clean hf rfl (placed_of_lt (by omega) _)
  · exact branchPlaced_of_clean hf (hclear ..) (placed_of_lt (by omega) _)
  · exact branchPlaced_of_clean hf (hclear ..) hp
  · exact branchPlaced_of_clean hf rfl hp

theorem branchPlaced_pumpRead (hf : s.fault = none) (hp : Placed k s.session.currentBlock) :
    BranchPlaced s (pumpRead k s) := by
  have hentry : ((s.clearStatus .dataRq).clearStatus .c2Xfer).reg .curSector = s.reg .curSector := by
    rw [State.reg_clearStatus, if_neg (by decide), State.reg_clearStatus, if_neg (by decide)]
  rw [pumpRead]
  unfold stepBack
  by_cases hstep : (!((s.clearStatus .dataRq).clearStatus .c2Xfer).session.skip89 && k == 89) = true
  · rw [if_pos hstep]
    obtain ⟨hr, hplaced, hb⟩ := branchPlaced_readArms (k := 88)
      (s := ((s.clearStatus .dataRq).clearStatus .c2Xfer).setSkip89 true) hf (placed_of_lt (by decide) _)
    exact ⟨hr.trans hentry, hplaced, hb⟩
  · rw [if_neg hstep]
    obtain ⟨hr, hplaced, hb⟩ := branchPlaced_readArms (s := (s.clearStatus .dataRq).clearStatus .c2Xfer) hf hp
    exact ⟨hr.trans hentry, hplaced, hb⟩

theorem branchPlaced_pumpBranch (hf : s.fault = none) (hp : Placed k s.session.currentBlock) :
    BranchPlaced s (pumpBranch k s) := by
  unfold pumpBranch
  split
  · exact branchPlaced_pumpRead hf hp
  · exact branchPlaced_pumpWrite hf hp

/-- A pump keeps the block and the sector register in agreement: the epilogue writes the position its branch reached, and
a branch that faults moved neither (R230, R270). -/
theorem sectorOk_pump (hf : s.fault = none) (h : SectorOk s) : SectorOk (pump s) := by
  obtain ⟨k, hat, hp⟩ := exists_placed h
  have hbranch : BranchPlaced (s.setBlock s.session.currentBlock) (pumpBranch k (s.setBlock s.session.currentBlock)) :=
    branchPlaced_pumpBranch hf hp
  rw [pump_eq, pumpPrologue_of_at hat]
  generalize pumpBranch k (s.setBlock s.session.currentBlock) = r at hbranch
  obtain ⟨hr, hplaced, hb⟩ := hbranch
  cases hleft : r.2.fault with
  | none =>
    rw [State.andThen_of_none hleft, pumpEpilogue]
    refine sectorOk_of_placed (hplaced hleft) ?_ ?_
    · rw [State.reg_signalIrq, State.reg_setStatus, if_neg (by decide), State.reg_setReg, if_pos rfl]
    · rw [State.session_signalIrq, State.session_setStatus, State.session_setReg]
  | some f =>
    rw [State.andThen_of_some hleft]
    exact sectorOk_congr h hr (hb (by rw [hleft]; exact Option.some_ne_none f))

end

/-! ## Every step -/

/-- A completed operation keeps the block and the sector register in agreement where the host cannot write the register
(R36). -/
theorem sectorOk_exec {s t : State} {i : Instr} (h : exec i s = .next t) (hro : .curSector ∈ s.params.bus.readOnlyRegs)
    (hs : SectorOk s) : SectorOk t := by
  have hf := exec_next_unfaulted h
  have replied {u : State} (v : Option Word) (hu : SectorOk u) : SectorOk (u.reply v) := hu
  obtain hc | hplain | ⟨-, rfl⟩ | ⟨word, -, rfl⟩ := exec_kinds h
  · have k := commandKept_of_exec hc h
    exact sectorOk_congr hs (k.reg .curSector (by decide)) k.block
  · obtain ⟨hsector, -, hsession, -⟩ := transfer_of_plainAccess hplain
    refine sectorOk_congr hs (hsector.resolve_right ?_) (by rw [hsession])
    exact fun hgeneric => notMem_readOnlyRegs_of_isGeneric hgeneric.1 hro
  · obtain hsame | ⟨-, -, -, -, hpump⟩ := statusReadSideEffect_cases s
    · rw [hsame]
      exact replied _ hs
    · rw [hpump]
      have hgap : SectorOk (gapEntry s) := sectorOk_congr hs (reg_gapEntry s (by decide)) (by rw [session_gapEntry])
      exact replied _ (sectorOk_pump ((fault_gapEntry s).trans hf) hgap)
  · obtain ⟨hfault, -⟩ := bmPrepared_frame word s
    have hprepared := sectorOk_bmPrepared word s
    refine replied none ?_
    rw [bmControl_eq]
    split
    · exact sectorOk_pump (hfault.trans hf) hprepared
    · exact hprepared

/-- A step does nothing, or performs an operation on the state with an access taken off the queue. -/
theorem step_next {s t : State} (h : step s = .next t) : t = s ∨ ∃ i as, exec i (s.setPending as) = .next t := by
  unfold step State.takeAccess at h
  split at h
  · cases h
  · split at h
    · exact .inl (Host.Outcome.next.inj h).symm
    next hu =>
      split at hu
      · cases hu
      · cases hu
        split at h
        · cases h
        · exact .inr ⟨_, _, h⟩

/-- Settles O53: each part of the invariant but one is kept by every update that operations are made of; that the block
and the sector register agree is kept by every whole operation. -/
theorem stepKeepsInvariant : Obligations.StepKeepsInvariant := by
  rintro s t ⟨hwf, hmem, hregs, hsector, hclear, hdisk, hid⟩ h
  obtain ⟨hparams, -⟩ := imagesAreImmutable s t h
  obtain ⟨⟨-, -, hds, -⟩, hbits, -⟩ := id hwf
  obtain ⟨-, hmem'⟩ := kept_buffersOk.step h ⟨hds, hmem⟩
  obtain ⟨-, hclear', hdisk'⟩ := kept_statusOk.step h ⟨hbits, hclear, hdisk⟩
  have hsector' (hro : .curSector ∈ s.params.bus.readOnlyRegs) : SectorOk t := by
    obtain rfl | ⟨i, as, hexec⟩ := step_next h
    · exact hsector hro
    · exact sectorOk_exec hexec hro (hsector hro)
  exact ⟨hparams ▸ hwf, hmem', kept_regsOk.step h hregs, fun hro => hsector' (hparams ▸ hro), hclear', hdisk',
    kept_idKept.step h hid⟩

end Sys2Proof.Machine
end

section
/-! SUPPORT. Noninterference: two states that differ in the level of the interrupt line, or in flags of CMD_STATUS that no rule
tests, go through every operation alike (60_exceptions.md R275, R284). -/

namespace Sys2Proof.Machine

open Spec

/-! ## States that differ in the status word and the line alone -/

/-- The state with another word in CMD_STATUS and another level of the interrupt line. -/
def State.veil (s : State) (w : Word) (l : Bool) : State := { s with regs := s.regs.set .cmdStatus w, irq := l }

/-- The second state differs from the first at most in the bits of CMD_STATUS under the mask, where neither interrupt flag is,
and, where the line is free, in its level. -/
inductive Veiled (m : Word) (free : Bool) (s : State) : State → Prop where
  | mk (w : Word) (l : Bool)
    (untested : ∀ f ∈ [StatusFlag.bmInt, .mechaInt], testBit m (f.bit s.params.statusBits) = false)
    (agree : w &&& ~~~m = s.reg .cmdStatus &&& ~~~m) (line : free = true ∨ l = s.irq) : Veiled m free s (s.veil w l)

theorem State.reg_veil (s : State) (w : Word) (l : Bool) (r : Reg) :
    (s.veil w l).reg r = if r = .cmdStatus then w else s.reg r :=
  Regs.get_set ..

theorem testBit_eq_of_agree {m w v : Word} (h : w &&& ~~~m = v &&& ~~~m) {i : Fin 32} (hi : testBit m i = false) :
    testBit w i = testBit v i := by
  refine getLsbD_eq_of_and_eq h ?_
  rw [BitVec.getLsbD_not, show m.getLsbD i = false from hi, decide_eq_true i.isLt]
  rfl

theorem Word.and_right_comm (x y z : Word) : x &&& y &&& z = x &&& z &&& y := by
  rw [BitVec.and_assoc, BitVec.and_comm y, ← BitVec.and_assoc]

section

variable (s : State) (w : Word) (l : Bool)

theorem State.clockDrawn_veil : (s.veil w l).clockDrawn = s.clockDrawn.veil w l := by
  have hport : (s.veil w l).port = s.port := rfl
  cases hfeed : s.port.clockFeed <;> simp only [State.clockDrawn, hport, hfeed] <;> rfl

theorem persistCommit_veil (off : Nat) (payload : List Byte) :
    persistCommit off payload (s.veil w l) = (persistCommit off payload s).veil w l := by
  have hparams : (s.veil w l).params = s.params := rfl
  have himg : (s.veil w l).img = s.img := rfl
  unfold persistCommit
  rw [hparams, himg]
  split_ifs <;> rfl

theorem commitSector_veil (k : Nat) : commitSector k (s.veil w l) = (commitSector k s).veil w l :=
  persistCommit_veil (s.emit _) w l _ _

theorem copySector_veil (k : Nat) : copySector k (s.veil w l) = (copySector k s).veil w l := by
  obtain hfits | hover := le_or_gt (s.slotOffset k + s.sectorBytes) s.img.size
  · rw [copySector_of_le hfits, copySector_of_le (s := s.veil w l) hfits]
    rfl
  · rw [copySector_of_lt hover, copySector_of_lt (s := s.veil w l) hover]
    rfl

end

/-- A commit reaches no register, and neither the line nor the parameters (R218). -/
theorem commitSector_frame (k : Nat) (s : State) : (∀ r, (commitSector k s).reg r = s.reg r) ∧
    (commitSector k s).irq = s.irq ∧ (commitSector k s).params = s.params := by
  obtain h | ⟨-, h⟩ | ⟨-, h⟩ := commitSector_cases k s <;> rw [h]
  all_goals exact ⟨fun _ => rfl, rfl, rfl⟩

theorem irq_copySector (k : Nat) (s : State) : (copySector k s).irq = s.irq := by
  unfold copySector
  dsimp only
  split <;> rfl

/-- Two answers of a branch of the pump: the same in-block sector, and states that differ as the relation allows. -/
def VeiledAt (m : Word) (free : Bool) (r q : Nat × State) : Prop := q.1 = r.1 ∧ Veiled m free r.2 q.2

namespace Veiled

variable {m : Word} {free : Bool} {s u : State} (h : Veiled m free s u)

include h

/-! ### What the two states agree in -/

theorem session : u.session = s.session := by cases h; rfl

theorem ipl : u.ipl = s.ipl := by cases h; rfl

theorem fault : u.fault = s.fault := by cases h; rfl

theorem params : u.params = s.params := by cases h; rfl

theorem port : u.port = s.port := by cases h; rfl

theorem c2 : u.c2 = s.c2 := by cases h; rfl

theorem ds : u.ds = s.ds := by cases h; rfl

theorem ms : u.ms = s.ms := by cases h; rfl

theorem reg {r : Reg} (hr : r ≠ .cmdStatus) : u.reg r = s.reg r := by
  cases h
  rw [State.reg_veil, if_neg hr]

theorem bm (f : BmFlag) : u.bm f = s.bm f := by
  rw [State.bm, h.reg (by decide), h.params, State.bm]

/-- The interrupt flags, the only ones a rule tests, are not under the mask. -/
theorem status {f : StatusFlag} (hf : f ∈ [StatusFlag.bmInt, .mechaInt]) : u.status f = s.status f := by
  obtain ⟨w, l, untested, agree, line⟩ := h
  rw [State.status, State.reg_veil, if_pos rfl]
  exact testBit_eq_of_agree agree (untested f hf)

theorem ctlBit (word : Word) (c : BmCtlBit) : u.ctlBit word c = s.ctlBit word c := by
  rw [State.ctlBit, h.params, State.ctlBit]

/-! ### The updates -/

/-- An update that neither reads nor writes the status word and the line. -/
theorem map {f : State → State} (hf : ∀ w l, f (s.veil w l) = (f s).veil w l)
    (hr : (f s).reg .cmdStatus = s.reg .cmdStatus) (hi : (f s).irq = s.irq) (hp : (f s).params = s.params) :
    Veiled m free (f s) (f u) := by
  obtain ⟨w, l, untested, agree, line⟩ := h
  rw [hf]
  exact .mk w l (hp ▸ untested) (hr ▸ agree) (hi ▸ line)

theorem setReg {r : Reg} (hr : r ≠ .cmdStatus) (v : Word) : Veiled m free (s.setReg r v) (u.setReg r v) := by
  refine h.map (f := (·.setReg r v)) (fun w l => ?_) (by rw [State.reg_setReg, if_neg hr.symm]) rfl rfl
  rw [State.setReg, State.veil, Regs.set_comm s.regs hr.symm]
  rfl

theorem setStatus (f : StatusFlag) : Veiled m free (s.setStatus f) (u.setStatus f) := by
  obtain ⟨w, l, untested, agree, line⟩ := h
  have heq : (s.veil w l).setStatus f = (s.setStatus f).veil (setBit w (f.bit s.params.statusBits)) l := by
    rw [State.setStatus, State.reg_veil, if_pos rfl, State.setReg, State.veil, Regs.set_set, State.veil,
      State.regs_setStatus, Regs.set_set]
    rfl
  rw [heq]
  refine .mk _ l untested ?_ line
  rw [State.reg_setStatus, if_pos rfl, setBit, setBit, BitVec.and_comm, BitVec.and_or_distrib_left, BitVec.and_comm _ w,
    agree, BitVec.and_comm _ (~~~m), ← BitVec.and_or_distrib_left, BitVec.and_comm]

theorem clearStatus (f : StatusFlag) : Veiled m free (s.clearStatus f) (u.clearStatus f) := by
  obtain ⟨w, l, untested, agree, line⟩ := h
  have heq : (s.veil w l).clearStatus f = (s.clearStatus f).veil (clearBit w (f.bit s.params.statusBits)) l := by
    rw [State.clearStatus, State.reg_veil, if_pos rfl, State.setReg, State.veil, Regs.set_set, State.veil,
      State.regs_clearStatus, Regs.set_set]
    rfl
  rw [heq]
  refine .mk _ l untested ?_ line
  rw [State.reg_clearStatus, if_pos rfl, clearBit, clearBit, Word.and_right_comm, agree, Word.and_right_comm]

theorem setBm (f : BmFlag) : Veiled m free (s.setBm f) (u.setBm f) := by
  rw [State.setBm, State.setBm, h.reg (by decide), h.params]
  exact h.setReg (by decide) _

theorem clearBm (f : BmFlag) : Veiled m free (s.clearBm f) (u.clearBm f) := by
  rw [State.clearBm, State.clearBm, h.reg (by decide), h.params]
  exact h.setReg (by decide) _

theorem setBlock (b : Fin 2) : Veiled m free (s.setBlock b) (u.setBlock b) :=
  h.map (f := (·.setBlock b)) (fun _ _ => rfl) rfl rfl rfl

theorem setSkip89 (b : Bool) : Veiled m free (s.setSkip89 b) (u.setSkip89 b) :=
  h.map (f := (·.setSkip89 b)) (fun _ _ => rfl) rfl rfl rfl

theorem setResetHold (b : Bool) : Veiled m free (s.setResetHold b) (u.setResetHold b) :=
  h.map (f := (·.setResetHold b)) (fun _ _ => rfl) rfl rfl rfl

theorem setModeRead (b : Bool) : Veiled m free (s.setModeRead b) (u.setModeRead b) :=
  h.map (f := (·.setModeRead b)) (fun _ _ => rfl) rfl rfl rfl

theorem setGeometry (z : Fin 16) (off : Word) : Veiled m free (s.setGeometry z off) (u.setGeometry z off) :=
  h.map (f := (·.setGeometry z off)) (fun _ _ => rfl) rfl rfl rfl

theorem zeroC2 : Veiled m free s.zeroC2 u.zeroC2 := h.map (f := State.zeroC2) (fun _ _ => rfl) rfl rfl rfl

theorem emit (e : Event) : Veiled m free (s.emit e) (u.emit e) := h.map (f := (·.emit e)) (fun _ _ => rfl) rfl rfl rfl

theorem raise (f : Fault) : Veiled m free (s.raise f) (u.raise f) := h.map (f := (·.raise f)) (fun _ _ => rfl) rfl rfl rfl

theorem reply (v : Option Word) : Veiled m free (s.reply v) (u.reply v) :=
  h.map (f := (·.reply v)) (fun _ _ => rfl) rfl rfl rfl

theorem signalIrq : Veiled m free s.signalIrq u.signalIrq := by
  obtain ⟨w, l, untested, agree, line⟩ := h
  exact .mk (s := s.signalIrq) w true untested agree (.inr rfl)

theorem clearIrq : Veiled m free s.clearIrq u.clearIrq := by
  obtain ⟨w, l, untested, agree, line⟩ := h
  exact .mk (s := s.clearIrq) w false untested agree (.inr rfl)

theorem clockDrawn : Veiled m free s.clockDrawn u.clockDrawn :=
  h.map (f := State.clockDrawn) s.clockDrawn_veil (s.reg_clockDrawn _) s.irq_clockDrawn s.params_clockDrawn

/-- The next line runs in both states or in neither. -/
theorem andThen {next : State → State} (hn : ∀ {s u}, Veiled m free s u → Veiled m free (next s) (next u)) :
    Veiled m free (s.andThen next) (u.andThen next) := by
  unfold State.andThen
  rw [h.fault]
  split
  · exact hn h
  · exact h

/-! ### The pump -/

theorem pumpPrologue : VeiledAt m free (pumpPrologue s) (pumpPrologue u) := by
  rw [pumpPrologue_eq, pumpPrologue_eq, h.reg (by decide)]
  refine ⟨rfl, ?_⟩
  dsimp only
  split
  · exact h.setBlock 1
  · exact h

theorem commitSector (k : Nat) : Veiled m free (commitSector k s) (commitSector k u) := by
  obtain ⟨hreg, hirq, hparams⟩ := commitSector_frame k s
  exact h.map (f := Machine.commitSector k) (fun w l => commitSector_veil s w l k) (hreg _) hirq hparams

theorem copySector (k : Nat) : Veiled m free (copySector k s) (copySector k u) := by
  obtain ⟨hparams, -⟩ := copySector_frame k s
  exact h.map (f := Machine.copySector k) (fun w l => copySector_veil s w l k) (reg_copySector k s _) (irq_copySector k s)
    hparams

theorem writeNextBlock : Veiled m free (writeNextBlock s) (writeNextBlock u) := by
  rw [Machine.writeNextBlock, Machine.writeNextBlock, h.session]
  exact ((h.setBlock _).clearBm _).setStatus _

theorem pumpWrite (k : Nat) : VeiledAt m free (pumpWrite k s) (pumpWrite k u) := by
  unfold Machine.pumpWrite
  rw [h.bm]
  split_ifs
  · exact ⟨rfl, h.setStatus _⟩
  · exact ⟨rfl, (h.commitSector k).andThen fun h => h.setStatus _⟩
  · exact ⟨rfl, (h.commitSector k).andThen writeNextBlock⟩
  · exact ⟨rfl, (h.commitSector k).andThen fun h => h.clearBm _⟩
  · exact ⟨rfl, h⟩

theorem stepBack (k : Nat) : VeiledAt m free (stepBack k s) (stepBack k u) := by
  unfold Machine.stepBack
  rw [h.session]
  split
  · exact ⟨rfl, h.setSkip89 true⟩
  · exact ⟨rfl, h⟩

theorem iplSpecial : iplSpecial u = iplSpecial s := by
  rw [Machine.iplSpecial, h.reg (by decide), h.session, h.ipl, Machine.iplSpecial]

theorem readArms (k : Nat) : VeiledAt m free (readArms k s) (readArms k u) := by
  unfold Machine.readArms readEcc readGap
  rw [h.iplSpecial, h.bm, h.session]
  split_ifs
  · exact ⟨rfl, h⟩
  · exact ⟨rfl, (h.copySector k).andThen fun h => h.setStatus _⟩
  · exact ⟨rfl, h.zeroC2.setStatus _⟩
  · exact ⟨rfl, h⟩
  · exact ⟨rfl, (h.setBlock _).clearBm _⟩
  · exact ⟨rfl, h.clearBm _⟩
  · exact ⟨rfl, h⟩

theorem pumpRead (k : Nat) : VeiledAt m free (pumpRead k s) (pumpRead k u) := by
  obtain ⟨hk, hstep⟩ := ((h.clearStatus .dataRq).clearStatus .c2Xfer).stepBack k
  rw [Machine.pumpRead, Machine.pumpRead]
  dsimp only
  rw [hk]
  exact hstep.readArms _

theorem pumpBranch (k : Nat) : VeiledAt m free (pumpBranch k s) (pumpBranch k u) := by
  unfold Machine.pumpBranch
  rw [h.session]
  split
  · exact h.pumpRead k
  · exact h.pumpWrite k

theorem pumpEpilogue (k : Nat) : Veiled m free (pumpEpilogue k s) (pumpEpilogue k u) := by
  rw [Machine.pumpEpilogue, Machine.pumpEpilogue, h.session]
  exact ((h.setReg (by decide) _).setStatus _).signalIrq

/-- A pump tests neither the status word nor the line (R231). -/
theorem pump : Veiled m free (pump s) (pump u) := by
  obtain ⟨hk, hentry⟩ := h.pumpPrologue
  obtain ⟨hk', hbranch⟩ := hentry.pumpBranch (Machine.pumpPrologue s).1
  rw [pump_eq, pump_eq, hk, hk']
  exact hbranch.andThen fun h => h.pumpEpilogue _

/-- A status read's side effect tests BM_INT alone (R122). -/
theorem statusReadSideEffect : Veiled m free (statusReadSideEffect s) (statusReadSideEffect u) := by
  unfold Machine.statusReadSideEffect
  rw [h.status (by decide), h.reg (by decide)]
  split
  · exact (h.clearStatus _).clearIrq.pump
  · exact h

/-! ### The steps of a BM-control write -/

theorem resetSession : Veiled m free (resetSession s) (resetSession u) := by
  unfold Machine.resetSession
  rw [h.params]
  split
  · exact ((h.setModeRead _).setGeometry _ _).setSkip89 _
  · exact h

theorem bmTrailingEdge : Veiled m free (bmTrailingEdge s) (bmTrailingEdge u) := by
  have hregs := (h.setReg (r := .bmStatusCtl) (by decide) 0#32).setReg (r := .curSector) (by decide) 0#32
  have hflags := (((hregs.clearStatus .bmInt).clearStatus .bmErr).clearStatus .dataRq).clearStatus .c2Xfer
  exact ((hflags.setBlock 0).setResetHold false).resetSession

variable (word : Word)

theorem bmReset : Veiled m free (bmReset word s) (bmReset word u) := by
  unfold Machine.bmReset
  rw [h.ctlBit, h.session]
  split_ifs
  · exact h.setResetHold _
  · exact h.bmTrailingEdge
  · exact h

theorem bmMechaRst : Veiled m free (bmMechaRst word s) (bmMechaRst word u) := by
  unfold Machine.bmMechaRst
  rw [h.ctlBit]
  split
  · exact h.clearStatus _
  · exact h

theorem bmBlkTrans : Veiled m free (bmBlkTrans word s) (bmBlkTrans word u) := by
  unfold Machine.bmBlkTrans
  rw [h.ctlBit]
  split
  · exact h.setBm _
  · exact h.clearBm _

theorem bmSector : Veiled m free (bmSector word s) (bmSector word u) := (h.setReg (by decide) _).setBlock _

/-- The defensive line clear tests the two interrupt flags alone (R256). -/
theorem bmLineClear : Veiled m free (bmLineClear s) (bmLineClear u) := by
  unfold Machine.bmLineClear
  rw [h.status (f := .bmInt) (by decide), h.status (f := .mechaInt) (by decide)]
  split
  · exact h.clearIrq
  · exact h

theorem bmStart : Veiled m free (bmStart word s) (bmStart word u) := by
  unfold Machine.bmStart
  rw [h.ctlBit]
  split
  · exact ((h.setBm _).setSkip89 _).pump
  · exact h

theorem bmControl : Veiled m free (bmControl word s) (bmControl word u) :=
  ((((h.bmReset word).bmMechaRst word).bmBlkTrans word).bmSector word).bmLineClear.bmStart word

/-! ### The arms of the commands -/

theorem commandEpilogue : Veiled m free (commandEpilogue s) (commandEpilogue u) := (h.setStatus _).signalIrq

theorem resolveGeometry : Veiled m free (resolveGeometry s) (resolveGeometry u) := by
  rw [Machine.resolveGeometry, Machine.resolveGeometry, h.reg (by decide)]
  exact h.setGeometry _ _

theorem seekArm (mode : Bool) : Veiled m free (seekArm mode s) (seekArm mode u) := by
  rw [Machine.seekArm, Machine.seekArm, h.reg (by decide)]
  exact ((((h.setReg (by decide) _).clearStatus _).clearStatus _).setModeRead mode).resolveGeometry

theorem clockNow : u.clockNow = s.clockNow := by
  rw [State.clockNow, h.port, State.clockNow]

theorem getTimeArm (kind : ClockKind) : Veiled m free (getTimeArm kind s) (getTimeArm kind u) := by
  rw [Machine.getTimeArm, Machine.getTimeArm, h.clockNow]
  exact (h.clockDrawn.emit _).setReg (by decide) _

end Veiled

/-! ## Completed operations -/

/-- The outcome is completion in a state that differs from the given one as the relation allows. -/
def Follows (m : Word) (free : Bool) (t : State) (r : Result) : Prop := ∃ u, r = .next u ∧ Veiled m free t u

namespace Veiled

variable {m : Word} {free : Bool} {s t u : State} (h : Veiled m free s u)

include h

theorem writeOp {body : State → State} (hs : s.writeOp body = .next t) (hb : Veiled m free (body s) (body u)) :
    Follows m free t (u.writeOp body) := by
  obtain ⟨hf, rfl⟩ := State.writeOp_next.mp hs
  exact ⟨_, State.writeOp_next.mpr ⟨h.fault.trans hf, rfl⟩, hb.reply none⟩

theorem command {arm : State → State} (hs : s.command arm = .next t) (ha : Veiled m free (arm s) (arm u)) :
    Follows m free t (u.command arm) :=
  h.writeOp hs ha.commandEpilogue

theorem readOp {v : Word} (hs : s.readOp v = .next t) : Follows m free t (u.readOp v) := by
  obtain ⟨hf, rfl⟩ := State.readOp_next.mp hs
  exact ⟨_, State.readOp_next.mpr ⟨h.fault.trans hf, rfl⟩, h.reply (some v)⟩

theorem ifWellFormed {i : Instr} {body : State → Result} (hs : s.ifWellFormed (i.wellFormed s.params) body = .next t)
    (hb : i.wellFormed s.params = true → body s = .next t → Follows m free t (body u)) :
    Follows m free t (u.ifWellFormed (i.wellFormed u.params) body) := by
  obtain ⟨hf, hok, hbody⟩ := State.ifWellFormed_next.mp hs
  rw [State.ifWellFormed_of_ok (h.fault.trans hf) (by rw [h.params, hok])]
  exact hb hok hbody

theorem atOffset {size : BusMap → Nat} {off : Nat} {body : State → Result}
    (hs : s.atOffset (size s.params.bus) off body = .next t) (hb : body s = .next t → Follows m free t (body u)) :
    Follows m free t (u.atOffset (size u.params.bus) off body) := by
  obtain ⟨hf, ⟨hal, hin⟩, hbody⟩ := State.atOffset_next.mp hs
  rw [State.atOffset_of_ok (h.fault.trans hf) hal (by rw [h.params]; exact hin)]
  exact hb hbody

theorem iplRead {off : Nat} (hs : execIplRead off s = .next t) : Follows m free t (execIplRead off u) := by
  refine h.atOffset (size := (·.iplSize)) hs fun hs => ?_
  rw [h.ipl]
  split at hs
  · exact h.readOp hs
  · split at hs
    · cases hs
    next hin =>
      rw [if_neg hin]
      exact h.readOp hs

/-- A completed operation other than a status read completes in the other state too, alike. -/
theorem exec {i : Instr} (hs : exec i s = .next t) (hi : i ≠ .statusRead) : Follows m free t (exec i u) := by
  cases i <;> simp only [Machine.exec] at hs ⊢
  case statusRead => exact absurd rfl hi
  case seekRead | seekWrite => exact h.command hs (h.seekArm _)
  case recalibrate | featureInq => exact h.command hs (h.setReg (by decide) _)
  case sleep => exact h.command hs ((h.setStatus _).setStatus _)
  case start => exact h.command hs ((h.clearStatus _).clearStatus _)
  case standby => exact h.command hs ((h.setStatus _).clearStatus _)
  case clrDskChng | clrReset => exact h.command hs (h.clearStatus _)
  case getYearMonth | getDayHour | getMinSec => exact h.command hs (h.getTimeArm _)
  case idxLockRetry =>
    refine h.command hs ?_
    rw [h.reg (by decide), h.params]
    exact h.setReg (by decide) _
  case cmdUnrecognized op => exact h.ifWellFormed hs fun _ hs => h.command hs h
  case regRead r =>
    refine h.ifWellFormed hs fun hr hs => ?_
    have hne : r ≠ .cmdStatus := by
      rintro rfl
      simp [Instr.wellFormed] at hr
    rw [h.reg hne]
    exact h.readOp hs
  case regWrite r word mask =>
    refine h.ifWellFormed hs fun hr hs => h.writeOp hs ?_
    have hne : r ≠ .cmdStatus := by
      rintro rfl
      simp [Instr.wellFormed, BusMap.isGeneric] at hr
    rw [h.reg hne]
    exact h.setReg hne _
  case regWriteRo r word mask => exact h.ifWellFormed hs fun _ hs => h.writeOp hs h
  case bmctlWrite word => exact h.writeOp hs (h.bmControl word)
  case hardResetWrite word =>
    refine h.writeOp hs ?_
    rw [h.params]
    split
    · exact h
    · exact h.raise _
  case c2Read off =>
    refine h.atOffset (size := (·.c2Size)) hs fun hs => ?_
    rw [h.c2]
    exact h.readOp hs
  case dsRead off =>
    refine h.atOffset (size := (·.dsSize)) hs fun hs => ?_
    rw [h.ds]
    exact h.readOp hs
  case msRead off =>
    refine h.atOffset (size := (·.msSize)) hs fun hs => ?_
    rw [h.ms]
    exact h.readOp hs
  case c2Write off word mask =>
    exact h.atOffset (size := (·.c2Size)) hs fun hs => h.writeOp hs
      (h.map (f := fun s => { s with c2 := s.c2.putMasked off word mask }) (fun _ _ => rfl) rfl rfl rfl)
  case dsWrite off word mask =>
    exact h.atOffset (size := (·.dsSize)) hs fun hs => h.writeOp hs
      (h.map (f := fun s => { s with ds := s.ds.putMasked off word mask }) (fun _ _ => rfl) rfl rfl rfl)
  case msWrite off word mask =>
    exact h.atOffset (size := (·.msSize)) hs fun hs => h.writeOp hs
      (h.map (f := fun s => { s with ms := s.ms.putMasked off word mask }) (fun _ _ => rfl) rfl rfl rfl)
  case iplRead off => exact h.iplRead hs
  case iplWrite off word mask => exact h.atOffset (size := (·.iplSize)) hs fun hs => h.writeOp hs h
  all_goals exact h.command hs h

/-- A status read completes in the other state too, answering that state's own status word (R124). -/
theorem exec_statusRead (hs : execStatusRead s = .next t) :
    t = (Machine.statusReadSideEffect s).reply (some (s.reg .cmdStatus)) ∧
      Machine.exec .statusRead u = .next ((Machine.statusReadSideEffect u).reply (some (u.reg .cmdStatus))) := by
  obtain ⟨hf, hs⟩ := State.operate_next.mp hs
  exact ⟨(Host.Outcome.next.inj hs).symm, execStatusRead_of_unfaulted (h.fault.trans hf)⟩

end Veiled

/-! ## The interrupt line -/

/-- A state with the line at another level. -/
theorem veiled_irq (s : State) (level : Bool) : Veiled 0#32 true s { s with irq := level } :=
  .mk (s.reg .cmdStatus) level (fun _ _ => BitVec.getLsbD_zero) rfl (.inl rfl)

/-- With no bit under the mask the two states differ in the line alone. -/
theorem eq_of_veiled_zero {t u : State} (h : Veiled 0#32 true t u) : u = { t with irq := u.irq } := by
  obtain ⟨w, l, -, agree, -⟩ := h
  have hw : w = t.reg .cmdStatus := by rwa [BitVec.not_zero, BitVec.and_allOnes, BitVec.and_allOnes] at agree
  subst hw
  rfl

/-- Settles O59: no update of an operation reads the line. -/
theorem interruptLineIsNeverRead : Obligations.InterruptLineIsNeverRead := by
  intro s t i level hs
  have h := veiled_irq s level
  obtain rfl | hi := eq_or_ne i .statusRead
  · obtain ⟨rfl, hu⟩ := h.exec_statusRead hs
    exact ⟨_, hu.trans (congrArg _ (eq_of_veiled_zero (h.statusReadSideEffect.reply (some (s.reg .cmdStatus)))))⟩
  · obtain ⟨u, hu, hleft⟩ := h.exec hs hi
    exact ⟨u.irq, hu.trans (congrArg _ (eq_of_veiled_zero hleft))⟩

/-! ## The motor and head flags -/

/-- The motor and head flags are neither of the interrupt flags (R93). -/
theorem testBit_powerMask {s : State} (hbits : s.params.statusBits.wf) {f : StatusFlag}
    (hf : f ∈ [StatusFlag.bmInt, .mechaInt]) : testBit (powerMask s) (f.bit s.params.statusBits) = false := by
  have hused : ∀ f ∈ [StatusFlag.bmInt, .mechaInt], f ∈ StatusFlag.used ∧ f ≠ .mtrNSpin ∧ f ≠ .headRtrct := by decide
  obtain ⟨hin, hmtr, hhead⟩ := hused f hf
  rw [powerMask, testBit_bitMask, decide_eq_false_iff_not, List.mem_cons, List.mem_singleton, not_or]
  exact ⟨mt (StatusFlag.bit_inj hbits (g := .mtrNSpin) hin (by decide)).mp hmtr,
    mt (StatusFlag.bit_inj hbits (g := .headRtrct) hin (by decide)).mp hhead⟩

theorem veiled_forgetPower {s : State} (hbits : s.params.statusBits.wf) :
    Veiled (powerMask s) false s (forgetPower s) := by
  refine .mk (s.reg .cmdStatus &&& ~~~powerMask s) s.irq (fun f hf => testBit_powerMask hbits hf) ?_ (.inr rfl)
  rw [BitVec.and_assoc, BitVec.and_self]

/-- Two states that differ in the motor and head flags alone are the same with the two flags cleared. -/
theorem forgetPower_eq_of_veiled {m : Word} {t u : State} (hm : powerMask t = m) (h : Veiled m false t u) :
    forgetPower u = forgetPower t := by
  obtain ⟨w, l, -, agree, hfree | rfl⟩ := h
  · cases hfree
  · rw [forgetPower, State.reg_veil, if_pos rfl, show powerMask (t.veil w t.irq) = powerMask t from rfl, hm, agree,
      State.veil, Regs.set_set, ← hm]
    rfl

theorem powerMask_reply (t : State) (v : Option Word) : powerMask (t.reply v) = powerMask t := rfl

theorem answered_reply (t : State) (v w : Option Word) : answered (t.reply v) w = t.reply w := rfl

/-- Settles O58: the two flags are under a mask of bits that no operation tests. -/
theorem powerFlagsGateNothing : Obligations.PowerFlagsGateNothing := by
  intro s t i hbits hs
  have h := veiled_forgetPower hbits
  have hmask : powerMask t = powerMask s := by
    rw [powerMask, ((ImagesKept.kept s).exec hs (.of_eq rfl rfl rfl)).params, powerMask]
  obtain rfl | hi := eq_or_ne i .statusRead
  · obtain ⟨rfl, hu⟩ := h.exec_statusRead hs
    refine ⟨_, hu, fun hne => absurd rfl hne, fun _ => ?_⟩
    have hword : (forgetPower s).reg .cmdStatus = s.reg .cmdStatus &&& ~~~powerMask s := by
      rw [forgetPower, State.reg_mk, Regs.get_set, if_pos rfl]
    rw [powerMask_reply] at hmask
    rw [hword, State.port_reply, Option.map_some, answered_reply]
    exact forgetPower_eq_of_veiled ((powerMask_reply _ _).trans hmask) (h.statusReadSideEffect.reply _)
  · obtain ⟨u, hu, hleft⟩ := h.exec hs hi
    exact ⟨u, hu, fun _ => forgetPower_eq_of_veiled hmask hleft, fun heq => absurd heq hi⟩

end Sys2Proof.Machine
end
